-- ==== Sys2Proof/Word.lean ====
section
/-! DEFINITION. The machine's word types (00_scope.md R7, R16). -/

namespace Sys2Proof

/-- A command word or an event word (R80, R95). -/
abbrev Word := BitVec 64

/-- A control and status register's value (R7, CSR_W). -/
abbrev CsrWord := BitVec 32

/-- A timestamp: an unsigned tick count (R7, TIME_W; R16). -/
abbrev Time := BitVec 48

/-- Eight unsigned bits (R16). -/
abbrev Byte := BitVec 8

end Sys2Proof
end

