-- ==== Sys2Proof/Syntax.lean ====
section
/-! DEFINITION. The commands of the block, one constructor per row of the opcode table
(30_encoding.md R81), and the enumerations their fields name. -/

namespace Sys2Proof

/-- The two input channels (00_scope.md R7): channel 0 is A, channel 1 is B. -/
inductive Channel where
  /-- Channel 0, the primary line. -/
  | a
  /-- Channel 1, the companion line. -/
  | b
  deriving DecidableEq, Repr, Inhabited

/-- The quantized level of a channel (00_scope.md R16), in the order Low < Mid < High. -/
inductive Level where
  | low
  | mid
  | high
  deriving DecidableEq, Repr, Inhabited

/-- Which channel originated a byte (00_scope.md R16). -/
inductive Direction where
  /-- The document's "A→B". -/
  | fromA
  /-- The document's "B→A". -/
  | fromB
  deriving DecidableEq, Repr, Inhabited

/-- The eight command formats (30_encoding.md R82). -/
inductive Format where
  | z | c | s | q | b | i | rr | rw
  deriving DecidableEq, Repr

/-- The eleven commands (30_encoding.md R81) with the fields of their formats (R82, R83). The level of
a SAMPLE stays two raw bits: its code 0b11 decodes, and the command's own rule refuses it (R85, R114). -/
inductive Instr where
  | nop
  | sample (ch : Channel) (lvl : BitVec 2) (time : Time)
  | close (ch : Channel)
  | query (ch : Channel) (time : Time)
  | decode
  | asmByte (dir : Direction) (value : Byte) (time : Time)
  | asmClear
  | edgeRd (ch : Channel) (index : BitVec 32)
  | csrRd (csr : BitVec 8)
  | csrWr (csr : BitVec 8) (data : CsrWord)
  | clear
  deriving DecidableEq, Repr

/-- Why a command word is no command (30_encoding.md R85). -/
inductive DecodeReject where
  /-- The opcode field is 0xB to 0xF. -/
  | illegalOp
  /-- A must-be-zero bit of the format is 1. -/
  | rsvdNonzero
  deriving DecidableEq, Repr

end Sys2Proof
end

