-- ==== Sys2Proof/Config.lean ====
section
/-! DEFINITION. What the spec fixes as a parameter of the block (00_scope.md R7), and the free values:
constants without a body, about which nothing can be proved (logs 3 and 4). -/

namespace Sys2Proof.Config

/-- The identification constant (10_state.md R30). -/
def idValue : CsrWord := 0x4D430001#32

/-- Positions of the payload buffer (00_scope.md R7, MAX_PAYLOAD; 20_memory.md R60). -/
def maxPayload : Nat := 255

/-- The least legal EDGE_DEPTH (00_scope.md R8). -/
def minEdgeDepth : Nat := 2

/-- DESIGN CHOICE (log 1): the EDGE_DEPTH of `State.reset`, which the spec leaves open; it is the value
under which 95_test_vectors.md states its vectors. Every statement ranges over all depths. -/
def resetEdgeDepth : CsrWord := 1024#32

/-- The time an entry of an edge memory reads as when nothing has been written to it since the last
CLEAR or reset (20_memory.md R61): free. Arguments: the clear count, the channel, the index. -/
opaque freeEdgeTime : Nat → Channel → Nat → Time

/-- The level such an entry reads as: free. -/
opaque freeEdgeLevel : Nat → Channel → Nat → Level

/-- What a position of the payload buffer reads as when nothing has been written to it (10_state.md
R28, R53): free. Arguments: the clear count, the position. -/
opaque freePayloadByte : Nat → Nat → Byte

/-- What CLEAR leaves in `lastTime` (45_control.md R209, "become unspecified"): free. -/
opaque freeLastTime : Nat → Channel → Time

/-- What CLEAR leaves in `lastLevel`: free. -/
opaque freeLastLevel : Nat → Channel → Level

/-- What CLEAR leaves in `prevRec`: free. -/
opaque freePrevRec : Nat → Channel → Bool

end Sys2Proof.Config
end

