-- ==== Sys2Proof/Machine/CsrMap.lean ====
section
/-! DEFINITION. The control and status register map (10_state.md R29), the access classes (R51), the write
masks and legal values (45_control.md R207, R208), and the fields of CTRL, FRAMING and MARKERn. -/

namespace Sys2Proof.Machine

/-- The 27 mapped registers (R29). -/
inductive Csr where
  | id
  | ctrl
  | bitTicks
  | framing
  | endMarker
  | marker (n : Fin 8)
  | status
  | isr
  | ier
  | lastErr
  | edgeCount (ch : Channel)
  | bytesScanned
  | framesFound
  | framesDropped
  | resyncDiscards
  | bytesDecoded
  | ambigCount
  | bit0Count
  | edgeDepth
  deriving DecidableEq, Repr

/-- The access classes (R51). -/
inductive Access where
  | ro
  | rw
  | rw1c
  deriving DecidableEq, Repr

/-- The register at an index, `none` where the index is unmapped (R29, R49). -/
def csrOfIndex (i : BitVec 8) : Option Csr :=
  match i.toNat with
  | 0x00 => some .id
  | 0x01 => some .ctrl
  | 0x02 => some .bitTicks
  | 0x03 => some .framing
  | 0x04 => some .endMarker
  | 0x08 => some (.marker 0)
  | 0x09 => some (.marker 1)
  | 0x0A => some (.marker 2)
  | 0x0B => some (.marker 3)
  | 0x0C => some (.marker 4)
  | 0x0D => some (.marker 5)
  | 0x0E => some (.marker 6)
  | 0x0F => some (.marker 7)
  | 0x10 => some .status
  | 0x11 => some .isr
  | 0x12 => some .ier
  | 0x13 => some .lastErr
  | 0x14 => some (.edgeCount .a)
  | 0x15 => some (.edgeCount .b)
  | 0x16 => some .bytesScanned
  | 0x17 => some .framesFound
  | 0x18 => some .framesDropped
  | 0x19 => some .resyncDiscards
  | 0x1A => some .bytesDecoded
  | 0x1B => some .ambigCount
  | 0x1C => some .bit0Count
  | 0x1D => some .edgeDepth
  | _ => none

/-- The index of a register (R29). -/
def csrIndex : Csr → BitVec 8
  | .id => 0x00#8
  | .ctrl => 0x01#8
  | .bitTicks => 0x02#8
  | .framing => 0x03#8
  | .endMarker => 0x04#8
  | .marker n => 0x08#8 + BitVec.ofNat 8 n.val
  | .status => 0x10#8
  | .isr => 0x11#8
  | .ier => 0x12#8
  | .lastErr => 0x13#8
  | .edgeCount .a => 0x14#8
  | .edgeCount .b => 0x15#8
  | .bytesScanned => 0x16#8
  | .framesFound => 0x17#8
  | .framesDropped => 0x18#8
  | .resyncDiscards => 0x19#8
  | .bytesDecoded => 0x1A#8
  | .ambigCount => 0x1B#8
  | .bit0Count => 0x1C#8
  | .edgeDepth => 0x1D#8

/-- The access class of a register (R29, R51). -/
def csrAccess : Csr → Access
  | .ctrl | .bitTicks | .framing | .endMarker | .marker _ | .ier => .rw
  | .isr => .rw1c
  | .id | .status | .lastErr | .edgeCount _ | .bytesScanned | .framesFound | .framesDropped
  | .resyncDiscards | .bytesDecoded | .ambigCount | .bit0Count | .edgeDepth => .ro

/-- The defined bits of CTRL (R31, R207). -/
def ctrlMask : CsrWord := 0x00000007#32

/-- The defined bits of FRAMING (R33, R207). -/
def framingMask : CsrWord := 0xFFFF00FF#32

/-- The defined bits of END_MARKER (R34, R207). -/
def endMarkerMask : CsrWord := 0x000000FF#32

/-- The defined bits of MARKERn (R35, R207). -/
def markerMask : CsrWord := 0x80000FFF#32

/-- The defined bits of ISR and IER (R37, R38, R207). -/
def isrMask : CsrWord := 0x000001FF#32

/-- The defined bits of LAST_ERR (R39). -/
def lastErrMask : CsrWord := 0x00000FFF#32

/-- FRAMING.DATA_BITS (R33). -/
def framingDataBits (f : CsrWord) : BitVec 4 := f.extractLsb' 0 4

/-- FRAMING.STOP_SHORT (R33). -/
def framingStopShort (f : CsrWord) : BitVec 2 := f.extractLsb' 4 2

/-- FRAMING.STOP_LONG (R33). -/
def framingStopLong (f : CsrWord) : BitVec 2 := f.extractLsb' 6 2

/-- FRAMING.RESYNC_BP (R33). -/
def framingResyncBp (f : CsrWord) : BitVec 16 := f.extractLsb' 16 16

/-- CTRL.BYTE_EV_EN (R31). -/
def ctrlByteEvEn (c : CsrWord) : Bool := c.getLsbD 0

/-- CTRL.FRAME_EV_EN (R31). -/
def ctrlFrameEvEn (c : CsrWord) : Bool := c.getLsbD 1

/-- CTRL.ERR_EV_EN (R31). -/
def ctrlErrEvEn (c : CsrWord) : Bool := c.getLsbD 2

/-- MARKERn.MARKER (R35). -/
def markerByte (m : CsrWord) : Byte := m.extractLsb' 0 8

/-- MARKERn.TYPE (R35). -/
def markerType (m : CsrWord) : BitVec 4 := m.extractLsb' 8 4

/-- MARKERn.VALID (R35). -/
def markerValid (m : CsrWord) : Bool := m.getLsbD 31

/-- FRAMING's DATA_BITS is one of 1 to 8 (R33, R208). -/
def framingLegal (d : CsrWord) : Bool :=
  decide (1 ≤ (framingDataBits d).toNat) && decide ((framingDataBits d).toNat ≤ 8)

/-- The legal written values (R208). -/
def csrLegal (r : Csr) (d : CsrWord) : Bool :=
  match r with
  | .bitTicks => decide (d ≠ 0#32)
  | .framing => framingLegal d
  | _ => true

end Sys2Proof.Machine
end

