-- ==== Sys2Proof/WellFormed.lean ====
section
/-! DEFINITION. The checks that the command word alone decides (60_exceptions.md R225, steps that read no
channel, assembler or register state). A command that fails one of them still decodes and executes: it
runs the error procedure (R85, R223). -/

namespace Sys2Proof

/-- SAMPLE's level code is a Level (40_level_quantizer.md R114). -/
abbrev levelCodeWellFormed (lvl : BitVec 2) : Bool := decide (lvl ≠ 3#2)

/-- The register index is mapped (10_state.md R49). -/
abbrev csrIndexWellFormed (i : BitVec 8) : Bool := (Machine.csrOfIndex i).isSome

/-- The register at the index can be written (10_state.md R51). -/
abbrev csrWritableWellFormed (i : BitVec 8) : Bool :=
  match Machine.csrOfIndex i with
  | some r => decide (Machine.csrAccess r ≠ .ro)
  | none => false

/-- The written value is legal for the register at the index (45_control.md R208). -/
abbrev csrValueWellFormed (i : BitVec 8) (d : CsrWord) : Bool :=
  match Machine.csrOfIndex i with
  | some r => Machine.csrLegal r d
  | none => false

/-- No check that the command word alone decides refuses the command. -/
def Instr.wellFormed : Instr → Bool
  | .nop => true
  | .sample _ lvl _ => levelCodeWellFormed lvl
  | .close _ => true
  | .query _ _ => true
  | .decode => true
  | .asmByte _ _ _ => true
  | .asmClear => true
  | .edgeRd _ _ => true
  | .csrRd i => csrIndexWellFormed i
  | .csrWr i d => csrIndexWellFormed i && csrWritableWellFormed i && csrValueWellFormed i d
  | .clear => true

end Sys2Proof
end

