-- ==== Sys2Proof/Decode.lean ====
section
/-! DEFINITION. The decoder (30_encoding.md R80 to R86), the encoder written from the same tables (R81,
R82), and the byte order in which a host moves a word (20_memory.md R67). -/

namespace Sys2Proof

/-! ### Enumeration codes (30_encoding.md R105) -/

/-- CH: 0 is channel A, 1 is channel B (R83). -/
def Channel.bit : Channel → BitVec 1
  | .a => 0#1
  | .b => 1#1

/-- The channel a CH bit names (R83). -/
def channelOfBit (b : BitVec 1) : Channel := if b = 0#1 then .a else .b

/-- DIR: 0 is FromA, 1 is FromB (R83). -/
def Direction.bit : Direction → BitVec 1
  | .fromA => 0#1
  | .fromB => 1#1

/-- The direction a DIR bit names (R83). -/
def directionOfBit (b : BitVec 1) : Direction := if b = 0#1 then .fromA else .fromB

/-- The level's code (40_level_quantizer.md R110). -/
def Level.code : Level → BitVec 2
  | .low => 0b00#2
  | .mid => 0b01#2
  | .high => 0b10#2

/-- The level a code names; 0b11 is reserved (40_level_quantizer.md R110, R114). -/
def levelOfCode (c : BitVec 2) : Option Level :=
  if c = 0b00#2 then some .low
  else if c = 0b01#2 then some .mid
  else if c = 0b10#2 then some .high
  else none

/-! ### Fields of a command word (R82, R83) -/

/-- OP, bits 63 to 60. -/
def wordOp (w : Word) : BitVec 4 := w.extractLsb' 60 4

/-- CH, bit 59. -/
def wordCh (w : Word) : Channel := channelOfBit (w.extractLsb' 59 1)

/-- DIR, bit 59. -/
def wordDir (w : Word) : Direction := directionOfBit (w.extractLsb' 59 1)

/-- LVL, bits 58 to 57. -/
def wordLvl (w : Word) : BitVec 2 := w.extractLsb' 57 2

/-- VALUE, bits 55 to 48. -/
def wordValue (w : Word) : Byte := w.extractLsb' 48 8

/-- TIME, bits 47 to 0. -/
def wordTime (w : Word) : Time := w.extractLsb' 0 48

/-- CSR, bits 39 to 32. -/
def wordCsr (w : Word) : BitVec 8 := w.extractLsb' 32 8

/-- INDEX, bits 31 to 0. -/
def wordIndex (w : Word) : BitVec 32 := w.extractLsb' 0 32

/-- DATA, bits 31 to 0. -/
def wordData (w : Word) : CsrWord := w.extractLsb' 0 32

/-! ### Formats and must-be-zero masks (R81, R84) -/

/-- The format of an opcode, `none` for 0xB to 0xF (R81). -/
def formatOfOp (op : BitVec 4) : Option Format :=
  match op.toNat with
  | 0x0 => some .z
  | 0x1 => some .s
  | 0x2 => some .c
  | 0x3 => some .q
  | 0x4 => some .z
  | 0x5 => some .b
  | 0x6 => some .z
  | 0x7 => some .i
  | 0x8 => some .rr
  | 0x9 => some .rw
  | 0xA => some .z
  | _ => none

/-- The reserved mask of a format (R84). -/
def rsvMask : Format → Word
  | .z => 0x0FFFFFFFFFFFFFFF#64
  | .c => 0x07FFFFFFFFFFFFFF#64
  | .s => 0x01FF000000000000#64
  | .q => 0x07FF000000000000#64
  | .b => 0x0700000000000000#64
  | .i => 0x07FFFFFF00000000#64
  | .rr => 0x0FFFFF00FFFFFFFF#64
  | .rw => 0x0FFFFF0000000000#64

/-- The command that a legal opcode and the fields of the word name (R81); `none` for 0xB to 0xF. -/
def instrOfFields (w : Word) : Option Instr :=
  match (wordOp w).toNat with
  | 0x0 => some .nop
  | 0x1 => some (.sample (wordCh w) (wordLvl w) (wordTime w))
  | 0x2 => some (.close (wordCh w))
  | 0x3 => some (.query (wordCh w) (wordTime w))
  | 0x4 => some .decode
  | 0x5 => some (.asmByte (wordDir w) (wordValue w) (wordTime w))
  | 0x6 => some .asmClear
  | 0x7 => some (.edgeRd (wordCh w) (wordIndex w))
  | 0x8 => some (.csrRd (wordCsr w))
  | 0x9 => some (.csrWr (wordCsr w) (wordData w))
  | 0xA => some .clear
  | _ => none

/-- The decode function (R85): the opcode is checked first, then the must-be-zero bits. Total on every
64-bit word. -/
def decode (w : Word) : Except DecodeReject Instr :=
  match formatOfOp (wordOp w) with
  | none => .error .illegalOp
  | some fmt =>
    if w &&& rsvMask fmt ≠ 0#64 then .error .rsvdNonzero
    else
      match instrOfFields w with
      | none => .error .illegalOp
      | some i => .ok i

/-! ### The encoder (R81, R82) -/

/-- The opcode of a command (R81). -/
def Instr.op : Instr → BitVec 4
  | .nop => 0x0#4
  | .sample _ _ _ => 0x1#4
  | .close _ => 0x2#4
  | .query _ _ => 0x3#4
  | .decode => 0x4#4
  | .asmByte _ _ _ => 0x5#4
  | .asmClear => 0x6#4
  | .edgeRd _ _ => 0x7#4
  | .csrRd _ => 0x8#4
  | .csrWr _ _ => 0x9#4
  | .clear => 0xA#4

/-- The format of a command (R81). -/
def Instr.format : Instr → Format
  | .nop => .z
  | .sample _ _ _ => .s
  | .close _ => .c
  | .query _ _ => .q
  | .decode => .z
  | .asmByte _ _ _ => .b
  | .asmClear => .z
  | .edgeRd _ _ => .i
  | .csrRd _ => .rr
  | .csrWr _ _ => .rw
  | .clear => .z

/-- The word of a command, fields from the most significant down (R82 and the encoding lines of R121,
R126, R144, R145, R165, R191, R192, R205, R206, R207, R209). -/
def encode : Instr → Word
  | .nop => 0x0#4 ++ 0#60
  | .sample ch lvl t => 0x1#4 ++ ch.bit ++ lvl ++ 0#9 ++ t
  | .close ch => 0x2#4 ++ ch.bit ++ 0#59
  | .query ch t => 0x3#4 ++ ch.bit ++ 0#11 ++ t
  | .decode => 0x4#4 ++ 0#60
  | .asmByte dir v t => 0x5#4 ++ dir.bit ++ 0#3 ++ v ++ t
  | .asmClear => 0x6#4 ++ 0#60
  | .edgeRd ch k => 0x7#4 ++ ch.bit ++ 0#27 ++ k
  | .csrRd i => 0x8#4 ++ 0#20 ++ i ++ 0#32
  | .csrWr i d => 0x9#4 ++ 0#20 ++ i ++ d
  | .clear => 0xA#4 ++ 0#60

/-! ### Words as bytes outside the block (20_memory.md R67) -/

/-- A word as the eight bytes in which a host moves it: byte 0 is bits 7 to 0. -/
def bytesOfWord (w : Word) : List Byte :=
  [w.extractLsb' 0 8, w.extractLsb' 8 8, w.extractLsb' 16 8, w.extractLsb' 24 8,
   w.extractLsb' 32 8, w.extractLsb' 40 8, w.extractLsb' 48 8, w.extractLsb' 56 8]

/-- The word that the next eight bytes carry, and the bytes after them; `none` while fewer than eight
have come. -/
def wordOfBytes : List Byte → Option (Word × List Byte)
  | b0 :: b1 :: b2 :: b3 :: b4 :: b5 :: b6 :: b7 :: rest =>
    some (b7 ++ b6 ++ b5 ++ b4 ++ b3 ++ b2 ++ b1 ++ b0, rest)
  | _ => none

/-- A register value as the four bytes in which a host moves it (R67). -/
def bytesOfCsrWord (d : CsrWord) : List Byte :=
  [d.extractLsb' 0 8, d.extractLsb' 8 8, d.extractLsb' 16 8, d.extractLsb' 24 8]

/-- The decoder over bytes: total on any list of bytes, `none` while no whole word has come. -/
def decodeBytes (bs : List Byte) : Option (Except DecodeReject Instr × List Byte) :=
  match wordOfBytes bs with
  | some (w, rest) => some (decode w, rest)
  | none => none

/-- The instruction the decoder reads from a command whose bits are `w`, of which the opcode table gives
the low `nbits` and every bit above is 0. A command is one 64-bit word (R80). -/
def decodeTableWord (nbits w : Nat) : Option Instr :=
  match decode (BitVec.ofNat 64 (w % 2 ^ nbits)) with
  | .ok i => some i
  | .error _ => none

end Sys2Proof
end

