-- ==== Sys2Proof/Machine/State.lean ====
section
/-! DEFINITION. The whole state of the block as plain data (10_state.md R24), the reasons a step can stop,
and the state after reset (10_state.md R53, 70_reset_and_hazards.md R251). -/

namespace Sys2Proof.Machine

/-- A memory of one of the block's index spaces (20_memory.md R60): pairs of an index and what stands
there, the indices strictly rising. An index that is not listed has not been written since the memory
was last cleared (log 3). -/
abbrev Cells (α : Type) := List (Nat × α)

/-- One entry of an edge memory (20_memory.md R61). -/
structure Edge where
  time : Time
  level : Level
  deriving DecidableEq, Repr

/-- A channel's lifecycle state (10_state.md R26). -/
inductive ChanState where
  /-- EMPTY: no sample accepted yet. -/
  | empty
  /-- OPEN: at least one sample accepted. -/
  | open_
  /-- CLOSED: the edge list is final and read-only. -/
  | closed
  /-- FAILED: the channel's pipeline run has failed. -/
  | failed
  deriving DecidableEq, Repr

/-- A channel's record (10_state.md R25) with its edge memory (20_memory.md R61). -/
structure Chan where
  state : ChanState
  /-- Number of valid entries, EDGE_COUNTc. -/
  count : BitVec 32
  /-- Time of the most recent accepted sample. -/
  lastTime : Time
  /-- Level of the most recent accepted sample. -/
  lastLevel : Level
  /-- The most recent accepted sample is the most recently recorded entry. -/
  prevRec : Bool
  /-- E[c]. -/
  edges : Cells Edge
  deriving DecidableEq, Repr

/-- The assembler's states (10_state.md R28). -/
inductive AsmState where
  | idle
  | len
  | data
  | sum
  | end_
  deriving DecidableEq, Repr

/-- The assembler record (10_state.md R28) with its payload buffer (20_memory.md R64). -/
structure Asm where
  state : AsmState
  /-- A byte has been processed since the last assembler clear. -/
  havePrev : Bool
  prevTime : Time
  prevDir : Direction
  fMarker : Byte
  fType : BitVec 4
  /-- Byte index of the start marker. -/
  fStart : BitVec 32
  fLen : Byte
  /-- Payload bytes received. -/
  fCount : Byte
  fSum : Byte
  /-- The payload buffer, positions 0 to 254. -/
  fData : Cells Byte
  deriving DecidableEq, Repr

/-- What the host does at the ports next (10_state.md R21, R22; log 6). -/
inductive PortInput where
  /-- A command word moves on the command stream. -/
  | command (w : Word)
  /-- The host is ready for one event word (evt_ready); it moves if one is offered. -/
  | takeEvent
  /-- The host asserts rst (70_reset_and_hazards.md R250). -/
  | reset
  deriving DecidableEq, Repr

/-- The state (10_state.md R24): the channels and the assembler, the control registers (R31 to R35, R38), the
status and counter registers (R36 to R48), the event sequence, and the model's own port bookkeeping. -/
structure State where
  ch0 : Chan
  ch1 : Chan
  asm : Asm
  /-- CTRL (R31). -/
  ctrl : CsrWord
  /-- BIT_TICKS (R32). -/
  bitTicks : CsrWord
  /-- FRAMING (R33). -/
  framing : CsrWord
  /-- END_MARKER (R34). -/
  endMarker : CsrWord
  /-- MARKER0 to MARKER7 (R35). -/
  markers : Vector CsrWord 8
  /-- ISR (R37). -/
  isr : CsrWord
  /-- IER (R38). -/
  ier : CsrWord
  /-- LAST_ERR (R39). -/
  lastErr : CsrWord
  /-- BYTES_SCANNED (R41). -/
  bytesScanned : CsrWord
  /-- FRAMES_FOUND (R42). -/
  framesFound : CsrWord
  /-- FRAMES_DROPPED (R43). -/
  framesDropped : CsrWord
  /-- RESYNC_DISCARDS (R44). -/
  resyncDiscards : CsrWord
  /-- BYTES_DECODED (R46). -/
  bytesDecoded : CsrWord
  /-- AMBIG_COUNT (R47). -/
  ambigCount : CsrWord
  /-- BIT0_COUNT (R48). -/
  bit0Count : CsrWord
  /-- EDGE_DEPTH, the block's parameter (00_scope.md R8, 10_state.md R50). Nothing writes it. -/
  edgeDepth : CsrWord
  /-- The events emitted since reset, oldest first (R24). -/
  out : List Word
  /-- How many of them the host has taken (R22; log 7). -/
  evtTaken : Nat
  /-- What the host does next (log 6). -/
  inputs : List PortInput
  /-- How many CLEARs have run: the argument of the free values (log 4). -/
  freeCount : Nat
  deriving DecidableEq, Repr

/-- Why the machine stops. Neither is an error of the spec, whose errors are next states (R223): each is an
access to an index that the spec says does not exist, and no run from reset reaches one (R62, R64). -/
inductive Fault where
  /-- Raised by EdgeAppend at an index at or above EDGE_DEPTH (20_memory.md R62: never called so). Safe: the
  machine stops where the spec gives no effect. -/
  | edgeIndexOutsideMemory
  /-- Raised by the assembler's Data transition at a position at or above 255 (20_memory.md R64: cannot
  happen). Safe: the machine stops where the spec gives no effect. -/
  | payloadPositionOutsideBuffer
  deriving DecidableEq, Repr

/-- Why the model gives an instruction no meaning. -/
inductive Refusal where
  /-- The instruction's meaning has not been written. Raised by no arm: every command is modelled. Safe. -/
  | notModelled (mnemonic : String)
  deriving DecidableEq, Repr

/-- A channel right after reset (R53); lastTime, lastLevel and prevRec are DESIGN CHOICE (log 2). -/
def Chan.reset : Chan :=
  { state := .empty
    count := 0#32
    lastTime := 0#48
    lastLevel := .low
    prevRec := false
    edges := [] }

/-- The assembler right after reset (R53); all but `state` and `havePrev` are DESIGN CHOICE (log 2). -/
def Asm.reset : Asm :=
  { state := .idle
    havePrev := false
    prevTime := 0#48
    prevDir := .fromA
    fMarker := 0#8
    fType := 0#4
    fStart := 0#32
    fLen := 0#8
    fCount := 0#8
    fSum := 0#8
    fData := [] }

/-- The machine right after reset (R53, R251), waiting for its first command (R254). EDGE_DEPTH is DESIGN
CHOICE (log 1). -/
def State.reset : State :=
  { ch0 := Chan.reset
    ch1 := Chan.reset
    asm := Asm.reset
    ctrl := 0x00000007#32
    bitTicks := 0#32
    framing := 0x00640098#32
    endMarker := 0x00000003#32
    markers := #v[0x80000001#32, 0x80000102#32, 0#32, 0#32, 0#32, 0#32, 0#32, 0#32]
    isr := 0#32
    ier := 0#32
    lastErr := 0#32
    bytesScanned := 0#32
    framesFound := 0#32
    framesDropped := 0#32
    resyncDiscards := 0#32
    bytesDecoded := 0#32
    ambigCount := 0#32
    bit0Count := 0#32
    edgeDepth := Config.resetEdgeDepth
    out := []
    evtTaken := 0
    inputs := []
    freeCount := 0 }

end Sys2Proof.Machine
end

