-- ==== Sys2Proof/Machine/Flags.lean ====
section
/-! DEFINITION. Error codes (60_exceptions.md R221), the interrupt status bits and the irq line (10_state.md R37,
60_exceptions.md R229), the STATUS register (10_state.md R36) and counter arithmetic (10_state.md R45). -/

namespace Sys2Proof.Machine

/-- The command errors (R221). -/
inductive ErrCode where
  | illegalOp
  | rsvdNonzero
  | badLevel
  | chNotOpen
  | outOfOrder
  | emptyChannel
  | edgeOverflow
  | notReady
  | notConfigured
  | badCsr
  | csrReadOnly
  | badCsrValue
  | indexRange
  | asmTimeOrder
  deriving DecidableEq, Repr

/-- CODE (R221). -/
def errCode : ErrCode → Byte
  | .illegalOp => 0x01#8
  | .rsvdNonzero => 0x02#8
  | .badLevel => 0x03#8
  | .chNotOpen => 0x04#8
  | .outOfOrder => 0x05#8
  | .emptyChannel => 0x06#8
  | .edgeOverflow => 0x07#8
  | .notReady => 0x08#8
  | .notConfigured => 0x09#8
  | .badCsr => 0x0A#8
  | .csrReadOnly => 0x0B#8
  | .badCsrValue => 0x0C#8
  | .indexRange => 0x0D#8
  | .asmTimeOrder => 0x0E#8

/-- The error of a word that is no command (30_encoding.md R85). -/
def errOfReject : DecodeReject → ErrCode
  | .illegalOp => .illegalOp
  | .rsvdNonzero => .rsvdNonzero

/-- The value LAST_ERR takes: OP in bits 11 to 8, CODE in bits 7 to 0 (R39, R223). -/
def lastErrValue (op : BitVec 4) (code : Byte) : CsrWord := 0#20 ++ op ++ code

/-- The interrupt sources (R37, R230). -/
inductive IsrBit where
  | cmdErr
  | ch0Fail
  | ch1Fail
  | dirAmbig
  | bit0Viol
  | frameFound
  | frameDrop
  | resyncDiscard
  | decodeDone
  deriving DecidableEq, Repr

/-- The position of a source in ISR and IER (R37, R38). -/
def isrPos : IsrBit → Nat
  | .cmdErr => 0
  | .ch0Fail => 1
  | .ch1Fail => 2
  | .dirAmbig => 3
  | .bit0Viol => 4
  | .frameFound => 5
  | .frameDrop => 6
  | .resyncDiscard => 7
  | .decodeDone => 8

/-- ISR with one sticky bit set (R37). -/
def isrWith (isr : CsrWord) (b : IsrBit) : CsrWord := isr ||| (1#32 <<< isrPos b)

/-- Sets one sticky bit of ISR (R37). -/
def setIsr (b : IsrBit) (s : State) : State := { s with isr := isrWith s.isr b }

/-- The CHc_FAIL source of a channel (R224). -/
def chFailBit : Channel → IsrBit
  | .a => .ch0Fail
  | .b => .ch1Fail

/-- The irq line: the OR of ISR and IER over the nine sources (R229). -/
def irq (s : State) : Bool :=
  (List.range 9).any fun b => s.isr.getLsbD b && s.ier.getLsbD b

/-- A channel state's code (10_state.md R26). -/
def chanStateCode : ChanState → BitVec 2
  | .empty => 0#2
  | .open_ => 1#2
  | .closed => 2#2
  | .failed => 3#2

/-- An assembler state's code (10_state.md R28). -/
def asmStateCode : AsmState → BitVec 3
  | .idle => 0#3
  | .len => 1#3
  | .data => 2#3
  | .sum => 3#3
  | .end_ => 4#3

/-- The value of STATUS (R36). -/
def statusValue (s : State) : CsrWord :=
  0#24 ++ BitVec.ofBool s.asm.havePrev ++ asmStateCode s.asm.state ++ chanStateCode s.ch1.state
    ++ chanStateCode s.ch0.state

/-- A counter's increment: modulo 2^32 (R45). -/
def countUp (c : CsrWord) : CsrWord := c + 1#32

end Sys2Proof.Machine
end

