-- ==== Sys2Proof/Machine/Operands.lean ====
section
/-! DEFINITION. The event words (30_encoding.md R95 to R104) and the values of the control and status
registers (10_state.md R30 to R50, 45_control.md R206, R207). -/

namespace Sys2Proof.Machine

/-! ### Event words -/

/-- The events (R95) with the fields of their layouts. -/
inductive Event where
  | level (ch : Channel) (l : Level) (t : Time)
  | edge (ch : Channel) (e : Edge)
  | csrv (i : BitVec 8) (d : CsrWord)
  | byte (dir : Direction) (ambig b0 : Bool) (v : Byte) (t : Time)
  | frameHdr (type : BitVec 4) (marker len sum : Byte) (start : BitVec 32)
  | frameData (pos d : Byte)
  | frameEnd (endByte : Byte) (index : BitVec 32)
  | done (count : BitVec 32)
  | error (op : BitVec 4) (code : Byte) (detail : BitVec 48)
  deriving DecidableEq, Repr

/-- The word of an event, fields from the most significant down (R96 to R104). -/
def eventWord : Event → Word
  | .level ch l t => 0x1#4 ++ ch.bit ++ 0#9 ++ l.code ++ t
  | .edge ch e => 0x2#4 ++ ch.bit ++ 0#9 ++ e.level.code ++ e.time
  | .csrv i d => 0x3#4 ++ 0#20 ++ i ++ d
  | .byte dir ambig b0 v t =>
    0x4#4 ++ dir.bit ++ BitVec.ofBool ambig ++ BitVec.ofBool b0 ++ 0#1 ++ v ++ t
  | .frameHdr ty m len cs start => 0x5#4 ++ ty ++ m ++ len ++ cs ++ start
  | .frameData pos d => 0x6#4 ++ 0#44 ++ pos ++ d
  | .frameEnd e i => 0x7#4 ++ 0#20 ++ e ++ i
  | .done n => 0x8#4 ++ 0#28 ++ n
  | .error op code detail => 0xE#4 ++ op ++ code ++ detail

/-- TAG, bits 63 to 60 of an event word (R95). -/
def eventTag (w : Word) : BitVec 4 := w.extractLsb' 60 4

/-- The tags that some event carries: 0x1 to 0x8 and 0xE (R95). The others are reserved. -/
def tagAssigned (t : BitVec 4) : Bool :=
  (decide (1 ≤ t.toNat) && decide (t.toNat ≤ 8)) || decide (t = 0xE#4)

/-! ### Register values -/

/-- The record of a channel. -/
def State.chan (s : State) : Channel → Chan
  | .a => s.ch0
  | .b => s.ch1

/-- CSRvalue: what a CSR_RD of a mapped register reads, its reserved bits as 0 (R206). -/
def csrValue (s : State) : Csr → CsrWord
  | .id => Config.idValue
  | .ctrl => s.ctrl &&& ctrlMask
  | .bitTicks => s.bitTicks
  | .framing => s.framing &&& framingMask
  | .endMarker => s.endMarker &&& endMarkerMask
  | .marker n => s.markers[n] &&& markerMask
  | .status => statusValue s
  | .isr => s.isr &&& isrMask
  | .ier => s.ier &&& isrMask
  | .lastErr => s.lastErr &&& lastErrMask
  | .edgeCount c => (s.chan c).count
  | .bytesScanned => s.bytesScanned
  | .framesFound => s.framesFound
  | .framesDropped => s.framesDropped
  | .resyncDiscards => s.resyncDiscards
  | .bytesDecoded => s.bytesDecoded
  | .ambigCount => s.ambigCount
  | .bit0Count => s.bit0Count
  | .edgeDepth => s.edgeDepth

/-- What an accepted CSR_WR does (R207): a writable register takes the written value under its write mask,
ISR loses the bits written as 1, a read-only register keeps its value. -/
def csrStore (s : State) (r : Csr) (d : CsrWord) : State :=
  match r with
  | .ctrl => { s with ctrl := d &&& ctrlMask }
  | .bitTicks => { s with bitTicks := d }
  | .framing => { s with framing := d &&& framingMask }
  | .endMarker => { s with endMarker := d &&& endMarkerMask }
  | .marker n => { s with markers := s.markers.set n (d &&& markerMask) }
  | .isr => { s with isr := s.isr &&& ~~~(d &&& isrMask) }
  | .ier => { s with ier := d &&& isrMask }
  | .id | .status | .lastErr | .edgeCount _ | .bytesScanned | .framesFound | .framesDropped
  | .resyncDiscards | .bytesDecoded | .ambigCount | .bit0Count | .edgeDepth => s

/-- END_MARKER's terminator byte (10_state.md R34). -/
def endMarkerByte (s : State) : Byte := s.endMarker.extractLsb' 0 8

end Sys2Proof.Machine
end

