-- ==== Sys2Proof/Machine/Ops.lean ====
section
/-! DEFINITION. The shared operations: the memories, the event sequence, the error procedure (60_exceptions.md
R223, R224), the assembler clear (44_frame_assembler.md R192) and the ports. -/

namespace Sys2Proof.Machine

/-- What a step of the machine answers. -/
abbrev Result := Host.Outcome State Fault Refusal

/-- Goes on with `f` where `r` is a next state; a stop stays. -/
def andThen (r : Result) (f : State → Result) : Result :=
  match r with
  | .next s => f s
  | .fault e => .fault e
  | .refused e => .refused e

/-! ### The memories (20_memory.md R60) -/

/-- What stands at an index, `none` where nothing has been written. -/
def cellsRead {α : Type} : Cells α → Nat → Option α
  | [], _ => none
  | (j, x) :: rest, k => if j = k then some x else cellsRead rest k

/-- The memory after a write at an index; the indices stay strictly rising. -/
def cellsWrite {α : Type} : Cells α → Nat → α → Cells α
  | [], k, x => [(k, x)]
  | (j, y) :: rest, k, x =>
    if k < j then (k, x) :: (j, y) :: rest
    else if k = j then (k, x) :: rest
    else (j, y) :: cellsWrite rest k x

/-- The canonical form: the indices strictly rise. No unlisted index holds a value, so no listed one can
equal what an unlisted one reads as. -/
abbrev cellsWf {α : Type} (m : Cells α) : Prop := (m.map Prod.fst).Pairwise (· < ·)

/-- Every memory of the state is in canonical form. -/
abbrev Memory.wf (s : State) : Prop :=
  cellsWf s.ch0.edges ∧ cellsWf s.ch1.edges ∧ cellsWf s.asm.fData

/-- The state with a channel's record replaced. -/
def State.setChan (s : State) (c : Channel) (r : Chan) : State :=
  match c with
  | .a => { s with ch0 := r }
  | .b => { s with ch1 := r }

/-- `E[c][k]` (00_scope.md R15, 20_memory.md R61). An entry not written since the memory was last cleared reads
as a free value (log 3). -/
def edgeAt (s : State) (c : Channel) (k : Nat) : Edge :=
  match cellsRead (s.chan c).edges k with
  | some e => e
  | none => ⟨Config.freeEdgeTime s.freeCount c k, Config.freeEdgeLevel s.freeCount c k⟩

/-- `EdgeAppend(c, t, L)` (20_memory.md R62). An index at or above EDGE_DEPTH does not exist (R61): a fault,
which the callers' capacity checks keep away (R132; log 9). -/
def edgeAppend (c : Channel) (t : Time) (l : Level) (s : State) : Result :=
  if (s.chan c).count.toNat < s.edgeDepth.toNat then
    .next (s.setChan c { s.chan c with
      edges := cellsWrite (s.chan c).edges (s.chan c).count.toNat ⟨t, l⟩
      count := (s.chan c).count + 1#32 })
  else .fault .edgeIndexOutsideMemory

/-- `asm.fData[p]` (20_memory.md R64). A position not written since the buffer was last cleared reads as a free
value (log 3). -/
def payloadAt (s : State) (p : Nat) : Byte :=
  match cellsRead s.asm.fData p with
  | some d => d
  | none => Config.freePayloadByte s.freeCount p

/-- `asm.fData[p] <- v` (20_memory.md R64). A position at or above 255 does not exist: a fault (log 9). -/
def payloadWrite (p : Nat) (v : Byte) (s : State) : Result :=
  if p < Config.maxPayload then
    .next { s with asm := { s.asm with fData := cellsWrite s.asm.fData p v } }
  else .fault .payloadPositionOutsideBuffer

/-! ### Events and errors -/

/-- `Emit(tag, fields)`: appends the event's word to `out` (30_encoding.md R95). -/
def emit (e : Event) (s : State) : State := { s with out := s.out ++ [eventWord e] }

/-- `raise Error(code, w[47:0])` for the command word `w` (R223): the state the erring command leaves. -/
def raiseError (code : ErrCode) (w : Word) (s : State) : State :=
  let s := { s with lastErr := lastErrValue (wordOp w) (errCode code) }
  let s := setIsr .cmdErr s
  if ctrlErrEvEn s.ctrl then emit (.error (wordOp w) (errCode code) (w.extractLsb' 0 48)) s else s

/-- `ChannelFail(c, code, w)` (R224). -/
def channelFail (c : Channel) (code : ErrCode) (w : Word) (s : State) : State :=
  let s := s.setChan c { s.chan c with state := .failed }
  let s := setIsr (chFailBit c) s
  raiseError code w s

/-! ### Clearing -/

/-- `AsmClear()` (44_frame_assembler.md R192). The frame fields keep what they hold (log 17). -/
def asmClear (s : State) : State :=
  { s with
    asm := { s.asm with state := .idle, havePrev := false }
    bytesScanned := 0#32
    framesFound := 0#32
    framesDropped := 0#32
    resyncDiscards := 0#32 }

/-- The decoder counters at 0, as DECODE's start and CLEAR leave them (43_serial_decoder.md R165, 45_control.md
R209). -/
def decoderCountersClear (s : State) : State :=
  { s with bytesDecoded := 0#32, ambigCount := 0#32, bit0Count := 0#32 }

/-- A channel as CLEAR leaves it (45_control.md R209): EMPTY with count 0. lastTime, lastLevel and prevRec
"become unspecified": free values (log 4). The entries are unspecified too (70_reset_and_hazards.md R253):
nothing is listed (log 5). -/
def chanCleared (n : Nat) (c : Channel) : Chan :=
  { state := .empty
    count := 0#32
    lastTime := Config.freeLastTime n c
    lastLevel := Config.freeLastLevel n c
    prevRec := Config.freePrevRec n c
    edges := [] }

/-! ### The ports (10_state.md R21, R22) -/

/-- evt_valid: an event is offered. -/
def evtValid (s : State) : Bool := decide (s.evtTaken < s.out.length)

/-- evt_data: the oldest event not yet taken (20_memory.md R73). -/
def evtData (s : State) : Option Word := s.out[s.evtTaken]?

/-- The host is ready for one event: it moves if one is offered (R22). -/
def takeEvent (s : State) : State :=
  if evtValid s then { s with evtTaken := s.evtTaken + 1 } else s

/-- `Reset()` (70_reset_and_hazards.md R250, R251): every element takes its reset value. EDGE_DEPTH is constant
(R50), and what the host does next is not the block's to change. -/
def hostReset (s : State) : State :=
  { State.reset with
    edgeDepth := s.edgeDepth
    inputs := s.inputs
    freeCount := s.freeCount + 1 }

end Sys2Proof.Machine
end

