-- ==== Sys2Proof/Machine/Control.lean ====
section
/-! DEFINITION. The control commands NOP, CSR_RD, CSR_WR and CLEAR (45_control.md). -/

namespace Sys2Proof.Machine

/-- NOP (R205). -/
def execNop (s : State) : Result := .next s

/-- CSR_RD (R206). -/
def execCsrRd (i : BitVec 8) (s : State) : Result :=
  match csrOfIndex i with
  | none => .next (raiseError .badCsr (encode (.csrRd i)) s)
  | some r => .next (emit (.csrv i (csrValue s r)) s)

/-- CSR_WR (R207): the checks in the order BAD_CSR, CSR_READ_ONLY, BAD_CSR_VALUE, then the store. -/
def execCsrWr (i : BitVec 8) (d : CsrWord) (s : State) : Result :=
  match csrOfIndex i with
  | none => .next (raiseError .badCsr (encode (.csrWr i d)) s)
  | some r =>
    if csrAccess r = .ro then .next (raiseError .csrReadOnly (encode (.csrWr i d)) s)
    else if csrLegal r d = false then .next (raiseError .badCsrValue (encode (.csrWr i d)) s)
    else .next (csrStore s r d)

/-- CLEAR (R209): the datapath returns to its reset state, the configuration and `out` stay. -/
def execClear (s : State) : Result :=
  let s := { s with
    ch0 := chanCleared s.freeCount .a
    ch1 := chanCleared s.freeCount .b
    freeCount := s.freeCount + 1 }
  let s := decoderCountersClear (asmClear s)
  .next { s with isr := 0#32, lastErr := 0#32 }

end Sys2Proof.Machine
end

