-- ==== Sys2Proof/Machine/EdgeDetector.lean ====
section
/-! DEFINITION. The edge detector: SAMPLE and CLOSE (41_edge_detector.md). -/

namespace Sys2Proof.Machine

/-- The accepted sample becomes `(lastTime, lastLevel)`; `rec` says whether it is the most recently recorded
entry (R121, the last two lines; R25). -/
def noteSample (c : Channel) (l : Level) (t : Time) (recorded : Bool) (s : State) : State :=
  s.setChan c { s.chan c with
    state := .open_
    prevRec := recorded
    lastTime := t
    lastLevel := l }

/-- The first sample of a channel: always recorded (R122). -/
def sampleFirst (c : Channel) (l : Level) (t : Time) (s : State) : Result :=
  andThen (edgeAppend c t l s) fun s => .next (noteSample c l t true s)

/-- The entries a transition sample needs: one if the previous sample is recorded, else two (R121). -/
def transitionNeed (r : Chan) : Nat := if r.prevRec then 1 else 2

/-- The previous sample is appended unless it is the most recently recorded entry (R124, R126). -/
def recordLast (c : Channel) (s : State) : Result :=
  if (s.chan c).prevRec then .next s
  else edgeAppend c (s.chan c).lastTime (s.chan c).lastLevel s

/-- A sample whose level differs from the previous one's (R124), or EDGE_OVERFLOW before anything is recorded
(R132). -/
def sampleTransition (c : Channel) (l : Level) (t : Time) (w : Word) (s : State) : Result :=
  if s.edgeDepth.toNat < (s.chan c).count.toNat + transitionNeed (s.chan c) then
    .next (channelFail c .edgeOverflow w s)
  else
    andThen (recordLast c s) fun s =>
      andThen (edgeAppend c t l s) fun s => .next (noteSample c l t true s)

/-- A sample of an OPEN channel (R121): OUT_OF_ORDER (R125), the same level (R123) or a transition (R124). -/
def sampleOpen (c : Channel) (l : Level) (t : Time) (w : Word) (s : State) : Result :=
  if t.toNat ≤ (s.chan c).lastTime.toNat then .next (channelFail c .outOfOrder w s)
  else if l = (s.chan c).lastLevel then .next (noteSample c l t false s)
  else sampleTransition c l t w s

/-- SAMPLE (R121), for a level code that names a level. -/
def sampleLevel (c : Channel) (l : Level) (t : Time) (w : Word) (s : State) : Result :=
  match (s.chan c).state with
  | .closed => .next (raiseError .chNotOpen w s)
  | .failed => .next (raiseError .chNotOpen w s)
  | .empty => sampleFirst c l t s
  | .open_ => sampleOpen c l t w s

/-- SAMPLE (R121). -/
def execSample (c : Channel) (lvl : BitVec 2) (t : Time) (s : State) : Result :=
  match levelOfCode lvl with
  | none => .next (raiseError .badLevel (encode (.sample c lvl t)) s)
  | some l => sampleLevel c l t (encode (.sample c lvl t)) s

/-- The last sample is recorded and the channel is CLOSED (R126, the lines after the checks). -/
def closeFinish (c : Channel) (s : State) : Result :=
  andThen (recordLast c s) fun s =>
    .next (s.setChan c { s.chan c with prevRec := true, state := .closed })

/-- CLOSE of an OPEN channel (R126): EDGE_OVERFLOW where the last sample needs an entry that does not fit. -/
def closeOpen (c : Channel) (w : Word) (s : State) : Result :=
  if (s.chan c).prevRec = false ∧ s.edgeDepth.toNat < (s.chan c).count.toNat + 1 then
    .next (channelFail c .edgeOverflow w s)
  else closeFinish c s

/-- CLOSE (R126). -/
def execClose (c : Channel) (s : State) : Result :=
  match (s.chan c).state with
  | .closed => .next (raiseError .chNotOpen (encode (.close c)) s)
  | .failed => .next (raiseError .chNotOpen (encode (.close c)) s)
  | .empty => .next (channelFail c .emptyChannel (encode (.close c)) s)
  | .open_ => closeOpen c (encode (.close c)) s

end Sys2Proof.Machine
end

