-- ==== Sys2Proof/Machine/FrameAssembler.lean ====
section
/-! DEFINITION. The frame assembler: AsmStep, ASM_BYTE and ASM_CLEAR (44_frame_assembler.md). -/

namespace Sys2Proof.Machine

/-- An entry of the marker table takes part in the lookup of `v` (R181). -/
def markerMatches (m : CsrWord) (v : Byte) : Bool := markerValid m && decide (markerByte m = v)

/-- `lookup(v)`: the type of the smallest matching entry (R181). -/
def lookupMarker (s : State) (v : Byte) : Option (BitVec 4) :=
  (s.markers.toList.find? fun m => markerMatches m v).map markerType

/-- `tol`, exact (R182). -/
def resyncTolerance (s : State) : Nat := (framingResyncBp s.framing).toNat * s.bitTicks.toNat

/-- The previous byte forces a resync: the gap exceeds the tolerance, strictly, or the direction changed (R182).
The gap is compared without subtraction (log 18). -/
def resyncNeeded (t : Time) (dir : Direction) (s : State) : Bool :=
  s.asm.havePrev &&
    (decide (s.asm.prevTime.toNat + resyncTolerance s < t.toNat) || decide (dir ≠ s.asm.prevDir))

/-- The partial frame is discarded, and counted where there was one (R182). -/
def resyncDiscard (s : State) : State :=
  let s := if s.asm.state = .idle then s
    else setIsr .resyncDiscard { s with resyncDiscards := countUp s.resyncDiscards }
  { s with asm := { s.asm with state := .idle } }

/-- `Resync(t, dir)`, the guarded pre-transition (R182). -/
def resync (t : Time) (dir : Direction) (s : State) : State :=
  let s := if resyncNeeded t dir s then resyncDiscard s else s
  { s with asm := { s.asm with havePrev := true, prevTime := t, prevDir := dir } }

/-- Idle: a start marker opens a frame, any other byte is ignored (R184). -/
def asmIdle (v : Byte) (idx : BitVec 32) (s : State) : State :=
  match lookupMarker s v with
  | none => s
  | some ty =>
    { s with asm := { s.asm with fMarker := v, fType := ty, fStart := idx, state := .len } }

/-- Len: the declared data length (R185). -/
def asmLen (v : Byte) (s : State) : State :=
  { s with asm := { s.asm with
      fLen := v
      fCount := 0#8
      state := if v = 0#8 then .sum else .data } }

/-- The lines of Data after the byte is stored (R186). -/
def asmDataCount (s : State) : State :=
  { s with asm := { s.asm with
      fCount := s.asm.fCount + 1#8
      state := if s.asm.fCount + 1#8 = s.asm.fLen then .sum else s.asm.state } }

/-- Data: one payload byte (R186). -/
def asmData (v : Byte) (s : State) : Result :=
  andThen (payloadWrite s.asm.fCount.toNat v s) fun s => .next (asmDataCount s)

/-- Sum: the transmitted checksum (R188). -/
def asmSum (v : Byte) (s : State) : State :=
  { s with asm := { s.asm with fSum := v, state := .end_ } }

/-- The sum of the payload bytes at positions 0 to n-1. -/
def payloadSum (s : State) (n : Nat) : Nat :=
  ((List.range n).map fun p => (payloadAt s p).toNat).sum

/-- `checksumOK` of the frame being built (R187). -/
def checksumOK (s : State) : Bool :=
  decide ((s.asm.fLen.toNat + payloadSum s s.asm.fLen.toNat + s.asm.fSum.toNat) % 256 = 0)

/-- The events of a validated frame, in order (R190). -/
def frameEvents (s : State) (v : Byte) (idx : BitVec 32) : List Event :=
  [.frameHdr s.asm.fType s.asm.fMarker s.asm.fLen s.asm.fSum s.asm.fStart]
    ++ (List.range s.asm.fLen.toNat).map
        (fun p => .frameData (BitVec.ofNat 8 p) (payloadAt s p))
    ++ [.frameEnd v idx]

/-- `EmitFrame()` (R190). -/
def emitFrame (v : Byte) (idx : BitVec 32) (s : State) : State :=
  if ctrlFrameEvEn s.ctrl then (frameEvents s v idx).foldl (fun s e => emit e s) s else s

/-- End: the frame is validated, then emitted or dropped; either way back to Idle (R189). -/
def asmEnd (v : Byte) (idx : BitVec 32) (s : State) : State :=
  let s :=
    if v = endMarkerByte s ∧ checksumOK s = true then
      emitFrame v idx (setIsr .frameFound { s with framesFound := countUp s.framesFound })
    else setIsr .frameDrop { s with framesDropped := countUp s.framesDropped }
  { s with asm := { s.asm with state := .idle } }

/-- The transition of the byte with index `idx` (R193, the case distinction). -/
def asmTransition (v : Byte) (idx : BitVec 32) (s : State) : Result :=
  match s.asm.state with
  | .idle => .next (asmIdle v idx s)
  | .len => .next (asmLen v s)
  | .data => asmData v s
  | .sum => .next (asmSum v s)
  | .end_ => .next (asmEnd v idx s)

/-- `AsmStep(t, v, dir)` (R193): the resync, the byte index (R183), the transition. -/
def asmStep (t : Time) (v : Byte) (dir : Direction) (s : State) : Result :=
  let s := resync t dir s
  asmTransition v s.bytesScanned { s with bytesScanned := countUp s.bytesScanned }

/-- ASM_BYTE (R191). -/
def execAsmByte (dir : Direction) (v : Byte) (t : Time) (s : State) : Result :=
  if s.bitTicks = 0#32 then .next (raiseError .notConfigured (encode (.asmByte dir v t)) s)
  else if s.asm.havePrev = true ∧ t.toNat < s.asm.prevTime.toNat then
    .next (raiseError .asmTimeOrder (encode (.asmByte dir v t)) s)
  else asmStep t v dir s

/-- ASM_CLEAR (R192). -/
def execAsmClear (s : State) : Result := .next (asmClear s)

end Sys2Proof.Machine
end

