-- ==== Sys2Proof/Machine/LevelSampler.lean ====
section
/-! DEFINITION. The level sampler: the lookups, QUERY and EDGE_RD (42_level_sampler.md). -/

namespace Sys2Proof.Machine

/-- The level of the entry with the largest index below `n` that satisfies `p`; High where none does (R140,
R141). -/
def rightmostLevel (entry : Nat → Edge) (p : Edge → Bool) : Nat → Level
  | 0 => .high
  | n + 1 => if p (entry n) then (entry n).level else rightmostLevel entry p n

/-- `levelAt(c, t)` (R140). -/
def levelAt (s : State) (c : Channel) (t : Time) : Level :=
  rightmostLevel (edgeAt s c) (fun e => decide (e.time.toNat ≤ t.toNat)) (s.chan c).count.toNat

/-- `levelAtHalf(c, u)`: the lookup at the instant u/2 ticks (R141). -/
def levelAtHalf (s : State) (c : Channel) (u : Nat) : Level :=
  rightmostLevel (edgeAt s c) (fun e => decide (2 * e.time.toNat ≤ u)) (s.chan c).count.toNat

/-- QUERY (R144). -/
def execQuery (c : Channel) (t : Time) (s : State) : Result :=
  if (s.chan c).state ≠ .closed then .next (raiseError .notReady (encode (.query c t)) s)
  else .next (emit (.level c (levelAt s c t) t) s)

/-- EDGE_RD (R145). -/
def execEdgeRd (c : Channel) (k : BitVec 32) (s : State) : Result :=
  if (s.chan c).state ≠ .closed then .next (raiseError .notReady (encode (.edgeRd c k)) s)
  else if (s.chan c).count.toNat ≤ k.toNat then
    .next (raiseError .indexRange (encode (.edgeRd c k)) s)
  else .next (emit (.edge c (edgeAt s c k.toNat)) s)

end Sys2Proof.Machine
end

