-- ==== Sys2Proof/Machine/SerialDecoder.lean ====
section
/-! DEFINITION. The serial byte decoder and the direction selector: DECODE (43_serial_decoder.md). -/

namespace Sys2Proof.Machine

/-- The configuration a DECODE reads once at its start (R157). -/
structure DecodeCfg where
  /-- BT, the bit period in ticks. -/
  bt : Nat
  /-- DB, the data bits of a character. -/
  db : Nat
  /-- SS, the stop bits of a FromA character. -/
  ss : Nat
  /-- SL, the stop bits of a FromB character. -/
  sl : Nat
  deriving DecidableEq, Repr

/-- A decoded byte with its two flags (R164). -/
structure DecodedByte where
  start : Time
  value : Byte
  dir : Direction
  ambig : Bool
  b0 : Bool
  deriving DecidableEq, Repr

/-- The configuration as DECODE reads it (R157, R165). -/
def decodeCfg (s : State) : DecodeCfg :=
  { bt := s.bitTicks.toNat
    db := (framingDataBits s.framing).toNat
    ss := (framingStopShort s.framing).toNat
    sl := (framingStopLong s.framing).toNat }

/-- Entry k of channel 0 is a start-edge candidate, for k at least 1 (R158). -/
def startEdge (s : State) (k : Nat) : Bool :=
  decide ((edgeAt s .a (k - 1)).level = .high) && decide ((edgeAt s .a k).level ≠ .high)

/-- `u_i`, in half-ticks, exact (R160). -/
def sampleInstant (cfg : DecodeCfg) (start : Time) (i : Nat) : Nat :=
  2 * start.toNat + (2 * i + 3) * cfg.bt

/-- The value after the data bits 0 to n-1 (R161; the loop of R165). -/
def decodeValue (s : State) (cfg : DecodeCfg) (start : Time) : Nat → Byte
  | 0 => 0#8
  | n + 1 =>
    if levelAtHalf s .a (sampleInstant cfg start n) = .high then
      decodeValue s cfg start n ||| (1#8 <<< n)
    else decodeValue s cfg start n

/-- `dirSelect(0, lp, ls)`: the direction, AMBIG and B0 (R162). -/
def dirSelect (lp ls : Level) : Direction × Bool × Bool :=
  (if ls = .mid then .fromB else .fromA, decide (ls = .high), decide (lp = .high))

/-- The byte of the accepted candidate with start time `start` (R160 to R164). The direction is selected at the
bit-0 instant. -/
def decodeChar (s : State) (cfg : DecodeCfg) (start : Time) : DecodedByte :=
  let u0 := sampleInstant cfg start 0
  let sel := dirSelect (levelAtHalf s .a u0) (levelAtHalf s .b u0)
  { start := start
    value := decodeValue s cfg start cfg.db
    dir := sel.1
    ambig := sel.2.1
    b0 := sel.2.2 }

/-- `sb`: the stop bits of a direction (R163). -/
def stopBits (cfg : DecodeCfg) : Direction → Nat
  | .fromA => cfg.ss
  | .fromB => cfg.sl

/-- The scan cursor after a byte (R163). -/
def cursorAfter (cfg : DecodeCfg) (d : DecodedByte) : Nat :=
  d.start.toNat + (1 + cfg.db + stopBits cfg d.dir) * cfg.bt

/-- The counters and flags of one decoded byte (R166, the first three lines). -/
def byteCount (d : DecodedByte) (s : State) : State :=
  let s := { s with bytesDecoded := countUp s.bytesDecoded }
  let s := if d.ambig then setIsr .dirAmbig { s with ambigCount := countUp s.ambigCount } else s
  if d.b0 then setIsr .bit0Viol { s with bit0Count := countUp s.bit0Count } else s

/-- The BYTE event of one decoded byte (R166). -/
def byteEmit (d : DecodedByte) (s : State) : State :=
  if ctrlByteEvEn s.ctrl then emit (.byte d.dir d.ambig d.b0 d.value d.start) s else s

/-- `ByteOut(s, value, dir, ambig, b0)` (R166). -/
def byteOut (d : DecodedByte) (s : State) : Result :=
  asmStep d.start d.value d.dir (byteEmit d (byteCount d s))

/-- The walk over `n` more entries of channel 0 from index `k`, with the scan cursor (R165, the loop; R159). -/
def decodeWalk (cfg : DecodeCfg) : Nat → Nat → Nat → State → Result
  | 0, _, _, s => .next s
  | n + 1, k, cursor, s =>
    if startEdge s k = true ∧ cursor ≤ (edgeAt s .a k).time.toNat then
      let d := decodeChar s cfg (edgeAt s .a k).time
      andThen (byteOut d s) fun s => decodeWalk cfg n (k + 1) (cursorAfter cfg d) s
    else decodeWalk cfg n (k + 1) cursor s

/-- Completion: DONE, then ISR.DECODE_DONE (R167). -/
def decodeDone (s : State) : State :=
  setIsr .decodeDone (emit (.done s.bytesDecoded) s)

/-- DECODE after its checks (R165): the clears, the walk over k = 1 .. count-1 from cursor 0, the completion. -/
def decodeRun (s : State) : Result :=
  andThen (decodeWalk (decodeCfg s) (s.ch0.count.toNat - 1) 1 0 (decoderCountersClear (asmClear s)))
    fun s => .next (decodeDone s)

/-- DECODE (R165). -/
def execDecode (s : State) : Result :=
  if s.ch0.state ≠ .closed ∨ s.ch1.state ≠ .closed then
    .next (raiseError .notReady (encode .decode) s)
  else if s.bitTicks = 0#32 then .next (raiseError .notConfigured (encode .decode) s)
  else decodeRun s

end Sys2Proof.Machine
end

