-- ==== Sys2Proof/Machine/Dispatch.lean ====
section
/-! DEFINITION. One arm per command, each one call of the command's meaning. -/

namespace Sys2Proof.Machine

/-- What one command does to the state (10_state.md R23). -/
def exec (i : Instr) (s : State) : Host.Outcome State Fault Refusal :=
  match i with
  | .nop => Sys2Proof.Machine.execNop s
  | .sample ch lvl time => Sys2Proof.Machine.execSample ch lvl time s
  | .close ch => Sys2Proof.Machine.execClose ch s
  | .query ch time => Sys2Proof.Machine.execQuery ch time s
  | .decode => Sys2Proof.Machine.execDecode s
  | .asmByte dir value time => Sys2Proof.Machine.execAsmByte dir value time s
  | .asmClear => Sys2Proof.Machine.execAsmClear s
  | .edgeRd ch index => Sys2Proof.Machine.execEdgeRd ch index s
  | .csrRd csr => Sys2Proof.Machine.execCsrRd csr s
  | .csrWr csr data => Sys2Proof.Machine.execCsrWr csr data s
  | .clear => Sys2Proof.Machine.execClear s

end Sys2Proof.Machine
end

