-- ==== Sys2Proof/Machine/Fetch.lean ====
section
/-! DEFINITION. What each thing the host does at the ports makes the block do (10_state.md R21 to R23). -/

namespace Sys2Proof.Machine

/-- One command word: the decoded command executes, a word that is no command runs the error procedure
(30_encoding.md R85, 60_exceptions.md R223). -/
def runWord (w : Word) (s : State) : Result :=
  match decode w with
  | .ok i => exec i s
  | .error r => .next (raiseError (errOfReject r) w s)

/-- One thing the host does: a command word moves (R22), an event is taken (R22), or rst is asserted
(70_reset_and_hazards.md R250). -/
def runInput (p : PortInput) (s : State) : Result :=
  match p with
  | .command w => runWord w s
  | .takeEvent => .next (takeEvent s)
  | .reset => .next (hostReset s)

/-- With nothing offered the block is idle and its state does not change (60_exceptions.md R241). -/
def runIdle (s : State) : Result := .next s

/-- The word of a command whose bits are `w`, of which the low `nbits` are given and every bit above is 0. -/
def wordOfTable (nbits w : Nat) : Word := BitVec.ofNat 64 (w % 2 ^ nbits)

end Sys2Proof.Machine
end

