-- ==== Sys2Proof/Machine/Step.lean ====
section
/-! DEFINITION. One step of the block: the next thing the host does at the ports (00_scope.md R11, log 6). -/

namespace Sys2Proof.Machine

/-- The step: the block takes the next input and handles it completely before the one after it (10_state.md
R23, 20_memory.md R70). -/
def step (s : State) : Host.Outcome State Fault Refusal :=
  match s.inputs with
  | [] => runIdle s
  | p :: rest => runInput p { s with inputs := rest }

/-- The state in which the very next step takes the command whose bits are `w`, of which the opcode table gives
the low `nbits`: the host offers that word next. -/
def State.withFetchWord (s : State) (nbits w : Nat) : State :=
  { s with inputs := .command (wordOfTable nbits w) :: s.inputs }

end Sys2Proof.Machine
end

