-- ==== Sys2Proof/Machine/Assembler.lean ====
section
/-! DEFINITION. The written form of commands, outside the block: the mnemonic syntax (30_encoding.md R106) and the
pseudo-instructions (R107). Lines are lists of characters. Spacing, letter case and digit case are the
model's (log 16). -/

namespace Sys2Proof.Machine

/-! ### Pseudo-instructions (R107): each expands to exactly one command -/

/-- `SYNC`. -/
def pseudoSync : Instr := .csrRd (csrIndex .id)

/-- `SET_BIT_TICKS n`. -/
def pseudoSetBitTicks (n : CsrWord) : Instr := .csrWr (csrIndex .bitTicks) n

/-- `SET_FRAMING db, ss, sl, rbp`. -/
def pseudoSetFraming (db : BitVec 4) (ss sl : BitVec 2) (rbp : BitVec 16) : Instr :=
  .csrWr (csrIndex .framing)
    (rbp.setWidth 32 <<< 16 ||| sl.setWidth 32 <<< 6 ||| ss.setWidth 32 <<< 4 ||| db.setWidth 32)

/-- `SET_END m`. -/
def pseudoSetEnd (m : CsrWord) : Instr := .csrWr (csrIndex .endMarker) m

/-- `SET_MARKER n, m, ty`. -/
def pseudoSetMarker (n : Fin 8) (m : Byte) (ty : BitVec 4) : Instr :=
  .csrWr (csrIndex (.marker n)) (0x80000000#32 ||| ty.setWidth 32 <<< 8 ||| m.setWidth 32)

/-- `CLR_MARKER n`. -/
def pseudoClrMarker (n : Fin 8) : Instr := .csrWr (csrIndex (.marker n)) 0#32

/-- `IRQ_ACK mask`. -/
def pseudoIrqAck (mask : CsrWord) : Instr := .csrWr (csrIndex .isr) mask

/-- `IRQ_EN mask`. -/
def pseudoIrqEn (mask : CsrWord) : Instr := .csrWr (csrIndex .ier) mask

/-! ### Words of a line -/

/-- A word of a line, or the comma between two operands. -/
inductive AsmToken where
  | word (cs : List Char)
  | comma
  deriving DecidableEq, Repr

/-- The token that the characters gathered so far (in reverse) make, if any. -/
def flushWord : List Char → List AsmToken
  | [] => []
  | c :: cs => [.word (c :: cs).reverse]

/-- The tokens of a line: `;` starts a comment (R106), spaces and tabs separate. `acc` holds the word so far, in
reverse. -/
def lexLine : List Char → List Char → List AsmToken
  | [], acc => flushWord acc
  | c :: cs, acc =>
    if c = ';' then flushWord acc
    else if c = ',' then flushWord acc ++ .comma :: lexLine cs []
    else if c = ' ' ∨ c = '\t' then flushWord acc ++ lexLine cs []
    else lexLine cs (c :: acc)

/-- The operands of `operand, operand, ...`; `none` where a comma or an operand is missing. -/
def splitOperands : List AsmToken → Option (List (List Char))
  | [] => some []
  | [.word w] => some [w]
  | .word w :: .comma :: rest =>
    match rest with
    | [] => none
    | _ :: _ => (splitOperands rest).map (w :: ·)
  | _ => none

/-! ### Operands (R106) -/

/-- The value of a hexadecimal digit. -/
def digitValue (c : Char) : Option Nat :=
  let n := c.toNat
  if 48 ≤ n ∧ n ≤ 57 then some (n - 48)
  else if 65 ≤ n ∧ n ≤ 70 then some (n - 55)
  else if 97 ≤ n ∧ n ≤ 102 then some (n - 87)
  else none

/-- The digits `cs` in a base, after the value `acc`. -/
def parseDigits (base : Nat) : List Char → Nat → Option Nat
  | [], acc => some acc
  | c :: cs, acc =>
    match digitValue c with
    | some d => if d < base then parseDigits base cs (acc * base + d) else none
    | none => none

/-- A number: decimal, or `0x` hexadecimal. -/
def parseNumber : List Char → Option Nat
  | [] => none
  | '0' :: 'x' :: c :: cs => parseDigits 16 (c :: cs) 0
  | c :: cs => parseDigits 10 (c :: cs) 0

/-- A number that fits a field of `w` bits; any other is refused. -/
def parseField (w : Nat) (cs : List Char) : Option (BitVec w) :=
  match parseNumber cs with
  | some n => if n < 2 ^ w then some (BitVec.ofNat w n) else none
  | none => none

/-- A channel: `0` or `1`, or `A` or `B`. -/
def parseChannel (cs : List Char) : Option Channel :=
  if cs = ['0'] ∨ cs = ['A'] then some .a
  else if cs = ['1'] ∨ cs = ['B'] then some .b
  else none

/-- A direction: `A` or `B`. -/
def parseDirection (cs : List Char) : Option Direction :=
  if cs = ['A'] then some .fromA else if cs = ['B'] then some .fromB else none

/-- A level: `LOW`, `MID` or `HIGH`. -/
def parseLevel (cs : List Char) : Option Level :=
  if cs = ['L', 'O', 'W'] then some .low
  else if cs = ['M', 'I', 'D'] then some .mid
  else if cs = ['H', 'I', 'G', 'H'] then some .high
  else none

/-- A marker number, 0 to 7. -/
def parseMarkerNumber (cs : List Char) : Option (Fin 8) :=
  match parseNumber cs with
  | some n => if h : n < 8 then some ⟨n, h⟩ else none
  | none => none

/-- The register names (10_state.md R29), each as the spec writes it. -/
def csrNames : List (List Char × Csr) :=
  [(['I', 'D'], .id),
   (['C', 'T', 'R', 'L'], .ctrl),
   (['B', 'I', 'T', '_', 'T', 'I', 'C', 'K', 'S'], .bitTicks),
   (['F', 'R', 'A', 'M', 'I', 'N', 'G'], .framing),
   (['E', 'N', 'D', '_', 'M', 'A', 'R', 'K', 'E', 'R'], .endMarker),
   (['M', 'A', 'R', 'K', 'E', 'R', '0'], .marker 0),
   (['M', 'A', 'R', 'K', 'E', 'R', '1'], .marker 1),
   (['M', 'A', 'R', 'K', 'E', 'R', '2'], .marker 2),
   (['M', 'A', 'R', 'K', 'E', 'R', '3'], .marker 3),
   (['M', 'A', 'R', 'K', 'E', 'R', '4'], .marker 4),
   (['M', 'A', 'R', 'K', 'E', 'R', '5'], .marker 5),
   (['M', 'A', 'R', 'K', 'E', 'R', '6'], .marker 6),
   (['M', 'A', 'R', 'K', 'E', 'R', '7'], .marker 7),
   (['S', 'T', 'A', 'T', 'U', 'S'], .status),
   (['I', 'S', 'R'], .isr),
   (['I', 'E', 'R'], .ier),
   (['L', 'A', 'S', 'T', '_', 'E', 'R', 'R'], .lastErr),
   (['E', 'D', 'G', 'E', '_', 'C', 'O', 'U', 'N', 'T', '0'], .edgeCount .a),
   (['E', 'D', 'G', 'E', '_', 'C', 'O', 'U', 'N', 'T', '1'], .edgeCount .b),
   (['B', 'Y', 'T', 'E', 'S', '_', 'S', 'C', 'A', 'N', 'N', 'E', 'D'], .bytesScanned),
   (['F', 'R', 'A', 'M', 'E', 'S', '_', 'F', 'O', 'U', 'N', 'D'], .framesFound),
   (['F', 'R', 'A', 'M', 'E', 'S', '_', 'D', 'R', 'O', 'P', 'P', 'E', 'D'], .framesDropped),
   (['R', 'E', 'S', 'Y', 'N', 'C', '_', 'D', 'I', 'S', 'C', 'A', 'R', 'D', 'S'], .resyncDiscards),
   (['B', 'Y', 'T', 'E', 'S', '_', 'D', 'E', 'C', 'O', 'D', 'E', 'D'], .bytesDecoded),
   (['A', 'M', 'B', 'I', 'G', '_', 'C', 'O', 'U', 'N', 'T'], .ambigCount),
   (['B', 'I', 'T', '0', '_', 'C', 'O', 'U', 'N', 'T'], .bit0Count),
   (['E', 'D', 'G', 'E', '_', 'D', 'E', 'P', 'T', 'H'], .edgeDepth)]

/-- A register: a name, or an index that fits eight bits. -/
def parseCsr (cs : List Char) : Option (BitVec 8) :=
  match csrNames.find? (fun e => decide (e.1 = cs)) with
  | some e => some (csrIndex e.2)
  | none => parseField 8 cs

/-! ### Lines -/

/-- The words that open a line: the mnemonics of R106 and the pseudo-instructions of R107. -/
inductive AsmMnemonic where
  | nop | sample | close | query | decode | asmByte | asmClear | edgeRd | csrRd | csrWr | clear
  | sync | setBitTicks | setFraming | setEnd | setMarker | clrMarker | irqAck | irqEn
  deriving DecidableEq, Repr

/-- How each is written (R106, R107). -/
def mnemonicNames : List (List Char × AsmMnemonic) :=
  [(['N', 'O', 'P'], .nop),
   (['S', 'A', 'M', 'P', 'L', 'E'], .sample),
   (['C', 'L', 'O', 'S', 'E'], .close),
   (['Q', 'U', 'E', 'R', 'Y'], .query),
   (['D', 'E', 'C', 'O', 'D', 'E'], .decode),
   (['A', 'S', 'M', '_', 'B', 'Y', 'T', 'E'], .asmByte),
   (['A', 'S', 'M', '_', 'C', 'L', 'E', 'A', 'R'], .asmClear),
   (['E', 'D', 'G', 'E', '_', 'R', 'D'], .edgeRd),
   (['C', 'S', 'R', '_', 'R', 'D'], .csrRd),
   (['C', 'S', 'R', '_', 'W', 'R'], .csrWr),
   (['C', 'L', 'E', 'A', 'R'], .clear),
   (['S', 'Y', 'N', 'C'], .sync),
   (['S', 'E', 'T', '_', 'B', 'I', 'T', '_', 'T', 'I', 'C', 'K', 'S'], .setBitTicks),
   (['S', 'E', 'T', '_', 'F', 'R', 'A', 'M', 'I', 'N', 'G'], .setFraming),
   (['S', 'E', 'T', '_', 'E', 'N', 'D'], .setEnd),
   (['S', 'E', 'T', '_', 'M', 'A', 'R', 'K', 'E', 'R'], .setMarker),
   (['C', 'L', 'R', '_', 'M', 'A', 'R', 'K', 'E', 'R'], .clrMarker),
   (['I', 'R', 'Q', '_', 'A', 'C', 'K'], .irqAck),
   (['I', 'R', 'Q', '_', 'E', 'N'], .irqEn)]

/-- The command of a mnemonic and its operands (R106, R107); `none` where an operand is missing, left over or does not
fit its field. -/
def assembleOperands (m : AsmMnemonic) (ops : List (List Char)) : Option Instr :=
  match m, ops with
  | .nop, [] => some .nop
  | .sample, [c, l, t] => do
    return .sample (← parseChannel c) (← parseLevel l).code (← parseField 48 t)
  | .close, [c] => do return .close (← parseChannel c)
  | .query, [c, t] => do return .query (← parseChannel c) (← parseField 48 t)
  | .decode, [] => some .decode
  | .asmByte, [d, v, t] => do
    return .asmByte (← parseDirection d) (← parseField 8 v) (← parseField 48 t)
  | .asmClear, [] => some .asmClear
  | .edgeRd, [c, k] => do return .edgeRd (← parseChannel c) (← parseField 32 k)
  | .csrRd, [r] => do return .csrRd (← parseCsr r)
  | .csrWr, [r, d] => do return .csrWr (← parseCsr r) (← parseField 32 d)
  | .clear, [] => some .clear
  | .sync, [] => some pseudoSync
  | .setBitTicks, [n] => do return pseudoSetBitTicks (← parseField 32 n)
  | .setFraming, [db, ss, sl, rbp] => do
    return pseudoSetFraming (← parseField 4 db) (← parseField 2 ss) (← parseField 2 sl) (← parseField 16 rbp)
  | .setEnd, [v] => do return pseudoSetEnd (← parseField 32 v)
  | .setMarker, [n, v, ty] => do
    return pseudoSetMarker (← parseMarkerNumber n) (← parseField 8 v) (← parseField 4 ty)
  | .clrMarker, [n] => do return pseudoClrMarker (← parseMarkerNumber n)
  | .irqAck, [v] => do return pseudoIrqAck (← parseField 32 v)
  | .irqEn, [v] => do return pseudoIrqEn (← parseField 32 v)
  | _, _ => none

/-- What the assembler makes of a line. -/
inductive AsmLine where
  /-- Nothing but a comment or spaces. -/
  | blank
  /-- One command. -/
  | command (i : Instr)
  /-- The assembler refuses the line. -/
  | refused
  deriving DecidableEq, Repr

/-- The assembler on the tokens of a line. -/
def assembleTokens : List AsmToken → AsmLine
  | [] => .blank
  | .comma :: _ => .refused
  | .word w :: rest =>
    match mnemonicNames.find? (fun e => decide (e.1 = w)), splitOperands rest with
    | some e, some ops =>
      match assembleOperands e.2 ops with
      | some i => .command i
      | none => .refused
    | _, _ => .refused

/-- The assembler on one line (R106). -/
def assembleLine (cs : List Char) : AsmLine := assembleTokens (lexLine cs [])

end Sys2Proof.Machine
end

