-- ==== Sys2Proof/Machine/SampleSource.lean ====
section
/-! DEFINITION. The contract of the sample source, outside the block (00_scope.md R6): the level quantizer
(40_level_quantizer.md R111 to R113) and the host's choice of BIT_TICKS (00_scope.md R9). Nothing in the
machine calls these: they say what the words of a SAMPLE and of a CSR_WR of BIT_TICKS stand for. -/

namespace Sys2Proof.Machine

/-- LOW_TH and HIGH_TH, parameters of the sample source and no registers of the block, with the constraint that the spec
puts on a source that claims the contract (R112). -/
structure Thresholds (V : Type) [LE V] where
  /-- LOW_TH. -/
  low : V
  /-- HIGH_TH. -/
  high : V
  /-- LOW_TH is at most HIGH_TH. -/
  low_le_high : low ≤ high

/-- The default thresholds, 0.3 and 1.2 volts (R111). -/
def defaultThresholds : Thresholds ℚ := { low := 3 / 10, high := 6 / 5, low_le_high := by norm_num }

/-- `level(voltage)` (R111), over any ordered type of voltages. A voltage is a number of that type, so there is no
non-finite input (log 15). -/
def quantize {V : Type} [LinearOrder V] (th : Thresholds V) (v : V) : Level :=
  if v < th.low then .low else if v < th.high then .mid else .high

/-- The command a sample source sends for a voltage of a channel at a time (R111, 41_edge_detector.md R121). -/
def sampleOfVoltage {V : Type} [LinearOrder V] (th : Thresholds V) (c : Channel) (t : Time) (v : V) : Instr :=
  .sample c (quantize th v).code t

/-- TICK_SECONDS, the duration of one tick in seconds: a positive real that the sample source fixes and the block never
reads (00_scope.md R8). -/
abbrev TickSeconds := { x : ℝ // 0 < x }

/-- The default baudRate, 115200 (00_scope.md R9). -/
def defaultBaudRate : ℚ := 115200

/-- `n` is an integer nearest 1 / (baudRate × TICK_SECONDS), the bit period in ticks that the host writes to BIT_TICKS
(00_scope.md R9). A rate is positive (log 15). -/
def nearestBitTicks (baudRate : ℝ) (tickSeconds : TickSeconds) (n : ℕ) : Prop :=
  0 < baudRate ∧ |(n : ℝ) - 1 / (baudRate * tickSeconds.val)| ≤ 1 / 2

/-- `n` is what the default baudRate gives for BIT_TICKS (00_scope.md R9, 10_state.md R32). -/
def defaultBitTicks (tickSeconds : TickSeconds) (n : ℕ) : Prop :=
  nearestBitTicks (defaultBaudRate : ℝ) tickSeconds n

end Sys2Proof.Machine
end

