-- ==== Sys2Proof/Safety.lean ====
section
/-! DEFINITION. What counts as a good state of the block, and the words in which statements speak of whole runs: command
sequences, the closed form of an edge list, the decoded bytes of two finished edge lists, a frame on the wire. -/

namespace Sys2Proof.Machine

/-! ### Command sequences -/

/-- Commands executed one after the other (20_memory.md R72). -/
def execAll : List Instr → State → Result
  | [], s => .next s
  | i :: rest, s => andThen (exec i s) (execAll rest)

/-! ### Good channels (41_edge_detector.md R129) -/

/-- A channel's EdgeList: the entries its edge memory lists, in index order. -/
def entries (r : Chan) : List Edge := r.edges.map Prod.snd

/-- Times strictly increase (R129, point 1). -/
def timesRise (l : List Edge) : Prop := l.Pairwise fun a b => a.time.toNat < b.time.toNat

/-- No three consecutive entries share a level (R129, point 4). -/
def noThreeEqual (l : List Edge) : Prop :=
  ∀ k a b c, l[k]? = some a → l[k + 1]? = some b → l[k + 2]? = some c →
    ¬ (a.level = b.level ∧ b.level = c.level)

/-- What an OPEN channel's record says about its last entry (10_state.md R25): it has the last sample's level, it is that
sample or an earlier one of the run that the entry opened, and the entry before it has another level. -/
def openAgrees (r : Chan) : Prop :=
  ∃ e, (entries r).getLast? = some e ∧ e.level = r.lastLevel ∧
    (if r.prevRec then e.time = r.lastTime else e.time.toNat < r.lastTime.toNat) ∧
    ∀ f, 2 ≤ r.count.toNat → (entries r)[r.count.toNat - 2]? = some f → f.level ≠ e.level

/-- A good channel under a capacity: the edge memory lists exactly the entries below `count`, which is at most
EDGE_DEPTH (20_memory.md R61, R62, 41_edge_detector.md R132), the entries are an EdgeList (R129), and the record agrees
with them (10_state.md R25, R26). -/
def ChanInv (depth : Nat) (r : Chan) : Prop :=
  r.count.toNat ≤ depth ∧
  r.edges.map Prod.fst = List.range r.count.toNat ∧
  timesRise (entries r) ∧
  noThreeEqual (entries r) ∧
  (r.state = .empty → r.count = 0#32) ∧
  (r.state = .open_ → openAgrees r) ∧
  (r.state = .closed → 1 ≤ r.count.toNat)

/-- Both channels are good and EDGE_DEPTH is a legal depth (00_scope.md R8). -/
def ChannelsInv (s : State) : Prop :=
  Config.minEdgeDepth ≤ s.edgeDepth.toNat ∧ ∀ c, ChanInv s.edgeDepth.toNat (s.chan c)

/-! ### A good assembler (10_state.md R28, 20_memory.md R64) -/

/-- The payload buffer is in canonical form and lists no position at or above 255; a state other than Idle has seen a
byte; Data has bytes left to come, Sum and End have them all, and every byte received is listed. -/
def AssemblerInv (s : State) : Prop :=
  cellsWf s.asm.fData ∧
  (∀ p, Config.maxPayload ≤ p → cellsRead s.asm.fData p = none) ∧
  (s.asm.state ≠ .idle → s.asm.havePrev = true) ∧
  (s.asm.state = .data → s.asm.fCount.toNat < s.asm.fLen.toNat) ∧
  (s.asm.state = .sum ∨ s.asm.state = .end_ → s.asm.fCount = s.asm.fLen) ∧
  (s.asm.state = .data ∨ s.asm.state = .sum ∨ s.asm.state = .end_ →
    ∀ p, p < s.asm.fCount.toNat → (cellsRead s.asm.fData p).isSome = true)

/-! ### Good registers (10_state.md R31 to R39, R51) -/

/-- Every reserved bit is 0 and FRAMING.DATA_BITS is 1 to 8. -/
def RegistersInv (s : State) : Prop :=
  s.ctrl &&& ~~~ctrlMask = 0#32 ∧
  s.framing &&& ~~~framingMask = 0#32 ∧
  framingLegal s.framing = true ∧
  s.endMarker &&& ~~~endMarkerMask = 0#32 ∧
  (∀ n : Fin 8, s.markers[n] &&& ~~~markerMask = 0#32) ∧
  s.isr &&& ~~~isrMask = 0#32 ∧
  s.ier &&& ~~~isrMask = 0#32 ∧
  s.lastErr &&& ~~~lastErrMask = 0#32

/-! ### Good ports -/

/-- The host has taken no event that was not emitted (10_state.md R22), and every emitted word carries an assigned tag
(30_encoding.md R95). -/
def PortsInv (s : State) : Prop :=
  s.evtTaken ≤ s.out.length ∧ ∀ w ∈ s.out, tagAssigned (eventTag w) = true

/-- A good state. -/
def Inv (s : State) : Prop := ChannelsInv s ∧ AssemblerInv s ∧ RegistersInv s ∧ PortsInv s

/-! ### The closed form of an edge list (41_edge_detector.md R127) -/

/-- The maximal runs of consecutive samples with equal level. -/
def runsOf : List Edge → List (List Edge)
  | [] => []
  | x :: xs =>
    match runsOf xs with
    | (y :: run) :: rest => if x.level = y.level then (x :: y :: run) :: rest else [x] :: (y :: run) :: rest
    | _ => [[x]]

/-- What a run contributes: its first sample, and its last if it holds two or more. -/
def runEnds : List Edge → List Edge
  | [] => []
  | [x] => [x]
  | x :: y :: rest => [x, (y :: rest).getLast (by simp)]

/-- The EdgeList of accepted samples. -/
def edgeListOf (samples : List Edge) : List Edge := (runsOf samples).flatMap runEnds

/-- The SAMPLE commands that push samples on a channel, then its CLOSE. -/
def sampleAndClose (c : Channel) (samples : List Edge) : List Instr :=
  samples.map (fun e => .sample c e.level.code e.time) ++ [.close c]

/-- The level of the last sample at or before a time (41_edge_detector.md R130), `none` where there is none. -/
def levelOfSamples (samples : List Edge) (t : Time) : Option Level :=
  ((samples.filter fun e => decide (e.time.toNat ≤ t.toNat)).getLast?).map Edge.level

/-! ### The decoded bytes of two finished edge lists (43_serial_decoder.md R165) -/

/-- The bytes of `n` more entries of channel 0 from index `k`, with the scan cursor: an entry starts one where the level
changes from High to non-High at it (R158) and the cursor is at or before its time (R159). -/
def decodedFrom (s : State) (cfg : DecodeCfg) : Nat → Nat → Nat → List DecodedByte
  | 0, _, _ => []
  | n + 1, k, cursor =>
    if (edgeAt s .a (k - 1)).level = .high ∧ (edgeAt s .a k).level ≠ .high ∧
        cursor ≤ (edgeAt s .a k).time.toNat then
      let d := decodeChar s cfg (edgeAt s .a k).time
      d :: decodedFrom s cfg n (k + 1) (cursorAfter cfg d)
    else decodedFrom s cfg n (k + 1) cursor

/-- The document's `decode(edgesA, edgesB, ...)`: the sequence of DecodedBytes. -/
def decodedBytes (s : State) : List DecodedByte :=
  decodedFrom s (decodeCfg s) (s.ch0.count.toNat - 1) 1 0

/-- Each byte out, in order (R166). -/
def byteOutAll : List DecodedByte → State → Result
  | [], s => .next s
  | d :: rest, s => andThen (byteOut d s) (byteOutAll rest)

/-! ### A frame on the wire (44_frame_assembler.md R180) -/

/-- `marker, length, data[0 .. length-1], checksum, terminator`. -/
def frameBytes (marker : Byte) (payload : List Byte) (sum terminator : Byte) : List Byte :=
  marker :: BitVec.ofNat 8 payload.length :: payload ++ [sum, terminator]

/-- The sum that R187 asks to be 0 modulo 256. -/
def frameSum (payload : List Byte) (sum : Byte) : Nat :=
  payload.length + (payload.map BitVec.toNat).sum + sum.toNat

/-- The ASM_BYTE commands that feed timed bytes of one direction. -/
def feed (dir : Direction) (bytes : List (Byte × Time)) : List Instr :=
  bytes.map fun b => .asmByte dir b.1 b.2

/-- Each time is at or after the one before it, by at most `tol` (R182). -/
def gapsWithin (tol : Nat) : List (Byte × Time) → Prop
  | a :: b :: rest =>
    a.2.toNat ≤ b.2.toNat ∧ b.2.toNat ≤ a.2.toNat + tol ∧ gapsWithin tol (b :: rest)
  | _ => True

/-- The first of timed bytes is not earlier than the last byte the assembler has seen, if it has seen one: the condition
under which ASM_BYTE raises no ASM_TIME_ORDER (R191). Its direction and the gap before it are free. -/
def notBefore (s : State) (bytes : List (Byte × Time)) : Prop :=
  s.asm.havePrev = true → ∀ b, bytes.head? = some b → s.asm.prevTime.toNat ≤ b.2.toNat

end Sys2Proof.Machine
end

