-- ==== Sys2Proof/Certificates/Slice0/Obligations.lean ====
section
/-! DEFINITION. The statements for the provers. -/

open Sys2Proof Sys2Proof.Machine

/-! ### Encoding (30_encoding.md) -/

/-- Every command's word decodes to that command, every field at every value its width admits (R82, R83, R85). -/
def Obligations.DecodeOfEncode : Prop :=
  ∀ i : Instr, Sys2Proof.decode (encode i) = .ok i

/-- Opcodes and their reserved masks, written out from R81 and R84. -/
def Sys2Proof.Machine.reservedMaskTable : List (BitVec 4 × Word) :=
  [(0x0#4, 0x0FFFFFFFFFFFFFFF#64), (0x1#4, 0x01FF000000000000#64), (0x2#4, 0x07FFFFFFFFFFFFFF#64),
   (0x3#4, 0x07FF000000000000#64), (0x4#4, 0x0FFFFFFFFFFFFFFF#64), (0x5#4, 0x0700000000000000#64),
   (0x6#4, 0x0FFFFFFFFFFFFFFF#64), (0x7#4, 0x07FFFFFF00000000#64), (0x8#4, 0x0FFFFF00FFFFFFFF#64),
   (0x9#4, 0x0FFFFF0000000000#64), (0xA#4, 0x0FFFFFFFFFFFFFFF#64)]

/-- R84 and R85: the opcode is checked first, then the reserved mask of its format, and either refusal runs the error
procedure and nothing else; every other word decodes to the one command whose word it is. -/
def Obligations.EveryWordDecodesOrIsRefused : Prop :=
  ∀ w : Word,
    (0xB ≤ (w.extractLsb' 60 4).toNat →
      Sys2Proof.decode w = .error .illegalOp ∧ ∀ s, runWord w s = .next (raiseError .illegalOp w s)) ∧
    ∀ p ∈ reservedMaskTable, w.extractLsb' 60 4 = p.1 →
      (w &&& p.2 ≠ 0#64 →
        Sys2Proof.decode w = .error .rsvdNonzero ∧
          ∀ s, runWord w s = .next (raiseError .rsvdNonzero w s)) ∧
      (w &&& p.2 = 0#64 → ∃ i, Sys2Proof.decode w = .ok i ∧ encode i = w)

/-- R87: the worked examples of the encoding, each word and the command it decodes to. -/
def Obligations.WorkedExamplesDecode : Prop :=
  Sys2Proof.decode 0x1400000000000000#64 = .ok (.sample .a Level.high.code 0#48) ∧
  Sys2Proof.decode 0x1A00000000000064#64 = .ok (.sample .b Level.mid.code 100#48) ∧
  Sys2Proof.decode 0x2800000000000000#64 = .ok (.close .b) ∧
  Sys2Proof.decode 0x3000000000000073#64 = .ok (.query .a 115#48) ∧
  Sys2Proof.decode 0x4000000000000000#64 = .ok .decode ∧
  Sys2Proof.decode 0x5899000000001234#64 = .ok (.asmByte .fromB 0x99#8 0x1234#48) ∧
  Sys2Proof.decode 0x7800000000000005#64 = .ok (.edgeRd .b 5#32) ∧
  Sys2Proof.decode 0x8000001000000000#64 = .ok (.csrRd 0x10#8) ∧
  Sys2Proof.decode 0x900000020000000A#64 = .ok (.csrWr 0x02#8 10#32) ∧
  Sys2Proof.decode 0xA000000000000000#64 = .ok .clear

/-- The layouts of R96 to R104: where each event's word carries its tag and its fields, and that the bits no field
names are 0. -/
def Obligations.EventWordLayouts : Prop :=
  (∀ c l t, let w := eventWord (.level c l t)
    w.extractLsb' 60 4 = 1#4 ∧ w.extractLsb' 59 1 = c.bit ∧ w.extractLsb' 50 9 = 0#9 ∧
    w.extractLsb' 48 2 = l.code ∧ w.extractLsb' 0 48 = t) ∧
  (∀ c e, let w := eventWord (.edge c e)
    w.extractLsb' 60 4 = 2#4 ∧ w.extractLsb' 59 1 = c.bit ∧ w.extractLsb' 50 9 = 0#9 ∧
    w.extractLsb' 48 2 = e.level.code ∧ w.extractLsb' 0 48 = e.time) ∧
  (∀ i d, let w := eventWord (.csrv i d)
    w.extractLsb' 60 4 = 3#4 ∧ w.extractLsb' 40 20 = 0#20 ∧ w.extractLsb' 32 8 = i ∧ w.extractLsb' 0 32 = d) ∧
  (∀ dir ambig b0 v t, let w := eventWord (.byte dir ambig b0 v t)
    w.extractLsb' 60 4 = 4#4 ∧ w.extractLsb' 59 1 = dir.bit ∧ w.getLsbD 58 = ambig ∧ w.getLsbD 57 = b0 ∧
    w.getLsbD 56 = false ∧ w.extractLsb' 48 8 = v ∧ w.extractLsb' 0 48 = t) ∧
  (∀ ty m len cs start, let w := eventWord (.frameHdr ty m len cs start)
    w.extractLsb' 60 4 = 5#4 ∧ w.extractLsb' 56 4 = ty ∧ w.extractLsb' 48 8 = m ∧ w.extractLsb' 40 8 = len ∧
    w.extractLsb' 32 8 = cs ∧ w.extractLsb' 0 32 = start) ∧
  (∀ pos d, let w := eventWord (.frameData pos d)
    w.extractLsb' 60 4 = 6#4 ∧ w.extractLsb' 16 44 = 0#44 ∧ w.extractLsb' 8 8 = pos ∧ w.extractLsb' 0 8 = d) ∧
  (∀ e i, let w := eventWord (.frameEnd e i)
    w.extractLsb' 60 4 = 7#4 ∧ w.extractLsb' 40 20 = 0#20 ∧ w.extractLsb' 32 8 = e ∧ w.extractLsb' 0 32 = i) ∧
  (∀ n, let w := eventWord (.done n)
    w.extractLsb' 60 4 = 8#4 ∧ w.extractLsb' 32 28 = 0#28 ∧ w.extractLsb' 0 32 = n) ∧
  (∀ op code detail, let w := eventWord (.error op code detail)
    w.extractLsb' 60 4 = 0xE#4 ∧ w.extractLsb' 56 4 = op ∧ w.extractLsb' 48 8 = code ∧
    w.extractLsb' 0 48 = detail)

/-- 20_memory.md R67: a 64-bit word moves as eight bytes, byte k being bits 8k+7 to 8k, and those bytes carry it back;
a register value moves as four. -/
def Obligations.WordsMoveLittleEndian : Prop :=
  (∀ (w : Word) (rest : List Byte), wordOfBytes (bytesOfWord w ++ rest) = some (w, rest)) ∧
  (∀ (w : Word) (k : Nat), k < 8 → (bytesOfWord w)[k]? = some (w.extractLsb' (8 * k) 8)) ∧
  (∀ (d : CsrWord) (k : Nat), k < 4 → (bytesOfCsrWord d)[k]? = some (d.extractLsb' (8 * k) 8))

/-! ### Steps and ports (10_state.md R21 to R23) -/

/-- A word that decodes to a command: the step is that command's meaning, at the state that has taken the word. -/
def Obligations.StepRunsDecodedCommand : Prop :=
  ∀ (s : State) (w : Word) (rest : List PortInput) (i : Instr),
    s.inputs = .command w :: rest → Sys2Proof.decode w = .ok i →
    step s = exec i { s with inputs := rest }

/-- A word that is no command: the step is the error procedure with the refusal's code (R85). -/
def Obligations.StepRefusesOtherWords : Prop :=
  ∀ (s : State) (w : Word) (rest : List PortInput) (r : DecodeReject),
    s.inputs = .command w :: rest → Sys2Proof.decode w = .error r →
    step s = .next (raiseError (errOfReject r) w { s with inputs := rest })

/-- The port inputs that are no command: with none offered nothing changes (60_exceptions.md R241; that an idle step is a
next state is log 12); an event moves where one is offered, the oldest first, and only the count of those taken
changes (R22; the count is the model's, log 7). -/
def Obligations.IdleAndTakingAnEvent : Prop :=
  (∀ s : State, s.inputs = [] → step s = .next s) ∧
  (∀ (s : State) (rest : List PortInput), s.inputs = .takeEvent :: rest →
    (s.evtTaken < s.out.length →
      evtData s = s.out[s.evtTaken]? ∧ (evtData s).isSome = true ∧
      step s = .next { s with inputs := rest, evtTaken := s.evtTaken + 1 }) ∧
    (s.out.length ≤ s.evtTaken → evtData s = none ∧ step s = .next { s with inputs := rest }))

/-- 70_reset_and_hazards.md R251: an assertion of rst in any state leaves the reset state; EDGE_DEPTH, STATUS,
EDGE_COUNTc and irq read as the rule says. The values of the unspecified fields are not stated. -/
def Obligations.AssertingReset : Prop :=
  ∀ (s : State) (rest : List PortInput), s.inputs = .reset :: rest →
    ∃ t, step s = .next t ∧
      (∀ c, (t.chan c).state = .empty ∧ (t.chan c).count = 0#32) ∧
      t.asm.state = .idle ∧ t.asm.havePrev = false ∧
      t.ctrl = 0x00000007#32 ∧ t.bitTicks = 0#32 ∧ t.framing = 0x00640098#32 ∧ t.endMarker = 0x00000003#32 ∧
      t.markers[0] = 0x80000001#32 ∧ t.markers[1] = 0x80000102#32 ∧
      (∀ n : Fin 8, 2 ≤ n.val → t.markers[n] = 0#32) ∧
      t.isr = 0#32 ∧ t.ier = 0#32 ∧ t.lastErr = 0#32 ∧
      t.bytesScanned = 0#32 ∧ t.framesFound = 0#32 ∧ t.framesDropped = 0#32 ∧ t.resyncDiscards = 0#32 ∧
      t.bytesDecoded = 0#32 ∧ t.ambigCount = 0#32 ∧ t.bit0Count = 0#32 ∧
      t.out = [] ∧
      csrValue t .status = 0#32 ∧ csrValue t (.edgeCount .a) = 0#32 ∧ csrValue t (.edgeCount .b) = 0#32 ∧
      irq t = false ∧ csrValue t .id = 0x4D430001#32 ∧ csrValue t .edgeDepth = csrValue s .edgeDepth ∧
      t.inputs = rest

/-- 10_state.md R53: the values the spec states for reset, in the state right after reset. -/
def Obligations.ResetStateHoldsTheSpecsValues : Prop :=
  let s := State.reset
  (∀ c, (s.chan c).state = .empty ∧ (s.chan c).count = 0#32) ∧
  s.asm.state = .idle ∧ s.asm.havePrev = false ∧
  s.ctrl = 0x00000007#32 ∧ s.bitTicks = 0#32 ∧ s.framing = 0x00640098#32 ∧ s.endMarker = 0x00000003#32 ∧
  s.markers.toList = [0x80000001#32, 0x80000102#32, 0#32, 0#32, 0#32, 0#32, 0#32, 0#32] ∧
  csrValue s .status = 0#32 ∧ s.isr = 0#32 ∧ s.ier = 0#32 ∧ s.lastErr = 0#32 ∧
  s.bytesScanned = 0#32 ∧ s.framesFound = 0#32 ∧ s.framesDropped = 0#32 ∧ s.resyncDiscards = 0#32 ∧
  s.bytesDecoded = 0#32 ∧ s.ambigCount = 0#32 ∧ s.bit0Count = 0#32 ∧
  s.out = [] ∧ irq s = false ∧ csrValue s .id = 0x4D430001#32

/-! ### The error procedure (60_exceptions.md) -/

/-- The error codes, written out from R221. -/
def Sys2Proof.Machine.errorCodeTable : List (ErrCode × Byte) :=
  [(.illegalOp, 0x01#8), (.rsvdNonzero, 0x02#8), (.badLevel, 0x03#8), (.chNotOpen, 0x04#8),
   (.outOfOrder, 0x05#8), (.emptyChannel, 0x06#8), (.edgeOverflow, 0x07#8), (.notReady, 0x08#8),
   (.notConfigured, 0x09#8), (.badCsr, 0x0A#8), (.csrReadOnly, 0x0B#8), (.badCsrValue, 0x0C#8),
   (.indexRange, 0x0D#8), (.asmTimeOrder, 0x0E#8)]

/-- The error procedure's pseudocode (R223) with the codes of R221: LAST_ERR, ISR.CMD_ERR, the ERROR event where
CTRL.ERR_EV_EN is 1, and nothing else. -/
def Obligations.ErrorProcedure : Prop :=
  ∀ p ∈ errorCodeTable, ∀ (w : Word) (s : State),
    raiseError p.1 w s =
      { s with
        lastErr := 0#20 ++ w.extractLsb' 60 4 ++ p.2
        isr := s.isr ||| 0x00000001#32
        out := if s.ctrl.getLsbD 2 then
            s.out ++ [0xE#4 ++ w.extractLsb' 60 4 ++ p.2 ++ w.extractLsb' 0 48]
          else s.out }

/-- ChannelFail (R224): the channel is FAILED and keeps its record, ISR.CHc_FAIL is set, then the error procedure; the
other channel is untouched. -/
def Obligations.ChannelFailure : Prop :=
  (∀ (code : ErrCode) (w : Word) (s : State),
    channelFail .a code w s =
      raiseError code w { s with ch0 := { s.ch0 with state := .failed }, isr := s.isr ||| 0x00000002#32 }) ∧
  (∀ (code : ErrCode) (w : Word) (s : State),
    channelFail .b code w s =
      raiseError code w { s with ch1 := { s.ch1 with state := .failed }, isr := s.isr ||| 0x00000004#32 })

/-! ### The edge detector (41_edge_detector.md) -/

/-- R122: the first sample of a channel is recorded unconditionally, at entry 0; the rest of the state is as before. -/
def Obligations.FirstSampleIsRecorded : Prop :=
  ∀ (s : State) (c : Channel) (l : Level) (t : Time),
    (s.chan c).state = .empty → (s.chan c).count = 0#32 → 2 ≤ s.edgeDepth.toNat →
    ∃ m, exec (.sample c l.code t) s = .next (s.setChan c
        { state := .open_, count := 1#32, lastTime := t, lastLevel := l, prevRec := true, edges := m }) ∧
      cellsRead m 0 = some ⟨t, l⟩ ∧
      ∀ k, k ≠ 0 → cellsRead m k = cellsRead (s.chan c).edges k

/-- R123: a same-level sample records nothing and becomes the new last sample; the rest of the state is as before. -/
def Obligations.SameLevelSampleIsNotRecorded : Prop :=
  ∀ (s : State) (c : Channel) (l : Level) (t : Time),
    (s.chan c).state = .open_ → (s.chan c).lastTime.toNat < t.toNat → l = (s.chan c).lastLevel →
    exec (.sample c l.code t) s = .next (s.setChan c
      { state := .open_
        count := (s.chan c).count
        lastTime := t
        lastLevel := l
        prevRec := false
        edges := (s.chan c).edges })

/-- R124: a transition sample appends the previous sample where it is not recorded, then itself; no other entry
changes, and the rest of the state is as before. -/
def Obligations.TransitionSampleIsRecorded : Prop :=
  ∀ (s : State) (c : Channel) (l : Level) (t : Time),
    (s.chan c).state = .open_ → (s.chan c).lastTime.toNat < t.toNat → l ≠ (s.chan c).lastLevel →
    (s.chan c).count.toNat + (if (s.chan c).prevRec then 1 else 2) ≤ s.edgeDepth.toNat →
    ∃ m, exec (.sample c l.code t) s = .next (s.setChan c
        { state := .open_
          count := (s.chan c).count + (if (s.chan c).prevRec then 1#32 else 2#32)
          lastTime := t
          lastLevel := l
          prevRec := true
          edges := m }) ∧
      ((s.chan c).prevRec = true →
        cellsRead m (s.chan c).count.toNat = some ⟨t, l⟩ ∧
        ∀ k, k ≠ (s.chan c).count.toNat → cellsRead m k = cellsRead (s.chan c).edges k) ∧
      ((s.chan c).prevRec = false →
        cellsRead m (s.chan c).count.toNat = some ⟨(s.chan c).lastTime, (s.chan c).lastLevel⟩ ∧
        cellsRead m ((s.chan c).count.toNat + 1) = some ⟨t, l⟩ ∧
        ∀ k, k ≠ (s.chan c).count.toNat → k ≠ (s.chan c).count.toNat + 1 →
          cellsRead m k = cellsRead (s.chan c).edges k)

/-- R125: a sample at or before the last one fails the channel with OUT_OF_ORDER and records nothing. -/
def Obligations.OutOfOrderSampleFailsTheChannel : Prop :=
  ∀ (s : State) (c : Channel) (l : Level) (t : Time),
    (s.chan c).state = .open_ → t.toNat ≤ (s.chan c).lastTime.toNat →
    ∃ u, exec (.sample c l.code t) s = .next u ∧
      u = channelFail c .outOfOrder (encode (.sample c l.code t)) s ∧
      u.chan c = { s.chan c with state := .failed }

/-- R132: where the appends of a SAMPLE or a CLOSE do not fit, the channel fails with EDGE_OVERFLOW and nothing is
recorded. -/
def Obligations.OverflowFailsTheChannel : Prop :=
  (∀ (s : State) (c : Channel) (l : Level) (t : Time),
    (s.chan c).state = .open_ → (s.chan c).lastTime.toNat < t.toNat → l ≠ (s.chan c).lastLevel →
    s.edgeDepth.toNat < (s.chan c).count.toNat + (if (s.chan c).prevRec then 1 else 2) →
    ∃ u, exec (.sample c l.code t) s = .next u ∧
      u = channelFail c .edgeOverflow (encode (.sample c l.code t)) s ∧
      u.chan c = { s.chan c with state := .failed }) ∧
  (∀ (s : State) (c : Channel),
    (s.chan c).state = .open_ → (s.chan c).prevRec = false →
    s.edgeDepth.toNat < (s.chan c).count.toNat + 1 →
    ∃ u, exec (.close c) s = .next u ∧
      u = channelFail c .edgeOverflow (encode (.close c)) s ∧
      u.chan c = { s.chan c with state := .failed })

/-- R126: CLOSE of an OPEN channel appends the last sample where it is not recorded, and leaves the channel CLOSED; no
other entry changes, and the rest of the state is as before. -/
def Obligations.CloseFinishesTheEdgeList : Prop :=
  ∀ (s : State) (c : Channel),
    (s.chan c).state = .open_ →
    ((s.chan c).prevRec = true →
      exec (.close c) s = .next (s.setChan c { s.chan c with state := .closed })) ∧
    ((s.chan c).prevRec = false → (s.chan c).count.toNat + 1 ≤ s.edgeDepth.toNat →
      ∃ m, exec (.close c) s = .next (s.setChan c
          { s.chan c with state := .closed, prevRec := true, count := (s.chan c).count + 1#32, edges := m }) ∧
        cellsRead m (s.chan c).count.toNat = some ⟨(s.chan c).lastTime, (s.chan c).lastLevel⟩ ∧
        ∀ k, k ≠ (s.chan c).count.toNat → cellsRead m k = cellsRead (s.chan c).edges k)

/-- The refusals of SAMPLE and CLOSE in the order of R225: a reserved level code, a channel that is not open, an EMPTY
channel at CLOSE. -/
def Obligations.EdgeDetectorRefusals : Prop :=
  (∀ s c t, exec (.sample c 3#2 t) s = .next (raiseError .badLevel (encode (.sample c 3#2 t)) s)) ∧
  (∀ s c (l : Level) t, (s.chan c).state = .closed ∨ (s.chan c).state = .failed →
    exec (.sample c l.code t) s = .next (raiseError .chNotOpen (encode (.sample c l.code t)) s)) ∧
  (∀ s c, (s.chan c).state = .closed ∨ (s.chan c).state = .failed →
    exec (.close c) s = .next (raiseError .chNotOpen (encode (.close c)) s)) ∧
  (∀ s c, (s.chan c).state = .empty →
    exec (.close c) s = .next (channelFail c .emptyChannel (encode (.close c)) s))

/-- R127: samples in increasing time order whose closed form fits EDGE_DEPTH, pushed on a fresh channel and closed, leave
exactly that closed form of their runs as the channel's EdgeList; nothing but the channel changes. -/
def Obligations.EdgeListIsItsClosedForm : Prop :=
  ∀ (s : State) (c : Channel) (samples : List Edge),
    (s.chan c).state = .empty → (s.chan c).count = 0#32 → (s.chan c).edges = [] →
    samples ≠ [] → timesRise samples → (edgeListOf samples).length ≤ s.edgeDepth.toNat →
    ∃ r, execAll (sampleAndClose c samples) s = .next (s.setChan c r) ∧
      r.state = .closed ∧ entries r = edgeListOf samples ∧
      r.count.toNat = (edgeListOf samples).length ∧
      r.edges.map Prod.fst = List.range r.count.toNat

/-- R128: with m runs among n samples, the finished EdgeList holds m to min (2 m, n) entries; one or two where the level
never changes; never none. -/
def Obligations.EdgeListCounts : Prop :=
  ∀ (s s' : State) (c : Channel) (samples : List Edge),
    (s.chan c).state = .empty → (s.chan c).count = 0#32 → (s.chan c).edges = [] →
    samples ≠ [] → timesRise samples → (edgeListOf samples).length ≤ s.edgeDepth.toNat →
    execAll (sampleAndClose c samples) s = .next s' →
    let m := (runsOf samples).length
    let n := samples.length
    let count := (s'.chan c).count.toNat
    m ≤ count ∧ count ≤ min (2 * m) n ∧
      (m = 1 → n = 1 → count = 1) ∧ (m = 1 → 2 ≤ n → count = 2) ∧ count ≠ 0

/-- R131: the entries of a good CLOSED channel, pushed on a fresh channel and closed, leave the same EdgeList. -/
def Obligations.EdgeDetectionIsIdempotent : Prop :=
  ∀ (s : State) (c : Channel) (r : Chan) (depth : Nat),
    r.state = .closed → ChanInv depth r →
    (s.chan c).state = .empty → (s.chan c).count = 0#32 → (s.chan c).edges = [] →
    (entries r).length ≤ s.edgeDepth.toNat →
    ∃ q, execAll (sampleAndClose c (entries r)) s = .next (s.setChan c q) ∧
      q.state = .closed ∧ entries q = entries r

/-- R130: at every time from the first sample on, the lookup on the finished channel answers the level of the last sample
at or before that time. -/
def Obligations.EdgeListReconstructsTheWaveform : Prop :=
  ∀ (s s' : State) (c : Channel) (samples : List Edge) (t : Time),
    (s.chan c).state = .empty → (s.chan c).count = 0#32 → (s.chan c).edges = [] →
    timesRise samples → (edgeListOf samples).length ≤ s.edgeDepth.toNat →
    (∃ e, samples.head? = some e ∧ e.time.toNat ≤ t.toNat) →
    execAll (sampleAndClose c samples) s = .next s' →
    levelOfSamples samples t = some (levelAt s' c t)

/-! ### The level sampler (42_level_sampler.md) -/

/-- R140: High where every entry is later; else the level of the last entry at or before the time. -/
def Obligations.LevelAtReadsTheRightmostEntry : Prop :=
  ∀ (s : State) (c : Channel) (t : Time),
    ((∀ k, k < (s.chan c).count.toNat → t.toNat < (edgeAt s c k).time.toNat) → levelAt s c t = .high) ∧
    (∀ k, k < (s.chan c).count.toNat → (edgeAt s c k).time.toNat ≤ t.toNat →
      (∀ j, k < j → j < (s.chan c).count.toNat → t.toNat < (edgeAt s c j).time.toNat) →
      levelAt s c t = (edgeAt s c k).level)

/-- R141: the same lookup at half-ticks, and the two agree at whole ticks. -/
def Obligations.LevelAtHalfReadsHalfTicks : Prop :=
  ∀ (s : State) (c : Channel),
    (∀ u, (∀ k, k < (s.chan c).count.toNat → u < 2 * (edgeAt s c k).time.toNat) → levelAtHalf s c u = .high) ∧
    (∀ u k, k < (s.chan c).count.toNat → 2 * (edgeAt s c k).time.toNat ≤ u →
      (∀ j, k < j → j < (s.chan c).count.toNat → u < 2 * (edgeAt s c j).time.toNat) →
      levelAtHalf s c u = (edgeAt s c k).level) ∧
    (∀ t : Time, levelAt s c t = levelAtHalf s c (2 * t.toNat))

/-- R146: the round trip on entries whose times rise. -/
def Obligations.SamplerRoundTrip : Prop :=
  ∀ (s : State) (c : Channel),
    (∀ j k, j < k → k < (s.chan c).count.toNat → (edgeAt s c j).time.toNat < (edgeAt s c k).time.toNat) →
    (∀ k, k < (s.chan c).count.toNat → levelAt s c (edgeAt s c k).time = (edgeAt s c k).level) ∧
    (∀ k ε (t : Time), 1 ≤ k → k < (s.chan c).count.toNat → 1 ≤ ε →
      ε ≤ (edgeAt s c k).time.toNat - (edgeAt s c (k - 1)).time.toNat →
      t.toNat + ε = (edgeAt s c k).time.toNat →
      levelAt s c t = (edgeAt s c (k - 1)).level) ∧
    (∀ ε (t : Time), 0 < (s.chan c).count.toNat → 1 ≤ ε → ε ≤ (edgeAt s c 0).time.toNat →
      t.toNat + ε = (edgeAt s c 0).time.toNat → levelAt s c t = .high)

/-- R144: QUERY of a CLOSED channel emits one LEVEL event and changes nothing else. -/
def Obligations.QueryAnswers : Prop :=
  ∀ (s : State) (c : Channel) (t : Time), (s.chan c).state = .closed →
    exec (.query c t) s =
      .next { s with out := s.out ++ [0x1#4 ++ c.bit ++ 0#9 ++ (levelAt s c t).code ++ t] }

/-- R145: EDGE_RD of an entry of a CLOSED channel emits one EDGE event and changes nothing else. -/
def Obligations.EdgeReadAnswers : Prop :=
  ∀ (s : State) (c : Channel) (k : BitVec 32),
    (s.chan c).state = .closed → k.toNat < (s.chan c).count.toNat →
    exec (.edgeRd c k) s =
      .next { s with out := s.out ++
        [0x2#4 ++ c.bit ++ 0#9 ++ (edgeAt s c k.toNat).level.code ++ (edgeAt s c k.toNat).time] }

/-- The refusals of QUERY, EDGE_RD and DECODE in the order of R225. -/
def Obligations.SamplerAndDecoderRefusals : Prop :=
  (∀ s c t, (s.chan c).state ≠ .closed →
    exec (.query c t) s = .next (raiseError .notReady (encode (.query c t)) s)) ∧
  (∀ s c k, (s.chan c).state ≠ .closed →
    exec (.edgeRd c k) s = .next (raiseError .notReady (encode (.edgeRd c k)) s)) ∧
  (∀ s c (k : BitVec 32), (s.chan c).state = .closed → (s.chan c).count.toNat ≤ k.toNat →
    exec (.edgeRd c k) s = .next (raiseError .indexRange (encode (.edgeRd c k)) s)) ∧
  (∀ s, s.ch0.state ≠ .closed ∨ s.ch1.state ≠ .closed →
    exec .decode s = .next (raiseError .notReady (encode .decode) s)) ∧
  (∀ s, s.ch0.state = .closed → s.ch1.state = .closed → s.bitTicks = 0#32 →
    exec .decode s = .next (raiseError .notConfigured (encode .decode) s))

/-! ### The serial decoder (43_serial_decoder.md) -/

/-- The BYTE event's word of a decoded byte, written out from 30_encoding.md R99. -/
def Sys2Proof.Machine.byteWord (d : DecodedByte) : Word :=
  0x4#4 ++ d.dir.bit ++ BitVec.ofBool d.ambig ++ BitVec.ofBool d.b0 ++ 0#1 ++ d.value ++ d.start

/-- The start-edge candidate (R158), the direction selector, the stop bits, the sampling instants and the cursor advance
(R160, R162, R163), with the configuration a DECODE reads (R157); that the walk takes a candidate exactly where the
cursor is at or before its time, and only then moves the cursor (R159); and what is done with a decoded byte (R166): it
is counted with its flags, its BYTE event is emitted where CTRL bit 0 is 1, and then it goes to the assembler as an
accepted ASM_BYTE of its direction, value and start time does. -/
def Obligations.DecoderPieces : Prop :=
  (∀ s k, startEdge s k = true ↔ (edgeAt s .a (k - 1)).level = .high ∧ (edgeAt s .a k).level ≠ .high) ∧
  (∀ cfg n k cursor s,
    (startEdge s k = true → cursor ≤ (edgeAt s .a k).time.toNat →
      let d := decodeChar s cfg (edgeAt s .a k).time
      decodeWalk cfg (n + 1) k cursor s =
        andThen (byteOut d s) fun t => decodeWalk cfg n (k + 1) (cursorAfter cfg d) t) ∧
    (¬ (startEdge s k = true ∧ cursor ≤ (edgeAt s .a k).time.toNat) →
      decodeWalk cfg (n + 1) k cursor s = decodeWalk cfg n (k + 1) cursor s)) ∧
  (∀ (d : DecodedByte) (s : State), s.bitTicks ≠ 0#32 →
    ¬ (s.asm.havePrev = true ∧ d.start.toNat < s.asm.prevTime.toNat) →
    byteOut d s = exec (.asmByte d.dir d.value d.start) { s with
      bytesDecoded := s.bytesDecoded + 1#32
      ambigCount := if d.ambig then s.ambigCount + 1#32 else s.ambigCount
      bit0Count := if d.b0 then s.bit0Count + 1#32 else s.bit0Count
      isr := s.isr ||| (if d.ambig then 0x00000008#32 else 0#32) ||| (if d.b0 then 0x00000010#32 else 0#32)
      out := if s.ctrl.getLsbD 0 then s.out ++ [byteWord d] else s.out }) ∧
  (∀ lp ls, (dirSelect lp ls).1 = (if ls = .mid then .fromB else .fromA) ∧
    (dirSelect lp ls).2.1 = decide (ls = .high) ∧ (dirSelect lp ls).2.2 = decide (lp = .high)) ∧
  (∀ s start i, sampleInstant (decodeCfg s) start i = 2 * start.toNat + (2 * i + 3) * s.bitTicks.toNat) ∧
  (∀ s start, let d := decodeChar s (decodeCfg s) start
    d.start = start ∧
    d.dir = (if levelAtHalf s .b (2 * start.toNat + 3 * s.bitTicks.toNat) = .mid then .fromB else .fromA) ∧
    d.ambig = decide (levelAtHalf s .b (2 * start.toNat + 3 * s.bitTicks.toNat) = .high) ∧
    d.b0 = decide (levelAtHalf s .a (2 * start.toNat + 3 * s.bitTicks.toNat) = .high) ∧
    cursorAfter (decodeCfg s) d = start.toNat +
      (1 + (s.framing.extractLsb' 0 4).toNat +
        (if d.dir = .fromB then (s.framing.extractLsb' 6 2).toNat else (s.framing.extractLsb' 4 2).toNat))
        * s.bitTicks.toNat)

/-- R161: bit i of a decoded byte is 1 exactly where channel 0 reads High at the i-th mid-bit instant, for i below
DATA_BITS, and 0 above. -/
def Obligations.DecodedValueBits : Prop :=
  ∀ (s : State) (start : Time) (i : Nat), (s.framing.extractLsb' 0 4).toNat ≤ 8 →
    (decodeChar s (decodeCfg s) start).value.getLsbD i =
      (decide (i < (s.framing.extractLsb' 0 4).toNat) &&
        decide (levelAtHalf s .a (2 * start.toNat + (2 * i + 3) * s.bitTicks.toNat) = .high))

/-- DECODE is the batch computation of R165: the pure walk over the two finished edge lists, which starts a byte at each
change from High to non-High (R158) at or after the cursor (R159), then each byte out in order, then the completion. -/
def Obligations.DecodeRefinesTheBatchDecoder : Prop :=
  ∀ s : State, s.ch0.state = .closed → s.ch1.state = .closed → s.bitTicks ≠ 0#32 →
    exec .decode s =
      andThen (byteOutAll (decodedBytes s) (decoderCountersClear (asmClear s))) fun t => .next (decodeDone t)

/-- R165, R166, R167: with both channels CLOSED and BIT_TICKS set, DECODE completes. Its counters and flags count the
decoded bytes, its BYTE events are the words of the decoded bytes in order where CTRL bit 0 is 1 and none where it is 0,
its last event is DONE, no ISR bit falls, and channels, configuration, LAST_ERR and ports are as before. -/
def Obligations.DecodeCompletes : Prop :=
  ∀ s : State, s.ch0.state = .closed → s.ch1.state = .closed → s.bitTicks ≠ 0#32 →
    ∃ t, exec .decode s = .next t ∧
      t.ch0 = s.ch0 ∧ t.ch1 = s.ch1 ∧
      t.ctrl = s.ctrl ∧ t.bitTicks = s.bitTicks ∧ t.framing = s.framing ∧ t.endMarker = s.endMarker ∧
      t.markers = s.markers ∧ t.ier = s.ier ∧ t.lastErr = s.lastErr ∧ t.edgeDepth = s.edgeDepth ∧
      t.evtTaken = s.evtTaken ∧ t.inputs = s.inputs ∧ t.freeCount = s.freeCount ∧
      t.bytesDecoded = BitVec.ofNat 32 (decodedBytes s).length ∧
      t.ambigCount = BitVec.ofNat 32 ((decodedBytes s).filter (·.ambig)).length ∧
      t.bit0Count = BitVec.ofNat 32 ((decodedBytes s).filter (·.b0)).length ∧
      t.bytesScanned = BitVec.ofNat 32 (decodedBytes s).length ∧
      (∃ ev, t.out = s.out ++ ev ++ [0x8#4 ++ 0#28 ++ t.bytesDecoded] ∧
        ev.filter (fun w => decide (w.extractLsb' 60 4 = 0x4#4)) =
          if s.ctrl.getLsbD 0 then (decodedBytes s).map byteWord else []) ∧
      (∀ b, s.isr.getLsbD b = true → t.isr.getLsbD b = true) ∧
      t.isr.getLsbD 8 = true ∧
      t.isr.getLsbD 3 = (s.isr.getLsbD 3 || (decodedBytes s).any (·.ambig)) ∧
      t.isr.getLsbD 4 = (s.isr.getLsbD 4 || (decodedBytes s).any (·.b0)) ∧
      (∀ b, b < 3 ∨ 9 ≤ b → t.isr.getLsbD b = s.isr.getLsbD b)

/-- R169 and R170: each decoded byte starts at or after the cursor of the one before it, hence at least two ticks later,
and there are at most half as many bytes as entries. -/
def Obligations.DecodedBytesAreSpacedAndBounded : Prop :=
  ∀ s : State, s.bitTicks ≠ 0#32 → framingLegal s.framing = true →
    (∀ k a b, (decodedBytes s)[k]? = some a → (decodedBytes s)[k + 1]? = some b →
      cursorAfter (decodeCfg s) a ≤ b.start.toNat ∧
      a.start.toNat + 2 * s.bitTicks.toNat ≤ b.start.toNat ∧ a.start.toNat + 2 ≤ b.start.toNat) ∧
    2 * (decodedBytes s).length ≤ s.ch0.count.toNat

/-- R171: two DECODEs of the same channels under the same configuration emit the same events and leave the same
counters, whatever else differs between the states they start from. -/
def Obligations.DecodeIsRepeatable : Prop :=
  ∀ s u t v : State,
    s.ch0 = u.ch0 → s.ch1 = u.ch1 → s.freeCount = u.freeCount →
    s.ctrl = u.ctrl → s.bitTicks = u.bitTicks → s.framing = u.framing → s.endMarker = u.endMarker →
    s.markers = u.markers →
    s.ch0.state = .closed → s.ch1.state = .closed → s.bitTicks ≠ 0#32 →
    exec .decode s = .next t → exec .decode u = .next v →
    (∃ ev, t.out = s.out ++ ev ∧ v.out = u.out ++ ev) ∧
    t.bytesDecoded = v.bytesDecoded ∧ t.ambigCount = v.ambigCount ∧ t.bit0Count = v.bit0Count ∧
    t.bytesScanned = v.bytesScanned ∧ t.framesFound = v.framesFound ∧ t.framesDropped = v.framesDropped ∧
    t.resyncDiscards = v.resyncDiscards

/-! ### The frame assembler (44_frame_assembler.md) -/

/-- R181: the lookup answers the type of the smallest valid entry that holds the byte, and nothing where there is none. -/
def Obligations.MarkerLookupTakesTheSmallestIndex : Prop :=
  ∀ (s : State) (v : Byte),
    (∀ ty, lookupMarker s v = some ty ↔
      ∃ n : Fin 8, s.markers[n].getLsbD 31 = true ∧ s.markers[n].extractLsb' 0 8 = v ∧
        s.markers[n].extractLsb' 8 4 = ty ∧
        ∀ m : Fin 8, m < n → ¬ (s.markers[m].getLsbD 31 = true ∧ s.markers[m].extractLsb' 0 8 = v)) ∧
    (lookupMarker s v = none ↔
      ∀ n : Fin 8, ¬ (s.markers[n].getLsbD 31 = true ∧ s.markers[n].extractLsb' 0 8 = v))

/-- The resync of R182: it fires where there is a previous byte and the gap exceeds the tolerance, strictly, or the
direction changed; it counts a discard where a frame was being built; the byte becomes the previous one. -/
def Obligations.ResyncPrecedesTheTransition : Prop :=
  ∀ (s : State) (t : Time) (dir : Direction),
    let fires := s.asm.havePrev = true ∧
      (s.asm.prevTime.toNat + (s.framing.extractLsb' 16 16).toNat * s.bitTicks.toNat < t.toNat ∨
        dir ≠ s.asm.prevDir)
    (fires → s.asm.state ≠ .idle →
      resync t dir s = { s with
        resyncDiscards := s.resyncDiscards + 1#32
        isr := s.isr ||| 0x00000080#32
        asm := { s.asm with state := .idle, havePrev := true, prevTime := t, prevDir := dir } }) ∧
    (fires → s.asm.state = .idle →
      resync t dir s = { s with asm := { s.asm with havePrev := true, prevTime := t, prevDir := dir } }) ∧
    (¬ fires →
      resync t dir s = { s with asm := { s.asm with havePrev := true, prevTime := t, prevDir := dir } })

/-- R184, R185, R186, R188 with R183 and R191: what an accepted ASM_BYTE does in each state but End, after the resync
`r`; every field not named is as the resync leaves it. -/
def Obligations.AsmByteBuildsTheFrame : Prop :=
  ∀ (s : State) (dir : Direction) (v : Byte) (t : Time),
    s.bitTicks ≠ 0#32 → ¬ (s.asm.havePrev = true ∧ t.toNat < s.asm.prevTime.toNat) →
    let r := resync t dir s
    (r.asm.state = .idle → lookupMarker s v = none →
      exec (.asmByte dir v t) s = .next { r with bytesScanned := s.bytesScanned + 1#32 }) ∧
    (∀ ty, r.asm.state = .idle → lookupMarker s v = some ty →
      exec (.asmByte dir v t) s = .next { r with
        bytesScanned := s.bytesScanned + 1#32
        asm := { r.asm with state := .len, fMarker := v, fType := ty, fStart := s.bytesScanned } }) ∧
    (r.asm.state = .len →
      exec (.asmByte dir v t) s = .next { r with
        bytesScanned := s.bytesScanned + 1#32
        asm := { r.asm with state := if v = 0#8 then .sum else .data, fLen := v, fCount := 0#8 } }) ∧
    (r.asm.state = .data → r.asm.fCount.toNat < 255 →
      ∃ m, exec (.asmByte dir v t) s = .next { r with
          bytesScanned := s.bytesScanned + 1#32
          asm := { r.asm with
            state := if r.asm.fCount + 1#8 = r.asm.fLen then .sum else .data
            fCount := r.asm.fCount + 1#8
            fData := m } } ∧
        cellsRead m r.asm.fCount.toNat = some v ∧
        ∀ p, p ≠ r.asm.fCount.toNat → cellsRead m p = cellsRead r.asm.fData p) ∧
    (r.asm.state = .sum →
      exec (.asmByte dir v t) s = .next { r with
        bytesScanned := s.bytesScanned + 1#32
        asm := { r.asm with state := .end_, fSum := v } })

/-- R189 and R190 with R183 and R191: what an accepted ASM_BYTE does in End, after the resync `r`: the frame is validated
and emitted, or dropped and counted, and the state is Idle either way. -/
def Obligations.AsmByteEndsTheFrame : Prop :=
  ∀ (s : State) (dir : Direction) (v : Byte) (t : Time),
    s.bitTicks ≠ 0#32 → ¬ (s.asm.havePrev = true ∧ t.toNat < s.asm.prevTime.toNat) →
    let r := resync t dir s
    r.asm.state = .end_ →
    let payload := (List.range r.asm.fLen.toNat).map (payloadAt r)
    let valid := v = s.endMarker.extractLsb' 0 8 ∧
      (r.asm.fLen.toNat + (payload.map BitVec.toNat).sum + r.asm.fSum.toNat) % 256 = 0
    (valid →
      exec (.asmByte dir v t) s = .next { r with
        bytesScanned := s.bytesScanned + 1#32
        framesFound := s.framesFound + 1#32
        isr := r.isr ||| 0x00000020#32
        out := if s.ctrl.getLsbD 1 then
            s.out ++ [eventWord (.frameHdr r.asm.fType r.asm.fMarker r.asm.fLen r.asm.fSum r.asm.fStart)]
              ++ payload.mapIdx (fun p d => eventWord (.frameData (BitVec.ofNat 8 p) d))
              ++ [eventWord (.frameEnd v s.bytesScanned)]
          else s.out
        asm := { r.asm with state := .idle } }) ∧
    (¬ valid →
      exec (.asmByte dir v t) s = .next { r with
        bytesScanned := s.bytesScanned + 1#32
        framesDropped := s.framesDropped + 1#32
        isr := r.isr ||| 0x00000040#32
        asm := { r.asm with state := .idle } })

/-- R187: the checksum test, and the one checksum a sender must send. -/
def Obligations.ChecksumOfASender : Prop :=
  ∀ (s : State) (cs : Byte),
    let sum := ((List.range s.asm.fLen.toNat).map fun p => (payloadAt s p).toNat).sum
    (checksumOK s = true ↔ (s.asm.fLen.toNat + sum + s.asm.fSum.toNat) % 256 = 0) ∧
    (checksumOK { s with asm := { s.asm with fSum := cs } } = true ↔
      cs.toNat = (256 - (s.asm.fLen.toNat + sum) % 256) % 256)

/-- R192: ASM_CLEAR returns the assembler to Idle without a previous byte and zeroes its four counters; nothing else
changes (that the frame fields keep what they hold is log 17). -/
def Obligations.AsmClearEffect : Prop :=
  ∀ s : State, exec .asmClear s = .next { s with
    asm := { s.asm with state := .idle, havePrev := false }
    bytesScanned := 0#32
    framesFound := 0#32
    framesDropped := 0#32
    resyncDiscards := 0#32 }

/-- A whole frame fed by the host to an Idle assembler, every length from 0 to 255, whether or not bytes came before it:
with a valid marker, a right checksum, the terminator and no resync inside it, exactly its events are emitted and one
frame is counted (R193; the document's acceptance property, R194, for every payload). -/
def Obligations.ValidFrameIsEmitted : Prop :=
  ∀ (s : State) (dir : Direction) (marker sum : Byte) (payload : List Byte) (ty : BitVec 4)
    (bytes : List (Byte × Time)),
    s.bitTicks ≠ 0#32 → s.asm.state = .idle → notBefore s bytes →
    payload.length ≤ 255 → lookupMarker s marker = some ty →
    frameSum payload sum % 256 = 0 →
    bytes.map Prod.fst = frameBytes marker payload sum (s.endMarker.extractLsb' 0 8) →
    gapsWithin ((s.framing.extractLsb' 16 16).toNat * s.bitTicks.toNat) bytes →
    ∃ t, execAll (feed dir bytes) s = .next t ∧
      t.asm.state = .idle ∧
      t.framesFound = s.framesFound + 1#32 ∧ t.framesDropped = s.framesDropped ∧
      t.resyncDiscards = s.resyncDiscards ∧
      t.bytesScanned = s.bytesScanned + BitVec.ofNat 32 bytes.length ∧
      t.out = s.out ++ (if s.ctrl.getLsbD 1 then
          [eventWord (.frameHdr ty marker (BitVec.ofNat 8 payload.length) sum s.bytesScanned)]
            ++ payload.mapIdx (fun p d => eventWord (.frameData (BitVec.ofNat 8 p) d))
            ++ [eventWord (.frameEnd (s.endMarker.extractLsb' 0 8)
                (s.bytesScanned + BitVec.ofNat 32 (payload.length + 3)))]
        else [])

/-- The same stream with a wrong checksum or a wrong terminator: nothing is emitted, one frame is counted as dropped,
and the state is Idle (R193; the document's rejection property, R195, for every payload). -/
def Obligations.InvalidFrameIsDropped : Prop :=
  ∀ (s : State) (dir : Direction) (marker sum terminator : Byte) (payload : List Byte) (ty : BitVec 4)
    (bytes : List (Byte × Time)),
    s.bitTicks ≠ 0#32 → s.asm.state = .idle → notBefore s bytes →
    payload.length ≤ 255 → lookupMarker s marker = some ty →
    (frameSum payload sum % 256 ≠ 0 ∨ terminator ≠ s.endMarker.extractLsb' 0 8) →
    bytes.map Prod.fst = frameBytes marker payload sum terminator →
    gapsWithin ((s.framing.extractLsb' 16 16).toNat * s.bitTicks.toNat) bytes →
    ∃ t, execAll (feed dir bytes) s = .next t ∧
      t.asm.state = .idle ∧
      t.framesFound = s.framesFound ∧ t.framesDropped = s.framesDropped + 1#32 ∧
      t.resyncDiscards = s.resyncDiscards ∧
      t.bytesScanned = s.bytesScanned + BitVec.ofNat 32 bytes.length ∧
      t.out = s.out

/-! ### The control commands (45_control.md) -/

/-- R205: NOP changes nothing. -/
def Obligations.NopChangesNothing : Prop :=
  ∀ s : State, exec .nop s = .next s

/-- The mapped registers and what a read of each gives, written out from the rules R30 to R50 of 10_state.md. -/
def Sys2Proof.Machine.csrReadTable (s : State) : List (BitVec 8 × CsrWord) :=
  [(0x00#8, 0x4D430001#32), (0x01#8, s.ctrl &&& 0x00000007#32), (0x02#8, s.bitTicks),
   (0x03#8, s.framing &&& 0xFFFF00FF#32), (0x04#8, s.endMarker &&& 0x000000FF#32),
   (0x08#8, s.markers[0] &&& 0x80000FFF#32), (0x09#8, s.markers[1] &&& 0x80000FFF#32),
   (0x0A#8, s.markers[2] &&& 0x80000FFF#32), (0x0B#8, s.markers[3] &&& 0x80000FFF#32),
   (0x0C#8, s.markers[4] &&& 0x80000FFF#32), (0x0D#8, s.markers[5] &&& 0x80000FFF#32),
   (0x0E#8, s.markers[6] &&& 0x80000FFF#32), (0x0F#8, s.markers[7] &&& 0x80000FFF#32),
   (0x10#8, 0#24 ++ BitVec.ofBool s.asm.havePrev ++ asmStateCode s.asm.state
      ++ chanStateCode s.ch1.state ++ chanStateCode s.ch0.state),
   (0x11#8, s.isr &&& 0x000001FF#32), (0x12#8, s.ier &&& 0x000001FF#32),
   (0x13#8, s.lastErr &&& 0x00000FFF#32), (0x14#8, s.ch0.count), (0x15#8, s.ch1.count),
   (0x16#8, s.bytesScanned), (0x17#8, s.framesFound), (0x18#8, s.framesDropped), (0x19#8, s.resyncDiscards),
   (0x1A#8, s.bytesDecoded), (0x1B#8, s.ambigCount), (0x1C#8, s.bit0Count), (0x1D#8, s.edgeDepth)]

/-- R206: CSR_RD of a mapped register emits one CSRV event with its value and changes nothing else; of an unmapped
index it raises BAD_CSR (R49). The codes that STATUS shows are those of R26 and R28. -/
def Obligations.CsrReadAnswers : Prop :=
  (asmStateCode .idle = 0#3 ∧ asmStateCode .len = 1#3 ∧ asmStateCode .data = 2#3 ∧ asmStateCode .sum = 3#3 ∧
    asmStateCode .end_ = 4#3) ∧
  (chanStateCode .empty = 0#2 ∧ chanStateCode .open_ = 1#2 ∧ chanStateCode .closed = 2#2 ∧
    chanStateCode .failed = 3#2) ∧
  ∀ s : State,
    (∀ p ∈ csrReadTable s, exec (.csrRd p.1) s =
      .next { s with out := s.out ++ [0x3#4 ++ 0#20 ++ p.1 ++ p.2] }) ∧
    (∀ i : BitVec 8, (5 ≤ i.toNat ∧ i.toNat ≤ 7) ∨ 0x1E ≤ i.toNat →
      exec (.csrRd i) s = .next (raiseError .badCsr (encode (.csrRd i)) s))

/-- The writable registers and their write masks, written out from R207. -/
def Sys2Proof.Machine.csrWriteTable : List (Csr × CsrWord) :=
  [(.ctrl, 0x00000007#32), (.bitTicks, 0xFFFFFFFF#32), (.framing, 0xFFFF00FF#32), (.endMarker, 0x000000FF#32),
   (.marker 0, 0x80000FFF#32), (.marker 1, 0x80000FFF#32), (.marker 2, 0x80000FFF#32), (.marker 3, 0x80000FFF#32),
   (.marker 4, 0x80000FFF#32), (.marker 5, 0x80000FFF#32), (.marker 6, 0x80000FFF#32), (.marker 7, 0x80000FFF#32),
   (.ier, 0x000001FF#32)]

/-- R207: an accepted CSR_WR of a writable register stores the value under its mask; every other register reads as
before, and channels, assembler, events and ports are as before. -/
def Obligations.CsrWriteStoresTheMaskedValue : Prop :=
  ∀ (s : State) (d : CsrWord), ∀ p ∈ csrWriteTable,
    (p.1 = .bitTicks → d ≠ 0#32) →
    (p.1 = .framing → 1 ≤ (d.extractLsb' 0 4).toNat ∧ (d.extractLsb' 0 4).toNat ≤ 8) →
    ∃ t, exec (.csrWr (csrIndex p.1) d) s = .next t ∧
      csrValue t p.1 = d &&& p.2 ∧
      (∀ r, r ≠ p.1 → csrValue t r = csrValue s r) ∧
      t.ch0 = s.ch0 ∧ t.ch1 = s.ch1 ∧ t.asm = s.asm ∧ t.isr = s.isr ∧ t.lastErr = s.lastErr ∧
      t.out = s.out ∧ t.evtTaken = s.evtTaken ∧ t.inputs = s.inputs ∧ t.freeCount = s.freeCount

/-- R207 and R37: an accepted CSR_WR of ISR clears exactly the bits written as 1, of bits 8 to 0, and changes nothing
else. -/
def Obligations.CsrWriteOfIsrClears : Prop :=
  ∀ (s : State) (d : CsrWord),
    ∃ t, exec (.csrWr 0x11#8 d) s = .next t ∧
      t = { s with isr := t.isr } ∧
      ∀ b, t.isr.getLsbD b = (s.isr.getLsbD b && !(decide (b < 9) && d.getLsbD b))

/-- The refusals of ASM_BYTE and CSR_WR in the order of R225, with the illegal values of R208. -/
def Obligations.AssemblerAndRegisterRefusals : Prop :=
  (∀ s dir v t, s.bitTicks = 0#32 →
    exec (.asmByte dir v t) s = .next (raiseError .notConfigured (encode (.asmByte dir v t)) s)) ∧
  (∀ s dir v (t : Time), s.bitTicks ≠ 0#32 → s.asm.havePrev = true → t.toNat < s.asm.prevTime.toNat →
    exec (.asmByte dir v t) s = .next (raiseError .asmTimeOrder (encode (.asmByte dir v t)) s)) ∧
  (∀ s (i : BitVec 8) d, (5 ≤ i.toNat ∧ i.toNat ≤ 7) ∨ 0x1E ≤ i.toNat →
    exec (.csrWr i d) s = .next (raiseError .badCsr (encode (.csrWr i d)) s)) ∧
  (∀ s (i : BitVec 8) d, i = 0x00#8 ∨ i = 0x10#8 ∨ (0x13 ≤ i.toNat ∧ i.toNat ≤ 0x1D) →
    exec (.csrWr i d) s = .next (raiseError .csrReadOnly (encode (.csrWr i d)) s)) ∧
  (∀ s, exec (.csrWr 0x02#8 0#32) s = .next (raiseError .badCsrValue (encode (.csrWr 0x02#8 0#32)) s)) ∧
  (∀ s (d : CsrWord), d.extractLsb' 0 4 = 0#4 ∨ 8 < (d.extractLsb' 0 4).toNat →
    exec (.csrWr 0x03#8 d) s = .next (raiseError .badCsrValue (encode (.csrWr 0x03#8 d)) s))

/-- R209: CLEAR returns channels, assembler, counters, ISR and LAST_ERR to their reset values and keeps the
configuration, IER, the events and the ports. The fields that become unspecified are not stated. -/
def Obligations.ClearEffect : Prop :=
  ∀ s : State, ∃ t, exec .clear s = .next t ∧
    (∀ c, (t.chan c).state = .empty ∧ (t.chan c).count = 0#32) ∧
    t.asm.state = .idle ∧ t.asm.havePrev = false ∧
    t.bytesScanned = 0#32 ∧ t.framesFound = 0#32 ∧ t.framesDropped = 0#32 ∧ t.resyncDiscards = 0#32 ∧
    t.bytesDecoded = 0#32 ∧ t.ambigCount = 0#32 ∧ t.bit0Count = 0#32 ∧
    t.isr = 0#32 ∧ t.lastErr = 0#32 ∧ irq t = false ∧
    t.ctrl = s.ctrl ∧ t.bitTicks = s.bitTicks ∧ t.framing = s.framing ∧ t.endMarker = s.endMarker ∧
    t.markers = s.markers ∧ t.ier = s.ier ∧ t.edgeDepth = s.edgeDepth ∧
    t.out = s.out ∧ t.evtTaken = s.evtTaken ∧ t.inputs = s.inputs

/-! ### The interrupt (60_exceptions.md R229 to R231) -/

/-- R229: irq is 1 exactly where some source is both pending and enabled; it is a function of ISR and IER alone, and 0 after
reset. -/
def Obligations.IrqIsTheOrOfEnabledSources : Prop :=
  (∀ s : State,
    (irq s = true ↔ ∃ b, b < 9 ∧ s.isr.getLsbD b = true ∧ s.ier.getLsbD b = true) ∧
    (irq s = true ↔ s.isr &&& s.ier &&& 0x000001FF#32 ≠ 0#32)) ∧
  (∀ s t : State, s.isr = t.isr → s.ier = t.ier → irq s = irq t) ∧
  irq State.reset = false

/-- R231: over every step of the block, an ISR bit becomes 0 only by a CSR_WR of ISR that writes 1 to it, by CLEAR, or by
reset. -/
def Obligations.IsrBitsAreSticky : Prop :=
  ∀ (s t : State) (b : Nat),
    step s = .next t → s.isr.getLsbD b = true → t.isr.getLsbD b = false →
    ∃ rest, s.inputs = .reset :: rest ∨ s.inputs = .command (encode .clear) :: rest ∨
      ∃ d : CsrWord, d.getLsbD b = true ∧ s.inputs = .command (encode (.csrWr 0x11#8 d)) :: rest

/-! ### Promises of the whole machine -/

/-- 10_state.md R26: over every step, a channel's state stays or takes one of the listed transitions, each with the command
that makes it; and the states' codes. -/
def Obligations.ChannelLifecycle : Prop :=
  (chanStateCode .empty = 0#2 ∧ chanStateCode .open_ = 1#2 ∧ chanStateCode .closed = 2#2 ∧
    chanStateCode .failed = 3#2) ∧
  ∀ (s t : State) (c : Channel), step s = .next t →
    (t.chan c).state = (s.chan c).state ∨
    ((s.chan c).state = .empty ∧ (t.chan c).state = .open_ ∧
      ∃ l time rest, s.inputs = .command (encode (.sample c l time)) :: rest) ∨
    ((s.chan c).state = .open_ ∧ (t.chan c).state = .closed ∧
      ∃ rest, s.inputs = .command (encode (.close c)) :: rest) ∨
    ((s.chan c).state = .empty ∧ (t.chan c).state = .failed ∧
      ∃ rest, s.inputs = .command (encode (.close c)) :: rest) ∨
    ((s.chan c).state = .open_ ∧ (t.chan c).state = .failed ∧
      ∃ rest, (∃ l time, s.inputs = .command (encode (.sample c l time)) :: rest) ∨
        s.inputs = .command (encode (.close c)) :: rest) ∨
    ((t.chan c).state = .empty ∧
      ∃ rest, s.inputs = .reset :: rest ∨ s.inputs = .command (encode .clear) :: rest)

/-- 20_memory.md R63: over every step but reset and CLEAR, the entries below count stay as they are and count never
falls; on a CLOSED (or FAILED) channel the edge memory and count do not change at all. -/
def Obligations.EdgeMemoryWriteDiscipline : Prop :=
  ∀ (s t : State) (c : Channel), step s = .next t →
    (∀ rest, s.inputs ≠ .reset :: rest ∧ s.inputs ≠ .command (encode .clear) :: rest) →
    (∀ k, k < (s.chan c).count.toNat → edgeAt t c k = edgeAt s c k) ∧
    (s.chan c).count.toNat ≤ (t.chan c).count.toNat ∧
    ((s.chan c).state = .closed ∨ (s.chan c).state = .failed →
      (t.chan c).edges = (s.chan c).edges ∧ (t.chan c).count = (s.chan c).count)

/-- 20_memory.md R73: over every step but reset, the events emitted before stay, in order, and new ones stand after them. -/
def Obligations.EventsOnlyAppend : Prop :=
  ∀ s t : State, step s = .next t → (∀ rest, s.inputs ≠ .reset :: rest) → ∃ ev, t.out = s.out ++ ev

/-- Every step keeps the channels good: each edge memory lists exactly the entries below count, at most EDGE_DEPTH of them,
times rise, no three consecutive entries share a level, and the record agrees with them (10_state.md R25, 20_memory.md R61,
R62, 41_edge_detector.md R129, R132). -/
def Obligations.StepKeepsChannelsGood : Prop :=
  ∀ s t : State, ChannelsInv s → step s = .next t → ChannelsInv t

/-- Every step keeps the assembler good: the payload buffer in its canonical form and inside its 255 positions, the
frame being built within its declared length, every received byte in the buffer (10_state.md R28, 20_memory.md R64). -/
def Obligations.StepKeepsAssemblerGood : Prop :=
  ∀ s t : State, AssemblerInv s → step s = .next t → AssemblerInv t

/-- Every step keeps the registers and the ports good: reserved bits read 0, DATA_BITS stays legal (10_state.md R31 to R39,
R51), no event is taken before it is emitted (R22), and no reserved event tag is ever emitted (30_encoding.md R95). -/
def Obligations.StepKeepsRegistersAndPortsGood : Prop :=
  ∀ s t : State, step s = .next t →
    (RegistersInv s → RegistersInv t) ∧ (PortsInv s → PortsInv t)

/-- The block never stops: from every good state, the step answers a next state, whatever the host does
(60_exceptions.md R220, 70_reset_and_hazards.md R262; EdgeAppend is never called with count = EDGE_DEPTH, 20_memory.md
R62, and the payload buffer cannot overflow, R64). -/
def Obligations.GoodStatesNeverStop : Prop :=
  ∀ s : State, Inv s → ∃ t, step s = .next t

/-- The state right after reset is good. -/
def Obligations.ResetStateIsGood : Prop := Inv State.reset

/-! ### The sample source (40_level_quantizer.md) -/

/-- R111 and R113: under thresholds with LOW_TH at most HIGH_TH (R112) the quantizer answers Low below LOW_TH, Mid from it
to below HIGH_TH, and High from HIGH_TH on; it is monotonic in the voltage, on the codes of R110; under the default
thresholds 0.3 and 1.2 it classifies 0.3 and 0.75 as Mid and 1.2 as High. -/
def Obligations.QuantizerIsMonotonic : Prop :=
  (∀ (th : Thresholds ℝ) (v : ℝ),
    (v < th.low → quantize th v = .low) ∧
    (th.low ≤ v → v < th.high → quantize th v = .mid) ∧
    (th.high ≤ v → quantize th v = .high)) ∧
  (∀ (th : Thresholds ℝ) (v1 v2 : ℝ), v1 ≤ v2 →
    (quantize th v1).code.toNat ≤ (quantize th v2).code.toNat) ∧
  defaultThresholds.low = 3 / 10 ∧ defaultThresholds.high = 6 / 5 ∧
  quantize defaultThresholds (3 / 10) = .mid ∧
  quantize defaultThresholds (3 / 4) = .mid ∧
  quantize defaultThresholds (6 / 5) = .high
end

