-- ==== Sys2Proof/Laws/Decode.lean ====
section
/-! SUPPORT. The encodings as numbers, the must-be-zero masks as fields that are 0, and the enumeration codes. -/

namespace Sys2Proof

/-- A concatenation as a number. -/
theorem append_toNat {m n : Nat} (x : BitVec m) (y : BitVec n) :
    (x ++ y).toNat = x.toNat * 2 ^ n + y.toNat := by
  rw [BitVec.toNat_append, ← Nat.shiftLeft_add_eq_or_of_lt y.isLt, Nat.shiftLeft_eq]

/-- A bit field as a number. -/
theorem field_toNat {n : Nat} (w : BitVec n) (lo len : Nat) :
    (w.extractLsb' lo len).toNat = w.toNat / 2 ^ lo % 2 ^ len := by
  rw [BitVec.extractLsb'_toNat, Nat.shiftRight_eq_div_pow]

/-! ### Each command's word as a number (30_encoding.md R82) -/

theorem encode_nop_toNat : (encode .nop).toNat = 0 := rfl

theorem encode_sample_toNat (c : Channel) (l : BitVec 2) (t : Time) :
    (encode (.sample c l t)).toNat = 1 * 2 ^ 60 + c.bit.toNat * 2 ^ 59 + l.toNat * 2 ^ 57 + t.toNat := by
  have h : (encode (.sample c l t)).toNat = (1#4 ++ c.bit ++ l ++ 0#9 ++ t).toNat := rfl
  rw [h]
  simp only [append_toNat, BitVec.toNat_ofNat]
  omega

theorem encode_close_toNat (c : Channel) :
    (encode (.close c)).toNat = 2 * 2 ^ 60 + c.bit.toNat * 2 ^ 59 := by
  have h : (encode (.close c)).toNat = (2#4 ++ c.bit ++ 0#59).toNat := rfl
  rw [h]
  simp only [append_toNat, BitVec.toNat_ofNat]
  omega

theorem encode_query_toNat (c : Channel) (t : Time) :
    (encode (.query c t)).toNat = 3 * 2 ^ 60 + c.bit.toNat * 2 ^ 59 + t.toNat := by
  have h : (encode (.query c t)).toNat = (3#4 ++ c.bit ++ 0#11 ++ t).toNat := rfl
  rw [h]
  simp only [append_toNat, BitVec.toNat_ofNat]
  omega

theorem encode_decode_toNat : (encode .decode).toNat = 4 * 2 ^ 60 := rfl

theorem encode_asmByte_toNat (d : Direction) (v : Byte) (t : Time) :
    (encode (.asmByte d v t)).toNat
      = 5 * 2 ^ 60 + d.bit.toNat * 2 ^ 59 + v.toNat * 2 ^ 48 + t.toNat := by
  have h : (encode (.asmByte d v t)).toNat = (5#4 ++ d.bit ++ 0#3 ++ v ++ t).toNat := rfl
  rw [h]
  simp only [append_toNat, BitVec.toNat_ofNat]
  omega

theorem encode_asmClear_toNat : (encode .asmClear).toNat = 6 * 2 ^ 60 := rfl

theorem encode_edgeRd_toNat (c : Channel) (k : BitVec 32) :
    (encode (.edgeRd c k)).toNat = 7 * 2 ^ 60 + c.bit.toNat * 2 ^ 59 + k.toNat := by
  have h : (encode (.edgeRd c k)).toNat = (7#4 ++ c.bit ++ 0#27 ++ k).toNat := rfl
  rw [h]
  simp only [append_toNat, BitVec.toNat_ofNat]
  omega

theorem encode_csrRd_toNat (i : BitVec 8) :
    (encode (.csrRd i)).toNat = 8 * 2 ^ 60 + i.toNat * 2 ^ 32 := by
  have h : (encode (.csrRd i)).toNat = (8#4 ++ 0#20 ++ i ++ 0#32).toNat := rfl
  rw [h]
  simp only [append_toNat, BitVec.toNat_ofNat]
  omega

theorem encode_csrWr_toNat (i : BitVec 8) (d : CsrWord) :
    (encode (.csrWr i d)).toNat = 9 * 2 ^ 60 + i.toNat * 2 ^ 32 + d.toNat := by
  have h : (encode (.csrWr i d)).toNat = (9#4 ++ 0#20 ++ i ++ d).toNat := rfl
  rw [h]
  simp only [append_toNat, BitVec.toNat_ofNat]
  omega

theorem encode_clear_toNat : (encode .clear).toNat = 10 * 2 ^ 60 := rfl

/-! ### Must-be-zero masks (30_encoding.md R84) -/

/-- A mask of the bits `lo` to `lo + len - 1` clears a word exactly where that field of the word is 0. -/
theorem and_eq_zero_iff_field (w m : Word) (lo len : Nat) (hlen : lo + len ≤ 64)
    (hm : ∀ i < 64, m.getLsbD i = (decide (lo ≤ i) && decide (i < lo + len))) :
    w &&& m = 0#64 ↔ w.extractLsb' lo len = 0#len := by
  constructor
  · intro h
    apply BitVec.eq_of_getLsbD_eq
    intro i hi
    have hb := congrArg (fun x : Word => x.getLsbD (lo + i)) h
    simp only [BitVec.getLsbD_and, hm (lo + i) (by omega)] at hb
    simpa [BitVec.getLsbD_extractLsb', hi] using hb
  · intro h
    apply BitVec.eq_of_getLsbD_eq
    intro i hi
    simp only [BitVec.getLsbD_and, hm i hi, BitVec.getLsbD_zero]
    by_cases h1 : lo ≤ i ∧ i < lo + len
    · have hb := congrArg (fun x : BitVec len => x.getLsbD (i - lo)) h
      simp only [BitVec.getLsbD_extractLsb', BitVec.getLsbD_zero,
        show lo + (i - lo) = i by omega, show i - lo < len by omega, decide_true, Bool.true_and] at hb
      simp [hb]
    · simp only [Bool.and_eq_false_iff]
      right
      by_cases h2 : lo ≤ i
      · right; simpa using fun h3 => h1 ⟨h2, h3⟩
      · left; simpa using h2

theorem rsvMask_z_iff (w : Word) : w &&& rsvMask .z = 0#64 ↔ w.extractLsb' 0 60 = 0#60 :=
  and_eq_zero_iff_field w _ 0 60 (by omega) (by decide)

theorem rsvMask_c_iff (w : Word) : w &&& rsvMask .c = 0#64 ↔ w.extractLsb' 0 59 = 0#59 :=
  and_eq_zero_iff_field w _ 0 59 (by omega) (by decide)

theorem rsvMask_s_iff (w : Word) : w &&& rsvMask .s = 0#64 ↔ w.extractLsb' 48 9 = 0#9 :=
  and_eq_zero_iff_field w _ 48 9 (by omega) (by decide)

theorem rsvMask_q_iff (w : Word) : w &&& rsvMask .q = 0#64 ↔ w.extractLsb' 48 11 = 0#11 :=
  and_eq_zero_iff_field w _ 48 11 (by omega) (by decide)

theorem rsvMask_b_iff (w : Word) : w &&& rsvMask .b = 0#64 ↔ w.extractLsb' 56 3 = 0#3 :=
  and_eq_zero_iff_field w _ 56 3 (by omega) (by decide)

theorem rsvMask_i_iff (w : Word) : w &&& rsvMask .i = 0#64 ↔ w.extractLsb' 32 27 = 0#27 :=
  and_eq_zero_iff_field w _ 32 27 (by omega) (by decide)

theorem rsvMask_rw_iff (w : Word) : w &&& rsvMask .rw = 0#64 ↔ w.extractLsb' 40 20 = 0#20 :=
  and_eq_zero_iff_field w _ 40 20 (by omega) (by decide)

theorem rsvMask_rr_eq : rsvMask .rr = rsvMask .rw ||| 0x00000000FFFFFFFF#64 := by decide

theorem rsvMask_rr_iff (w : Word) :
    w &&& rsvMask .rr = 0#64 ↔ w.extractLsb' 40 20 = 0#20 ∧ w.extractLsb' 0 32 = 0#32 := by
  rw [rsvMask_rr_eq, BitVec.and_or_distrib_left, BitVec.or_eq_zero_iff, rsvMask_rw_iff,
    and_eq_zero_iff_field w 0x00000000FFFFFFFF#64 0 32 (by omega) (by decide)]

/-! ### Enumeration codes (30_encoding.md R105) -/

@[simp] theorem channelOfBit_bit (c : Channel) : channelOfBit c.bit = c := by cases c <;> rfl

@[simp] theorem directionOfBit_bit (d : Direction) : directionOfBit d.bit = d := by cases d <;> rfl

@[simp] theorem bit_channelOfBit (b : BitVec 1) : (channelOfBit b).bit = b := by
  revert b; decide

@[simp] theorem bit_directionOfBit (b : BitVec 1) : (directionOfBit b).bit = b := by
  revert b; decide

@[simp] theorem levelOfCode_code (l : Level) : levelOfCode l.code = some l := by cases l <;> rfl

/-- A code names a level exactly where it is that level's code (40_level_quantizer.md R110). -/
theorem levelOfCode_eq_some {c : BitVec 2} {l : Level} : levelOfCode c = some l ↔ c = l.code := by
  cases l <;> (revert c; decide)

/-- The reserved code names no level (40_level_quantizer.md R114). -/
theorem levelOfCode_eq_none {c : BitVec 2} : levelOfCode c = none ↔ c = 3#2 := by
  revert c; decide

end Sys2Proof
end

