-- ==== Sys2Proof/Laws/State.lean ====
section
/-! SUPPORT. One lemma per field per update of the state, so that no later proof unfolds a record update. -/

namespace Sys2Proof.Machine

/-! ### Channels -/

@[simp] theorem chan_a (s : State) : s.chan .a = s.ch0 := rfl

@[simp] theorem chan_b (s : State) : s.chan .b = s.ch1 := rfl

@[simp] theorem setChan_a (s : State) (r : Chan) : s.setChan .a r = { s with ch0 := r } := rfl

@[simp] theorem setChan_b (s : State) (r : Chan) : s.setChan .b r = { s with ch1 := r } := rfl

@[simp] theorem setChan_chan_self (s : State) (c : Channel) (r : Chan) : (s.setChan c r).chan c = r := by
  cases c <;> rfl

theorem setChan_chan_of_ne (s : State) (c d : Channel) (r : Chan) (h : d ≠ c) :
    (s.setChan c r).chan d = s.chan d := by
  cases c <;> cases d <;> first | rfl | exact absurd rfl h

@[simp] theorem setChan_setChan (s : State) (c : Channel) (r q : Chan) :
    (s.setChan c r).setChan c q = s.setChan c q := by
  cases c <;> rfl

@[simp] theorem setChan_chan (s : State) (c : Channel) : s.setChan c (s.chan c) = s := by
  cases c <;> rfl

@[simp] theorem setChan_asm (s : State) (c : Channel) (r : Chan) : (s.setChan c r).asm = s.asm := by
  cases c <;> rfl

@[simp] theorem setChan_ctrl (s : State) (c : Channel) (r : Chan) : (s.setChan c r).ctrl = s.ctrl := by
  cases c <;> rfl

@[simp] theorem setChan_bitTicks (s : State) (c : Channel) (r : Chan) : (s.setChan c r).bitTicks = s.bitTicks := by
  cases c <;> rfl

@[simp] theorem setChan_framing (s : State) (c : Channel) (r : Chan) : (s.setChan c r).framing = s.framing := by
  cases c <;> rfl

@[simp] theorem setChan_endMarker (s : State) (c : Channel) (r : Chan) : (s.setChan c r).endMarker = s.endMarker := by
  cases c <;> rfl

@[simp] theorem setChan_markers (s : State) (c : Channel) (r : Chan) : (s.setChan c r).markers = s.markers := by
  cases c <;> rfl

@[simp] theorem setChan_isr (s : State) (c : Channel) (r : Chan) : (s.setChan c r).isr = s.isr := by
  cases c <;> rfl

@[simp] theorem setChan_ier (s : State) (c : Channel) (r : Chan) : (s.setChan c r).ier = s.ier := by
  cases c <;> rfl

@[simp] theorem setChan_lastErr (s : State) (c : Channel) (r : Chan) : (s.setChan c r).lastErr = s.lastErr := by
  cases c <;> rfl

@[simp] theorem setChan_bytesScanned (s : State) (c : Channel) (r : Chan) : (s.setChan c r).bytesScanned = s.bytesScanned := by
  cases c <;> rfl

@[simp] theorem setChan_framesFound (s : State) (c : Channel) (r : Chan) : (s.setChan c r).framesFound = s.framesFound := by
  cases c <;> rfl

@[simp] theorem setChan_framesDropped (s : State) (c : Channel) (r : Chan) : (s.setChan c r).framesDropped = s.framesDropped := by
  cases c <;> rfl

@[simp] theorem setChan_resyncDiscards (s : State) (c : Channel) (r : Chan) : (s.setChan c r).resyncDiscards = s.resyncDiscards := by
  cases c <;> rfl

@[simp] theorem setChan_bytesDecoded (s : State) (c : Channel) (r : Chan) : (s.setChan c r).bytesDecoded = s.bytesDecoded := by
  cases c <;> rfl

@[simp] theorem setChan_ambigCount (s : State) (c : Channel) (r : Chan) : (s.setChan c r).ambigCount = s.ambigCount := by
  cases c <;> rfl

@[simp] theorem setChan_bit0Count (s : State) (c : Channel) (r : Chan) : (s.setChan c r).bit0Count = s.bit0Count := by
  cases c <;> rfl

@[simp] theorem setChan_edgeDepth (s : State) (c : Channel) (r : Chan) : (s.setChan c r).edgeDepth = s.edgeDepth := by
  cases c <;> rfl

@[simp] theorem setChan_out (s : State) (c : Channel) (r : Chan) : (s.setChan c r).out = s.out := by
  cases c <;> rfl

@[simp] theorem setChan_evtTaken (s : State) (c : Channel) (r : Chan) : (s.setChan c r).evtTaken = s.evtTaken := by
  cases c <;> rfl

@[simp] theorem setChan_inputs (s : State) (c : Channel) (r : Chan) : (s.setChan c r).inputs = s.inputs := by
  cases c <;> rfl

@[simp] theorem setChan_freeCount (s : State) (c : Channel) (r : Chan) : (s.setChan c r).freeCount = s.freeCount := by
  cases c <;> rfl

/-! ### Sticky interrupt bits -/

@[simp] theorem setIsr_ch0 (b : IsrBit) (s : State) : (setIsr b s).ch0 = s.ch0 := rfl

@[simp] theorem setIsr_ch1 (b : IsrBit) (s : State) : (setIsr b s).ch1 = s.ch1 := rfl

@[simp] theorem setIsr_asm (b : IsrBit) (s : State) : (setIsr b s).asm = s.asm := rfl

@[simp] theorem setIsr_ctrl (b : IsrBit) (s : State) : (setIsr b s).ctrl = s.ctrl := rfl

@[simp] theorem setIsr_bitTicks (b : IsrBit) (s : State) : (setIsr b s).bitTicks = s.bitTicks := rfl

@[simp] theorem setIsr_framing (b : IsrBit) (s : State) : (setIsr b s).framing = s.framing := rfl

@[simp] theorem setIsr_endMarker (b : IsrBit) (s : State) : (setIsr b s).endMarker = s.endMarker := rfl

@[simp] theorem setIsr_markers (b : IsrBit) (s : State) : (setIsr b s).markers = s.markers := rfl

@[simp] theorem setIsr_isr (b : IsrBit) (s : State) : (setIsr b s).isr = isrWith s.isr b := rfl

@[simp] theorem setIsr_ier (b : IsrBit) (s : State) : (setIsr b s).ier = s.ier := rfl

@[simp] theorem setIsr_lastErr (b : IsrBit) (s : State) : (setIsr b s).lastErr = s.lastErr := rfl

@[simp] theorem setIsr_bytesScanned (b : IsrBit) (s : State) : (setIsr b s).bytesScanned = s.bytesScanned := rfl

@[simp] theorem setIsr_framesFound (b : IsrBit) (s : State) : (setIsr b s).framesFound = s.framesFound := rfl

@[simp] theorem setIsr_framesDropped (b : IsrBit) (s : State) : (setIsr b s).framesDropped = s.framesDropped := rfl

@[simp] theorem setIsr_resyncDiscards (b : IsrBit) (s : State) : (setIsr b s).resyncDiscards = s.resyncDiscards := rfl

@[simp] theorem setIsr_bytesDecoded (b : IsrBit) (s : State) : (setIsr b s).bytesDecoded = s.bytesDecoded := rfl

@[simp] theorem setIsr_ambigCount (b : IsrBit) (s : State) : (setIsr b s).ambigCount = s.ambigCount := rfl

@[simp] theorem setIsr_bit0Count (b : IsrBit) (s : State) : (setIsr b s).bit0Count = s.bit0Count := rfl

@[simp] theorem setIsr_edgeDepth (b : IsrBit) (s : State) : (setIsr b s).edgeDepth = s.edgeDepth := rfl

@[simp] theorem setIsr_out (b : IsrBit) (s : State) : (setIsr b s).out = s.out := rfl

@[simp] theorem setIsr_evtTaken (b : IsrBit) (s : State) : (setIsr b s).evtTaken = s.evtTaken := rfl

@[simp] theorem setIsr_inputs (b : IsrBit) (s : State) : (setIsr b s).inputs = s.inputs := rfl

@[simp] theorem setIsr_freeCount (b : IsrBit) (s : State) : (setIsr b s).freeCount = s.freeCount := rfl

@[simp] theorem setIsr_chan (b : IsrBit) (s : State) (c : Channel) : (setIsr b s).chan c = s.chan c := by
  cases c <;> rfl

/-! ### Events -/

@[simp] theorem emit_ch0 (e : Event) (s : State) : (emit e s).ch0 = s.ch0 := rfl

@[simp] theorem emit_ch1 (e : Event) (s : State) : (emit e s).ch1 = s.ch1 := rfl

@[simp] theorem emit_asm (e : Event) (s : State) : (emit e s).asm = s.asm := rfl

@[simp] theorem emit_ctrl (e : Event) (s : State) : (emit e s).ctrl = s.ctrl := rfl

@[simp] theorem emit_bitTicks (e : Event) (s : State) : (emit e s).bitTicks = s.bitTicks := rfl

@[simp] theorem emit_framing (e : Event) (s : State) : (emit e s).framing = s.framing := rfl

@[simp] theorem emit_endMarker (e : Event) (s : State) : (emit e s).endMarker = s.endMarker := rfl

@[simp] theorem emit_markers (e : Event) (s : State) : (emit e s).markers = s.markers := rfl

@[simp] theorem emit_isr (e : Event) (s : State) : (emit e s).isr = s.isr := rfl

@[simp] theorem emit_ier (e : Event) (s : State) : (emit e s).ier = s.ier := rfl

@[simp] theorem emit_lastErr (e : Event) (s : State) : (emit e s).lastErr = s.lastErr := rfl

@[simp] theorem emit_bytesScanned (e : Event) (s : State) : (emit e s).bytesScanned = s.bytesScanned := rfl

@[simp] theorem emit_framesFound (e : Event) (s : State) : (emit e s).framesFound = s.framesFound := rfl

@[simp] theorem emit_framesDropped (e : Event) (s : State) : (emit e s).framesDropped = s.framesDropped := rfl

@[simp] theorem emit_resyncDiscards (e : Event) (s : State) : (emit e s).resyncDiscards = s.resyncDiscards := rfl

@[simp] theorem emit_bytesDecoded (e : Event) (s : State) : (emit e s).bytesDecoded = s.bytesDecoded := rfl

@[simp] theorem emit_ambigCount (e : Event) (s : State) : (emit e s).ambigCount = s.ambigCount := rfl

@[simp] theorem emit_bit0Count (e : Event) (s : State) : (emit e s).bit0Count = s.bit0Count := rfl

@[simp] theorem emit_edgeDepth (e : Event) (s : State) : (emit e s).edgeDepth = s.edgeDepth := rfl

@[simp] theorem emit_out (e : Event) (s : State) : (emit e s).out = s.out ++ [eventWord e] := rfl

@[simp] theorem emit_evtTaken (e : Event) (s : State) : (emit e s).evtTaken = s.evtTaken := rfl

@[simp] theorem emit_inputs (e : Event) (s : State) : (emit e s).inputs = s.inputs := rfl

@[simp] theorem emit_freeCount (e : Event) (s : State) : (emit e s).freeCount = s.freeCount := rfl

@[simp] theorem emit_chan (e : Event) (s : State) (c : Channel) : (emit e s).chan c = s.chan c := by
  cases c <;> rfl

/-! ### The error procedure (60_exceptions.md R223) -/

@[simp] theorem raiseError_ch0 (code : ErrCode) (w : Word) (s : State) :
    (raiseError code w s).ch0 = s.ch0 := by
  simp only [raiseError]
  split <;> simp_all

@[simp] theorem raiseError_ch1 (code : ErrCode) (w : Word) (s : State) :
    (raiseError code w s).ch1 = s.ch1 := by
  simp only [raiseError]
  split <;> simp_all

@[simp] theorem raiseError_asm (code : ErrCode) (w : Word) (s : State) :
    (raiseError code w s).asm = s.asm := by
  simp only [raiseError]
  split <;> simp_all

@[simp] theorem raiseError_ctrl (code : ErrCode) (w : Word) (s : State) :
    (raiseError code w s).ctrl = s.ctrl := by
  simp only [raiseError]
  split <;> simp_all

@[simp] theorem raiseError_bitTicks (code : ErrCode) (w : Word) (s : State) :
    (raiseError code w s).bitTicks = s.bitTicks := by
  simp only [raiseError]
  split <;> simp_all

@[simp] theorem raiseError_framing (code : ErrCode) (w : Word) (s : State) :
    (raiseError code w s).framing = s.framing := by
  simp only [raiseError]
  split <;> simp_all

@[simp] theorem raiseError_endMarker (code : ErrCode) (w : Word) (s : State) :
    (raiseError code w s).endMarker = s.endMarker := by
  simp only [raiseError]
  split <;> simp_all

@[simp] theorem raiseError_markers (code : ErrCode) (w : Word) (s : State) :
    (raiseError code w s).markers = s.markers := by
  simp only [raiseError]
  split <;> simp_all

@[simp] theorem raiseError_isr (code : ErrCode) (w : Word) (s : State) :
    (raiseError code w s).isr = isrWith s.isr .cmdErr := by
  simp only [raiseError]
  split <;> simp_all

@[simp] theorem raiseError_ier (code : ErrCode) (w : Word) (s : State) :
    (raiseError code w s).ier = s.ier := by
  simp only [raiseError]
  split <;> simp_all

@[simp] theorem raiseError_lastErr (code : ErrCode) (w : Word) (s : State) :
    (raiseError code w s).lastErr = lastErrValue (wordOp w) (errCode code) := by
  simp only [raiseError]
  split <;> simp_all

@[simp] theorem raiseError_bytesScanned (code : ErrCode) (w : Word) (s : State) :
    (raiseError code w s).bytesScanned = s.bytesScanned := by
  simp only [raiseError]
  split <;> simp_all

@[simp] theorem raiseError_framesFound (code : ErrCode) (w : Word) (s : State) :
    (raiseError code w s).framesFound = s.framesFound := by
  simp only [raiseError]
  split <;> simp_all

@[simp] theorem raiseError_framesDropped (code : ErrCode) (w : Word) (s : State) :
    (raiseError code w s).framesDropped = s.framesDropped := by
  simp only [raiseError]
  split <;> simp_all

@[simp] theorem raiseError_resyncDiscards (code : ErrCode) (w : Word) (s : State) :
    (raiseError code w s).resyncDiscards = s.resyncDiscards := by
  simp only [raiseError]
  split <;> simp_all

@[simp] theorem raiseError_bytesDecoded (code : ErrCode) (w : Word) (s : State) :
    (raiseError code w s).bytesDecoded = s.bytesDecoded := by
  simp only [raiseError]
  split <;> simp_all

@[simp] theorem raiseError_ambigCount (code : ErrCode) (w : Word) (s : State) :
    (raiseError code w s).ambigCount = s.ambigCount := by
  simp only [raiseError]
  split <;> simp_all

@[simp] theorem raiseError_bit0Count (code : ErrCode) (w : Word) (s : State) :
    (raiseError code w s).bit0Count = s.bit0Count := by
  simp only [raiseError]
  split <;> simp_all

@[simp] theorem raiseError_edgeDepth (code : ErrCode) (w : Word) (s : State) :
    (raiseError code w s).edgeDepth = s.edgeDepth := by
  simp only [raiseError]
  split <;> simp_all

@[simp] theorem raiseError_out (code : ErrCode) (w : Word) (s : State) :
    (raiseError code w s).out = if ctrlErrEvEn s.ctrl then s.out ++ [eventWord (.error (wordOp w) (errCode code) (w.extractLsb' 0 48))]
      else s.out := by
  simp only [raiseError]
  split <;> simp_all

@[simp] theorem raiseError_evtTaken (code : ErrCode) (w : Word) (s : State) :
    (raiseError code w s).evtTaken = s.evtTaken := by
  simp only [raiseError]
  split <;> simp_all

@[simp] theorem raiseError_inputs (code : ErrCode) (w : Word) (s : State) :
    (raiseError code w s).inputs = s.inputs := by
  simp only [raiseError]
  split <;> simp_all

@[simp] theorem raiseError_freeCount (code : ErrCode) (w : Word) (s : State) :
    (raiseError code w s).freeCount = s.freeCount := by
  simp only [raiseError]
  split <;> simp_all

@[simp] theorem raiseError_chan (code : ErrCode) (w : Word) (s : State) (c : Channel) :
    (raiseError code w s).chan c = s.chan c := by
  cases c <;> simp

/-! ### The assembler clear (44_frame_assembler.md R192) -/

@[simp] theorem asmClear_ch0 (s : State) : (asmClear s).ch0 = s.ch0 := rfl

@[simp] theorem asmClear_ch1 (s : State) : (asmClear s).ch1 = s.ch1 := rfl

@[simp] theorem asmClear_asm (s : State) : (asmClear s).asm = { s.asm with state := .idle, havePrev := false } := rfl

@[simp] theorem asmClear_ctrl (s : State) : (asmClear s).ctrl = s.ctrl := rfl

@[simp] theorem asmClear_bitTicks (s : State) : (asmClear s).bitTicks = s.bitTicks := rfl

@[simp] theorem asmClear_framing (s : State) : (asmClear s).framing = s.framing := rfl

@[simp] theorem asmClear_endMarker (s : State) : (asmClear s).endMarker = s.endMarker := rfl

@[simp] theorem asmClear_markers (s : State) : (asmClear s).markers = s.markers := rfl

@[simp] theorem asmClear_isr (s : State) : (asmClear s).isr = s.isr := rfl

@[simp] theorem asmClear_ier (s : State) : (asmClear s).ier = s.ier := rfl

@[simp] theorem asmClear_lastErr (s : State) : (asmClear s).lastErr = s.lastErr := rfl

@[simp] theorem asmClear_bytesScanned (s : State) : (asmClear s).bytesScanned = 0#32 := rfl

@[simp] theorem asmClear_framesFound (s : State) : (asmClear s).framesFound = 0#32 := rfl

@[simp] theorem asmClear_framesDropped (s : State) : (asmClear s).framesDropped = 0#32 := rfl

@[simp] theorem asmClear_resyncDiscards (s : State) : (asmClear s).resyncDiscards = 0#32 := rfl

@[simp] theorem asmClear_bytesDecoded (s : State) : (asmClear s).bytesDecoded = s.bytesDecoded := rfl

@[simp] theorem asmClear_ambigCount (s : State) : (asmClear s).ambigCount = s.ambigCount := rfl

@[simp] theorem asmClear_bit0Count (s : State) : (asmClear s).bit0Count = s.bit0Count := rfl

@[simp] theorem asmClear_edgeDepth (s : State) : (asmClear s).edgeDepth = s.edgeDepth := rfl

@[simp] theorem asmClear_out (s : State) : (asmClear s).out = s.out := rfl

@[simp] theorem asmClear_evtTaken (s : State) : (asmClear s).evtTaken = s.evtTaken := rfl

@[simp] theorem asmClear_inputs (s : State) : (asmClear s).inputs = s.inputs := rfl

@[simp] theorem asmClear_freeCount (s : State) : (asmClear s).freeCount = s.freeCount := rfl

@[simp] theorem asmClear_chan (s : State) (c : Channel) : (asmClear s).chan c = s.chan c := by
  cases c <;> rfl

/-! ### The decoder counters' clear (43_serial_decoder.md R165) -/

@[simp] theorem decoderCountersClear_ch0 (s : State) : (decoderCountersClear s).ch0 = s.ch0 := rfl

@[simp] theorem decoderCountersClear_ch1 (s : State) : (decoderCountersClear s).ch1 = s.ch1 := rfl

@[simp] theorem decoderCountersClear_asm (s : State) : (decoderCountersClear s).asm = s.asm := rfl

@[simp] theorem decoderCountersClear_ctrl (s : State) : (decoderCountersClear s).ctrl = s.ctrl := rfl

@[simp] theorem decoderCountersClear_bitTicks (s : State) : (decoderCountersClear s).bitTicks = s.bitTicks := rfl

@[simp] theorem decoderCountersClear_framing (s : State) : (decoderCountersClear s).framing = s.framing := rfl

@[simp] theorem decoderCountersClear_endMarker (s : State) : (decoderCountersClear s).endMarker = s.endMarker := rfl

@[simp] theorem decoderCountersClear_markers (s : State) : (decoderCountersClear s).markers = s.markers := rfl

@[simp] theorem decoderCountersClear_isr (s : State) : (decoderCountersClear s).isr = s.isr := rfl

@[simp] theorem decoderCountersClear_ier (s : State) : (decoderCountersClear s).ier = s.ier := rfl

@[simp] theorem decoderCountersClear_lastErr (s : State) : (decoderCountersClear s).lastErr = s.lastErr := rfl

@[simp] theorem decoderCountersClear_bytesScanned (s : State) : (decoderCountersClear s).bytesScanned = s.bytesScanned := rfl

@[simp] theorem decoderCountersClear_framesFound (s : State) : (decoderCountersClear s).framesFound = s.framesFound := rfl

@[simp] theorem decoderCountersClear_framesDropped (s : State) : (decoderCountersClear s).framesDropped = s.framesDropped := rfl

@[simp] theorem decoderCountersClear_resyncDiscards (s : State) : (decoderCountersClear s).resyncDiscards = s.resyncDiscards := rfl

@[simp] theorem decoderCountersClear_bytesDecoded (s : State) : (decoderCountersClear s).bytesDecoded = 0#32 := rfl

@[simp] theorem decoderCountersClear_ambigCount (s : State) : (decoderCountersClear s).ambigCount = 0#32 := rfl

@[simp] theorem decoderCountersClear_bit0Count (s : State) : (decoderCountersClear s).bit0Count = 0#32 := rfl

@[simp] theorem decoderCountersClear_edgeDepth (s : State) : (decoderCountersClear s).edgeDepth = s.edgeDepth := rfl

@[simp] theorem decoderCountersClear_out (s : State) : (decoderCountersClear s).out = s.out := rfl

@[simp] theorem decoderCountersClear_evtTaken (s : State) : (decoderCountersClear s).evtTaken = s.evtTaken := rfl

@[simp] theorem decoderCountersClear_inputs (s : State) : (decoderCountersClear s).inputs = s.inputs := rfl

@[simp] theorem decoderCountersClear_freeCount (s : State) : (decoderCountersClear s).freeCount = s.freeCount := rfl

@[simp] theorem decoderCountersClear_chan (s : State) (c : Channel) : (decoderCountersClear s).chan c = s.chan c := by
  cases c <;> rfl

/-! ### Running one result on -/

@[simp] theorem andThen_next (s : State) (f : State → Result) : andThen (.next s) f = f s := rfl

@[simp] theorem andThen_fault (e : Fault) (f : State → Result) : andThen (.fault e) f = .fault e := rfl

@[simp] theorem andThen_refused (e : Refusal) (f : State → Result) : andThen (.refused e) f = .refused e := rfl

/-- A result that goes on ends in a next state exactly where its first part does and the rest then does. -/
theorem andThen_eq_next {r : Result} {f : State → Result} {t : State} :
    andThen r f = .next t ↔ ∃ s, r = .next s ∧ f s = .next t := by
  cases r <;> simp [andThen]

end Sys2Proof.Machine
end

