-- ==== Sys2Proof/Laws/Memory.lean ====
section
/-! SUPPORT. The laws of the memories (20_memory.md R60 to R64): read after write, writes leave every other index
alone, and every memory operation keeps the canonical form. -/

namespace Sys2Proof.Machine

variable {α : Type}

/-! ### Cells -/

theorem cellsRead_cellsWrite_self (m : Cells α) (k : Nat) (x : α) :
    cellsRead (cellsWrite m k x) k = some x := by
  induction m with
  | nil => simp [cellsWrite, cellsRead]
  | cons e rest ih =>
    obtain ⟨j, y⟩ := e
    simp only [cellsWrite]
    split
    · simp [cellsRead]
    · split
      · simp [cellsRead]
      · rename_i h1 h2
        simp only [cellsRead, if_neg (Ne.symm h2)]
        exact ih

theorem cellsRead_cellsWrite_of_ne (m : Cells α) {k j : Nat} (x : α) (h : j ≠ k) :
    cellsRead (cellsWrite m k x) j = cellsRead m j := by
  induction m with
  | nil => simp [cellsWrite, cellsRead, Ne.symm h]
  | cons e rest ih =>
    obtain ⟨i, y⟩ := e
    simp only [cellsWrite]
    split
    · simp [cellsRead, Ne.symm h]
    · split
      · rename_i h1 h2
        subst h2
        simp [cellsRead, Ne.symm h]
      · simp only [cellsRead, ih]

/-- What a read gives after a write, at every index. -/
theorem cellsRead_cellsWrite (m : Cells α) (k j : Nat) (x : α) :
    cellsRead (cellsWrite m k x) j = if j = k then some x else cellsRead m j := by
  split
  · rename_i h; subst h; exact cellsRead_cellsWrite_self m j x
  · rename_i h; exact cellsRead_cellsWrite_of_ne m x h

theorem mem_keys_cellsWrite (m : Cells α) (k : Nat) (x : α) (j : Nat) :
    j ∈ (cellsWrite m k x).map Prod.fst ↔ j = k ∨ j ∈ m.map Prod.fst := by
  induction m with
  | nil => simp [cellsWrite]
  | cons e rest ih =>
    obtain ⟨i, y⟩ := e
    simp only [cellsWrite]
    split
    · simp
    · split
      · rename_i h1 h2
        subst h2
        simp
      · simp only [List.map_cons, List.mem_cons, ih]
        tauto

/-- A write keeps the canonical form. -/
theorem cellsWrite_wf (m : Cells α) (k : Nat) (x : α) (h : cellsWf m) : cellsWf (cellsWrite m k x) := by
  induction m with
  | nil => simp [cellsWrite, cellsWf]
  | cons e rest ih =>
    obtain ⟨i, y⟩ := e
    simp only [cellsWf, List.map_cons, List.pairwise_cons] at h ih ⊢
    obtain ⟨hi, hrest⟩ := h
    simp only [cellsWrite]
    split
    · rename_i hk
      simp only [List.map_cons, List.pairwise_cons, List.mem_cons]
      refine ⟨?_, hi, hrest⟩
      rintro j (rfl | hj)
      · exact hk
      · exact lt_trans hk (hi j hj)
    · split
      · rename_i h1 h2
        subst h2
        simp only [List.map_cons, List.pairwise_cons]
        exact ⟨hi, hrest⟩
      · rename_i h1 h2
        simp only [List.map_cons, List.pairwise_cons]
        refine ⟨?_, ih hrest⟩
        intro j hj
        rcases (mem_keys_cellsWrite rest k x j).1 hj with rfl | hj
        · omega
        · exact hi j hj

/-- An index is listed exactly where a read finds something. -/
theorem cellsRead_isSome_iff (m : Cells α) (k : Nat) :
    (cellsRead m k).isSome ↔ k ∈ m.map Prod.fst := by
  induction m with
  | nil => simp [cellsRead]
  | cons e rest ih =>
    obtain ⟨i, y⟩ := e
    simp only [cellsRead, List.map_cons, List.mem_cons]
    split
    · rename_i h; simp [h]
    · rename_i h
      rw [ih]
      constructor
      · exact Or.inr
      · rintro (rfl | h')
        · exact absurd rfl h
        · exact h'

/-- A write above every listed index stands last. -/
theorem cellsWrite_eq_append (m : Cells α) (k : Nat) (x : α) (h : ∀ j ∈ m.map Prod.fst, j < k) :
    cellsWrite m k x = m ++ [(k, x)] := by
  induction m with
  | nil => rfl
  | cons e rest ih =>
    obtain ⟨i, y⟩ := e
    have hi : i < k := h i (by simp)
    simp only [cellsWrite]
    rw [if_neg (by omega), if_neg (by omega), ih (fun j hj => h j (by simp [hj]))]
    rfl

/-- Writing at the first free index of a memory that lists exactly 0 to n-1 appends. -/
theorem cellsWrite_of_range (m : Cells α) (n : Nat) (x : α) (h : m.map Prod.fst = List.range n) :
    cellsWrite m n x = m ++ [(n, x)] :=
  cellsWrite_eq_append m n x (by rw [h]; simp)

/-- The index list of a memory that lists from `b` on, read at an offset. -/
theorem cellsRead_of_range' (m : Cells α) (b k : Nat) (h : m.map Prod.fst = List.range' b m.length) :
    cellsRead m (b + k) = (m.map Prod.snd)[k]? := by
  induction m generalizing b k with
  | nil => simp [cellsRead]
  | cons e rest ih =>
    obtain ⟨i, y⟩ := e
    simp only [List.map_cons, List.length_cons, List.range'_succ, List.cons.injEq] at h
    obtain ⟨rfl, hrest⟩ := h
    cases k with
    | zero => simp [cellsRead]
    | succ k =>
      simp only [cellsRead, List.map_cons, List.getElem?_cons_succ]
      rw [if_neg (by omega), show i + (k + 1) = (i + 1) + k by omega]
      exact ih (i + 1) k hrest

/-- A memory that lists exactly 0 to n-1 reads as the list of its values. -/
theorem cellsRead_of_range (m : Cells α) (n k : Nat) (h : m.map Prod.fst = List.range n) :
    cellsRead m k = (m.map Prod.snd)[k]? := by
  have hn : m.length = n := by
    have := congrArg List.length h
    simpa using this
  have := cellsRead_of_range' m 0 k (by rw [h, hn, List.range_eq_range'])
  simpa using this

/-! ### The operations over memories -/

/-- All that EdgeAppend can do (R62). -/
theorem edgeAppend_eq_next {c : Channel} {t : Time} {l : Level} {s s' : State} :
    edgeAppend c t l s = .next s' ↔
      (s.chan c).count.toNat < s.edgeDepth.toNat ∧
      s' = s.setChan c { s.chan c with
        edges := cellsWrite (s.chan c).edges (s.chan c).count.toNat ⟨t, l⟩
        count := (s.chan c).count + 1#32 } := by
  simp only [edgeAppend]
  split <;> simp_all [eq_comm]

/-- Below EDGE_DEPTH, EdgeAppend goes on. -/
theorem edgeAppend_of_lt {c : Channel} {t : Time} {l : Level} {s : State}
    (h : (s.chan c).count.toNat < s.edgeDepth.toNat) :
    edgeAppend c t l s = .next (s.setChan c { s.chan c with
        edges := cellsWrite (s.chan c).edges (s.chan c).count.toNat ⟨t, l⟩
        count := (s.chan c).count + 1#32 }) := by
  simp only [edgeAppend, if_pos h]

/-- All that a write of the payload buffer can do (R64). -/
theorem payloadWrite_eq_next {p : Nat} {v : Byte} {s s' : State} :
    payloadWrite p v s = .next s' ↔
      p < Config.maxPayload ∧
      s' = { s with asm := { s.asm with fData := cellsWrite s.asm.fData p v } } := by
  simp only [payloadWrite]
  split <;> simp_all [eq_comm]

/-- A read of the payload buffer after a write. -/
theorem payloadAt_write (s : State) (p q : Nat) (v : Byte) :
    payloadAt { s with asm := { s.asm with fData := cellsWrite s.asm.fData p v } } q
      = if q = p then v else payloadAt s q := by
  simp only [payloadAt, cellsRead_cellsWrite]
  by_cases h : q = p <;> simp [h]

/-- EdgeAppend keeps the canonical form of every memory. -/
theorem edgeAppend_memory_wf {c : Channel} {t : Time} {l : Level} {s s' : State}
    (h : edgeAppend c t l s = .next s') (hs : Memory.wf s) : Memory.wf s' := by
  obtain ⟨-, rfl⟩ := edgeAppend_eq_next.1 h
  obtain ⟨h0, h1, h2⟩ := hs
  cases c
  · exact ⟨cellsWrite_wf _ _ _ h0, h1, h2⟩
  · exact ⟨h0, cellsWrite_wf _ _ _ h1, h2⟩

/-- A write of the payload buffer keeps the canonical form of every memory. -/
theorem payloadWrite_memory_wf {p : Nat} {v : Byte} {s s' : State}
    (h : payloadWrite p v s = .next s') (hs : Memory.wf s) : Memory.wf s' := by
  obtain ⟨-, rfl⟩ := payloadWrite_eq_next.1 h
  exact ⟨hs.1, hs.2.1, cellsWrite_wf _ _ _ hs.2.2⟩

/-- A cleared channel's memory is in canonical form. -/
theorem chanCleared_edges_wf (n : Nat) (c : Channel) : cellsWf (chanCleared n c).edges := by
  simp [chanCleared, cellsWf]

/-- The memories right after reset are in canonical form. -/
theorem reset_memory_wf : Memory.wf State.reset := by
  simp [Memory.wf, cellsWf, State.reset, Chan.reset, Asm.reset]

/-- The memories after an assertion of rst are in canonical form. -/
theorem hostReset_memory_wf (s : State) : Memory.wf (hostReset s) := reset_memory_wf

end Sys2Proof.Machine
end

