-- ==== Sys2Proof/Laws/Ops.lean ====
section
/-! SUPPORT. One lemma per shared operation that says once everything it can do. -/

namespace Sys2Proof.Machine

/-! ### The error procedure and the clears (60_exceptions.md R223, R224) -/

/-- All that the error procedure does. -/
theorem raiseError_eq (code : ErrCode) (w : Word) (s : State) :
    raiseError code w s =
      { s with
        lastErr := lastErrValue (wordOp w) (errCode code)
        isr := isrWith s.isr .cmdErr
        out := s.out ++ if ctrlErrEvEn s.ctrl then
            [eventWord (.error (wordOp w) (errCode code) (w.extractLsb' 0 48))]
          else [] } := by
  by_cases h : ctrlErrEvEn s.ctrl = true <;> simp [raiseError, setIsr, emit, h]

/-- All that ChannelFail does. -/
theorem channelFail_eq (c : Channel) (code : ErrCode) (w : Word) (s : State) :
    channelFail c code w s =
      raiseError code w
        { s.setChan c { s.chan c with state := .failed } with isr := isrWith s.isr (chFailBit c) } := by
  cases c <;> rfl

@[simp] theorem channelFail_chan_self (c : Channel) (code : ErrCode) (w : Word) (s : State) :
    (channelFail c code w s).chan c = { s.chan c with state := .failed } := by
  simp [channelFail]

theorem channelFail_chan_of_ne (c d : Channel) (code : ErrCode) (w : Word) (s : State) (h : d ≠ c) :
    (channelFail c code w s).chan d = s.chan d := by
  simp [channelFail, setChan_chan_of_ne _ _ _ _ h]

/-- All that an output to the host does. -/
theorem takeEvent_eq (s : State) :
    takeEvent s = { s with evtTaken := s.evtTaken + if s.evtTaken < s.out.length then 1 else 0 } := by
  by_cases h : s.evtTaken < s.out.length <;> simp [takeEvent, evtValid, h]

/-! ### The sticky bits (10_state.md R37) -/

theorem isrPos_le (b : IsrBit) : isrPos b ≤ 8 := by cases b <;> decide

theorem isrWith_getLsbD (isr : CsrWord) (b : IsrBit) (k : Nat) :
    (isrWith isr b).getLsbD k = (isr.getLsbD k || decide (k = isrPos b)) := by
  have hb := isrPos_le b
  simp only [isrWith, BitVec.getLsbD_or, BitVec.getLsbD_shiftLeft, BitVec.getLsbD_one]
  congr 1
  rw [Bool.eq_iff_iff]
  simp only [Bool.and_eq_true, decide_eq_true_eq, Bool.not_eq_true', decide_eq_false_iff_not]
  omega

/-! ### The tests, as propositions -/

/-- FRAMING's legality (45_control.md R208). -/
theorem framingLegal_eq_true (d : CsrWord) :
    framingLegal d = true ↔ 1 ≤ (d.extractLsb' 0 4).toNat ∧ (d.extractLsb' 0 4).toNat ≤ 8 := by
  rw [framingLegal, Bool.and_eq_true]
  exact and_congr decide_eq_true_iff decide_eq_true_iff

/-- A marker entry matches (44_frame_assembler.md R181). -/
theorem markerMatches_eq_true (m : CsrWord) (v : Byte) :
    markerMatches m v = true ↔ m.getLsbD 31 = true ∧ m.extractLsb' 0 8 = v := by
  rw [markerMatches, Bool.and_eq_true]
  exact and_congr Iff.rfl decide_eq_true_iff

/-- A resync fires (44_frame_assembler.md R182). -/
theorem resyncNeeded_eq_true (t : Time) (dir : Direction) (s : State) :
    resyncNeeded t dir s = true ↔
      s.asm.havePrev = true ∧
        (s.asm.prevTime.toNat + (s.framing.extractLsb' 16 16).toNat * s.bitTicks.toNat < t.toNat ∨
          dir ≠ s.asm.prevDir) := by
  rw [resyncNeeded, Bool.and_eq_true, Bool.or_eq_true]
  exact and_congr Iff.rfl (or_congr decide_eq_true_iff decide_eq_true_iff)

/-- The checksum holds (44_frame_assembler.md R187). -/
theorem checksumOK_eq_true (s : State) :
    checksumOK s = true ↔ (s.asm.fLen.toNat + payloadSum s s.asm.fLen.toNat + s.asm.fSum.toNat) % 256 = 0 :=
  decide_eq_true_iff

/-! ### The edge detector (41_edge_detector.md R121, R126) -/

/-- All that appending an unrecorded last sample can do. -/
theorem recordLast_eq_next {c : Channel} {s s' : State} :
    recordLast c s = .next s' ↔
      ((s.chan c).prevRec = true ∧ s' = s) ∨
      ((s.chan c).prevRec = false ∧
        edgeAppend c (s.chan c).lastTime (s.chan c).lastLevel s = .next s') := by
  by_cases h : (s.chan c).prevRec = true <;> simp [recordLast, h, eq_comm]

/-- All that a transition sample can do: the overflow, or the appends and the new last sample. -/
theorem sampleTransition_eq_next {c : Channel} {l : Level} {t : Time} {w : Word} {s s' : State} :
    sampleTransition c l t w s = .next s' ↔
      (s.edgeDepth.toNat < (s.chan c).count.toNat + transitionNeed (s.chan c) ∧
        s' = channelFail c .edgeOverflow w s) ∨
      ((s.chan c).count.toNat + transitionNeed (s.chan c) ≤ s.edgeDepth.toNat ∧
        ∃ s1 s2, recordLast c s = .next s1 ∧ edgeAppend c t l s1 = .next s2 ∧
          s' = noteSample c l t true s2) := by
  by_cases h : s.edgeDepth.toNat < (s.chan c).count.toNat + transitionNeed (s.chan c)
  · rw [sampleTransition, if_pos h]
    constructor
    · rintro ⟨⟩
      exact .inl ⟨h, rfl⟩
    · rintro (⟨-, rfl⟩ | ⟨hle, -⟩)
      · rfl
      · omega
  · rw [sampleTransition, if_neg h]
    simp only [andThen_eq_next]
    constructor
    · rintro ⟨s1, h1, s2, h2, ⟨⟩⟩
      exact .inr ⟨by omega, s1, s2, h1, h2, rfl⟩
    · rintro (⟨hlt, -⟩ | ⟨-, s1, s2, h1, h2, rfl⟩)
      · exact absurd hlt h
      · exact ⟨s1, h1, s2, h2, rfl⟩

/-- All that CLOSE of an OPEN channel can do. -/
theorem closeOpen_eq_next {c : Channel} {w : Word} {s s' : State} :
    closeOpen c w s = .next s' ↔
      ((s.chan c).prevRec = false ∧ s.edgeDepth.toNat < (s.chan c).count.toNat + 1 ∧
        s' = channelFail c .edgeOverflow w s) ∨
      (¬ ((s.chan c).prevRec = false ∧ s.edgeDepth.toNat < (s.chan c).count.toNat + 1) ∧
        ∃ s1, recordLast c s = .next s1 ∧
          s' = s1.setChan c { s1.chan c with prevRec := true, state := .closed }) := by
  by_cases h : (s.chan c).prevRec = false ∧ s.edgeDepth.toNat < (s.chan c).count.toNat + 1
  · rw [closeOpen, if_pos h]
    constructor
    · rintro ⟨⟩
      exact .inl ⟨h.1, h.2, rfl⟩
    · rintro (⟨-, -, rfl⟩ | ⟨hn, -⟩)
      · rfl
      · exact absurd h hn
  · rw [closeOpen, if_neg h, closeFinish, andThen_eq_next]
    constructor
    · rintro ⟨s1, h1, ⟨⟩⟩
      exact .inr ⟨h, s1, h1, rfl⟩
    · rintro (⟨h1, h2, -⟩ | ⟨-, s1, h1, rfl⟩)
      · exact absurd ⟨h1, h2⟩ h
      · exact ⟨s1, h1, rfl⟩

/-! ### The level sampler (42_level_sampler.md R140) -/

/-- The lookup over n + 1 entries. -/
theorem rightmostLevel_succ (entry : Nat → Edge) (p : Edge → Bool) (n : Nat) :
    rightmostLevel entry p (n + 1) = if p (entry n) then (entry n).level else rightmostLevel entry p n := rfl

/-- High where no entry satisfies the test. -/
theorem rightmostLevel_none (entry : Nat → Edge) (p : Edge → Bool) (n : Nat)
    (h : ∀ k, k < n → p (entry k) = false) : rightmostLevel entry p n = .high := by
  induction n with
  | zero => rfl
  | succ n ih =>
    rw [rightmostLevel_succ, h n (by omega)]
    exact ih fun k hk => h k (by omega)

/-- The level of the last entry that satisfies the test. -/
theorem rightmostLevel_some (entry : Nat → Edge) (p : Edge → Bool) (n k : Nat) (hk : k < n)
    (hp : p (entry k) = true) (h : ∀ j, k < j → j < n → p (entry j) = false) :
    rightmostLevel entry p n = (entry k).level := by
  induction n with
  | zero => omega
  | succ n ih =>
    rw [rightmostLevel_succ]
    by_cases hkn : k = n
    · subst hkn
      rw [if_pos hp]
    · rw [h n (by omega) (by omega)]
      exact ih (by omega) fun j hj hn => h j hj (by omega)

/-! ### The frame assembler (44_frame_assembler.md) -/

/-- The events that report a frame (30_encoding.md R100, R101, R102). -/
def isFrameEvent : Event → Bool
  | .frameHdr .. | .frameData .. | .frameEnd .. => true
  | .level .. | .edge .. | .csrv .. | .byte .. | .done .. | .error .. => false

/-- A frame's event is no BYTE event. -/
theorem eventTag_ne_byte_of_isFrameEvent {e : Event} (h : isFrameEvent e = true) :
    eventTag (eventWord e) ≠ 0x4#4 := by
  intro ht
  have hn := congrArg BitVec.toNat ht
  cases e <;> simp only [isFrameEvent, Bool.false_eq_true] at h <;>
    simp only [eventTag, eventWord, BitVec.extractLsb'_toNat, Nat.shiftRight_eq_div_pow, append_toNat,
      BitVec.toNat_ofNat] at hn <;>
    omega

/-- The events of a validated frame report a frame (44_frame_assembler.md R190). -/
theorem isFrameEvent_of_mem_frameEvents {s : State} {v : Byte} {idx : BitVec 32} {e : Event}
    (h : e ∈ frameEvents s v idx) : isFrameEvent e = true := by
  simp only [frameEvents, List.mem_append, List.mem_singleton, List.mem_map] at h
  rcases h with (rfl | ⟨_, _, rfl⟩) | rfl <;> rfl

/-- What the assembler leaves alone over one byte, and what it does to the events and the sticky bits: a frame's events
are appended, and only FRAME_FOUND, FRAME_DROP and RESYNC_DISCARD can be set. -/
structure AsmFrame (s s' : State) : Prop where
  ch0 : s'.ch0 = s.ch0
  ch1 : s'.ch1 = s.ch1
  ctrl : s'.ctrl = s.ctrl
  bitTicks : s'.bitTicks = s.bitTicks
  framing : s'.framing = s.framing
  endMarker : s'.endMarker = s.endMarker
  markers : s'.markers = s.markers
  ier : s'.ier = s.ier
  lastErr : s'.lastErr = s.lastErr
  bytesDecoded : s'.bytesDecoded = s.bytesDecoded
  ambigCount : s'.ambigCount = s.ambigCount
  bit0Count : s'.bit0Count = s.bit0Count
  edgeDepth : s'.edgeDepth = s.edgeDepth
  evtTaken : s'.evtTaken = s.evtTaken
  inputs : s'.inputs = s.inputs
  freeCount : s'.freeCount = s.freeCount
  out : ∃ ev : List Event, s'.out = s.out ++ ev.map eventWord ∧ ∀ e ∈ ev, isFrameEvent e = true
  isrKept : ∀ b, s.isr.getLsbD b = true → s'.isr.getLsbD b = true
  isrOther : ∀ b, b < 5 ∨ 8 ≤ b → s'.isr.getLsbD b = s.isr.getLsbD b

theorem AsmFrame.refl (s : State) : AsmFrame s s :=
  ⟨rfl, rfl, rfl, rfl, rfl, rfl, rfl, rfl, rfl, rfl, rfl, rfl, rfl, rfl, rfl, rfl, ⟨[], by simp, by simp⟩,
    fun _ h => h, fun _ _ => rfl⟩

theorem AsmFrame.trans {s t u : State} (h : AsmFrame s t) (g : AsmFrame t u) : AsmFrame s u := by
  obtain ⟨ev, hev, he⟩ := h.out
  obtain ⟨fv, hfv, hf⟩ := g.out
  exact ⟨g.ch0.trans h.ch0, g.ch1.trans h.ch1, g.ctrl.trans h.ctrl, g.bitTicks.trans h.bitTicks,
    g.framing.trans h.framing, g.endMarker.trans h.endMarker, g.markers.trans h.markers, g.ier.trans h.ier,
    g.lastErr.trans h.lastErr, g.bytesDecoded.trans h.bytesDecoded, g.ambigCount.trans h.ambigCount,
    g.bit0Count.trans h.bit0Count, g.edgeDepth.trans h.edgeDepth, g.evtTaken.trans h.evtTaken,
    g.inputs.trans h.inputs, g.freeCount.trans h.freeCount, ⟨ev ++ fv, by rw [hfv, hev]; simp, fun e hm => (List.mem_append.1 hm).elim (he e) (hf e)⟩,
    fun b hb => g.isrKept b (h.isrKept b hb), fun b hb => (g.isrOther b hb).trans (h.isrOther b hb)⟩

/-- All that the resync does (R182). -/
theorem resync_eq (t : Time) (dir : Direction) (s : State) :
    resync t dir s =
      { s with
        resyncDiscards := s.resyncDiscards +
          if resyncNeeded t dir s = true ∧ s.asm.state ≠ .idle then 1#32 else 0#32
        isr := if resyncNeeded t dir s = true ∧ s.asm.state ≠ .idle then isrWith s.isr .resyncDiscard else s.isr
        asm := { s.asm with
          state := if resyncNeeded t dir s = true then .idle else s.asm.state
          havePrev := true
          prevTime := t
          prevDir := dir } } := by
  by_cases h : resyncNeeded t dir s = true
  · by_cases h2 : s.asm.state = .idle <;> simp [resync, resyncDiscard, h, h2, setIsr, countUp]
  · simp [resync, h]

/-- Emitting a list of events appends their words. -/
theorem foldl_emit (l : List Event) (s : State) :
    l.foldl (fun s e => emit e s) s = { s with out := s.out ++ l.map eventWord } := by
  induction l generalizing s with
  | nil => simp
  | cons e rest ih =>
    rw [List.foldl_cons, ih]
    simp [emit]

/-- All that emitting a frame does (R190). -/
theorem emitFrame_eq (v : Byte) (idx : BitVec 32) (s : State) :
    emitFrame v idx s =
      { s with out := s.out ++ if ctrlFrameEvEn s.ctrl then (frameEvents s v idx).map eventWord else [] } := by
  by_cases h : ctrlFrameEvEn s.ctrl = true <;> simp [emitFrame, h, foldl_emit]

/-- All that the End transition does (R189). -/
theorem asmEnd_eq (v : Byte) (idx : BitVec 32) (s : State) :
    asmEnd v idx s =
      if v = endMarkerByte s ∧ checksumOK s = true then
        { s with
          framesFound := countUp s.framesFound
          isr := isrWith s.isr .frameFound
          out := s.out ++ if ctrlFrameEvEn s.ctrl then (frameEvents s v idx).map eventWord else []
          asm := { s.asm with state := .idle } }
      else
        { s with
          framesDropped := countUp s.framesDropped
          isr := isrWith s.isr .frameDrop
          asm := { s.asm with state := .idle } } := by
  by_cases h : v = endMarkerByte s ∧ checksumOK s = true
  · simp only [asmEnd, h, and_self, if_true, emitFrame_eq]
    rfl
  · simp only [asmEnd, h, if_false]
    rfl

/-- The assembler has room for the byte that Data expects next (20_memory.md R64). -/
def asmRoom (s : State) : Prop := s.asm.state = .data → s.asm.fCount.toNat < s.asm.fLen.toNat

theorem asmFrame_isrWith (s s' : State) (b : IsrBit) (hb : isrPos b = 5 ∨ isrPos b = 6 ∨ isrPos b = 7)
    (ev : List Event) (hev : ∀ e ∈ ev, isFrameEvent e = true)
    (h : s' = { s with
      asm := s'.asm
      isr := isrWith s.isr b
      bytesScanned := s'.bytesScanned
      framesFound := s'.framesFound
      framesDropped := s'.framesDropped
      resyncDiscards := s'.resyncDiscards
      out := s.out ++ ev.map eventWord }) : AsmFrame s s' := by
  rw [h]
  refine ⟨rfl, rfl, rfl, rfl, rfl, rfl, rfl, rfl, rfl, rfl, rfl, rfl, rfl, rfl, rfl, rfl, ⟨ev, rfl, hev⟩, ?_, ?_⟩
  · intro k hk
    rw [isrWith_getLsbD, hk, Bool.true_or]
  · intro k hk
    rw [isrWith_getLsbD, decide_eq_false (by omega), Bool.or_false]

theorem asmFrame_of_eq (s s' : State) (ev : List Event) (hev : ∀ e ∈ ev, isFrameEvent e = true)
    (h : s' = { s with
      asm := s'.asm
      bytesScanned := s'.bytesScanned
      framesFound := s'.framesFound
      framesDropped := s'.framesDropped
      resyncDiscards := s'.resyncDiscards
      out := s.out ++ ev.map eventWord }) : AsmFrame s s' := by
  rw [h]
  exact ⟨rfl, rfl, rfl, rfl, rfl, rfl, rfl, rfl, rfl, rfl, rfl, rfl, rfl, rfl, rfl, rfl, ⟨ev, rfl, hev⟩,
    fun _ hk => hk, fun _ _ => rfl⟩

theorem resync_frame (t : Time) (dir : Direction) (s : State) : AsmFrame s (resync t dir s) := by
  by_cases h : resyncNeeded t dir s = true ∧ s.asm.state ≠ .idle
  · exact asmFrame_isrWith s _ .resyncDiscard (by simp [isrPos]) [] (by simp) (by rw [resync_eq]; simp [h])
  · exact asmFrame_of_eq s _ [] (by simp) (by rw [resync_eq]; simp [h])

theorem asmEnd_frame (v : Byte) (idx : BitVec 32) (s : State) : AsmFrame s (asmEnd v idx s) := by
  by_cases h : v = endMarkerByte s ∧ checksumOK s = true
  · exact asmFrame_isrWith s _ .frameFound (by simp [isrPos])
      (if ctrlFrameEvEn s.ctrl then frameEvents s v idx else [])
      (by
        split
        · exact fun _ => isFrameEvent_of_mem_frameEvents
        · simp)
      (by rw [asmEnd_eq, if_pos h]; split <;> simp)
  · exact asmFrame_isrWith s _ .frameDrop (by simp [isrPos]) [] (by simp) (by rw [asmEnd_eq, if_neg h]; simp)

/-- What a transition of the assembler can do: the frame of every byte, and room again for the next. -/
theorem asmTransition_next {v : Byte} {idx : BitVec 32} {s s' : State}
    (h : asmTransition v idx s = .next s') : AsmFrame s s' ∧ (asmRoom s → asmRoom s') := by
  unfold asmTransition at h
  split at h <;> rename_i hs
  · obtain rfl := (Host.Outcome.next.inj h).symm
    unfold asmIdle
    split
    · exact ⟨AsmFrame.refl s, id⟩
    · exact ⟨asmFrame_of_eq s _ [] (by simp) (by simp), fun _ => by simp [asmRoom]⟩
  · obtain rfl := (Host.Outcome.next.inj h).symm
    refine ⟨asmFrame_of_eq s _ [] (by simp) (by simp [asmLen]), fun _ => ?_⟩
    simp only [asmRoom, asmLen]
    split
    · simp
    · rename_i hv
      intro _
      have : v.toNat ≠ 0 := fun h0 => hv (BitVec.eq_of_toNat_eq (by simpa using h0))
      simp only [BitVec.toNat_ofNat]
      omega
  · simp only [asmData, andThen_eq_next, payloadWrite_eq_next] at h
    obtain ⟨s1, ⟨-, rfl⟩, h⟩ := h
    obtain rfl := (Host.Outcome.next.inj h).symm
    refine ⟨asmFrame_of_eq s _ [] (by simp) (by simp [asmDataCount]), fun hr => ?_⟩
    have hroom := hr hs
    simp only [asmRoom, asmDataCount]
    split
    · simp
    · rename_i hne
      intro _
      have h1 := s.asm.fLen.isLt
      have h2 : (s.asm.fCount + 1#8).toNat = s.asm.fCount.toNat + 1 := by
        rw [BitVec.toNat_add]
        simp only [BitVec.toNat_ofNat]
        omega
      have h3 : (s.asm.fCount + 1#8).toNat ≠ s.asm.fLen.toNat := fun hc => hne (BitVec.eq_of_toNat_eq hc)
      omega
  · obtain rfl := (Host.Outcome.next.inj h).symm
    exact ⟨asmFrame_of_eq s _ [] (by simp) (by simp [asmSum]), fun _ => by simp [asmRoom, asmSum]⟩
  · obtain rfl := (Host.Outcome.next.inj h).symm
    refine ⟨asmEnd_frame v idx s, fun _ => ?_⟩
    rw [asmEnd_eq]
    split <;> simp [asmRoom]

/-- With room for the next byte, a transition of the assembler goes on. -/
theorem asmTransition_goes_on (v : Byte) (idx : BitVec 32) (s : State) (h : asmRoom s) :
    ∃ s', asmTransition v idx s = .next s' := by
  unfold asmTransition
  split
  · exact ⟨_, rfl⟩
  · exact ⟨_, rfl⟩
  · rename_i hs
    have h1 := h hs
    have h2 := s.asm.fLen.isLt
    have h3 : s.asm.fCount.toNat < Config.maxPayload := by
      simp only [Config.maxPayload]
      omega
    exact ⟨_, by rw [asmData, payloadWrite, if_pos h3]; rfl⟩
  · exact ⟨_, rfl⟩
  · exact ⟨_, rfl⟩

/-- What one byte through the assembler can do (R193): the frame of every byte, the byte counted, and room again. -/
theorem asmStep_next {t : Time} {v : Byte} {dir : Direction} {s s' : State}
    (h : asmStep t v dir s = .next s') : AsmFrame s s' ∧ (asmRoom s → asmRoom s') := by
  obtain ⟨h1, h2⟩ := asmTransition_next h
  have h3 : AsmFrame (resync t dir s)
      { resync t dir s with bytesScanned := countUp (resync t dir s).bytesScanned } :=
    asmFrame_of_eq _ _ [] (by simp) (by simp)
  refine ⟨(resync_frame t dir s).trans (h3.trans h1), fun hr => h2 ?_⟩
  simp only [asmRoom, resync_eq]
  split
  · simp
  · exact hr

/-- With room for the next byte, the assembler goes on. -/
theorem asmStep_goes_on (t : Time) (v : Byte) (dir : Direction) (s : State) (h : asmRoom s) :
    ∃ s', asmStep t v dir s = .next s' := by
  refine asmTransition_goes_on _ _ _ ?_
  simp only [asmRoom, resync_eq]
  split
  · simp
  · exact h

/-! ### The serial decoder (43_serial_decoder.md R165, R166) -/

/-- The counters and flags of one decoded byte, at once. -/
theorem byteCount_eq (d : DecodedByte) (s : State) :
    byteCount d s =
      { s with
        bytesDecoded := s.bytesDecoded + 1#32
        ambigCount := s.ambigCount + if d.ambig then 1#32 else 0#32
        bit0Count := s.bit0Count + if d.b0 then 1#32 else 0#32
        isr :=
          let isr := if d.ambig then isrWith s.isr .dirAmbig else s.isr
          if d.b0 then isrWith isr .bit0Viol else isr } := by
  cases ha : d.ambig <;> cases hb : d.b0 <;> simp [byteCount, ha, hb, setIsr, countUp]

/-- The BYTE event of one decoded byte, at once. -/
theorem byteEmit_eq (d : DecodedByte) (s : State) :
    byteEmit d s =
      { s with out := s.out ++ if ctrlByteEvEn s.ctrl then
          [eventWord (.byte d.dir d.ambig d.b0 d.value d.start)] else [] } := by
  by_cases h : ctrlByteEvEn s.ctrl = true <;> simp [byteEmit, h, emit]

/-- What one byte out can do: the assembler's frame from the state with the byte counted and announced. -/
theorem byteOut_next {d : DecodedByte} {s s' : State} (h : byteOut d s = .next s') :
    AsmFrame (byteEmit d (byteCount d s)) s' ∧ (asmRoom s → asmRoom s') := by
  obtain ⟨h1, h2⟩ := asmStep_next h
  refine ⟨h1, fun hr => h2 ?_⟩
  rw [byteEmit_eq, byteCount_eq]
  exact hr

/-- With room for the next byte, a byte out goes on. -/
theorem byteOut_goes_on (d : DecodedByte) (s : State) (h : asmRoom s) : ∃ s', byteOut d s = .next s' := by
  refine asmStep_goes_on _ _ _ _ ?_
  rw [byteEmit_eq, byteCount_eq]
  exact h

end Sys2Proof.Machine
end

