-- ==== Sys2Proof/Laws/PerInstr.lean ====
section
/-! SUPPORT. A family of statements about every command as syntax: its word carries its own opcode, its format is the
opcode's, and every must-be-zero bit of that format is 0 (30_encoding.md R81, R82, R84). -/

namespace Sys2Proof.Laws.EncodesItsFormat

/-- The word of a command carries its opcode, and no must-be-zero bit of the opcode's format. -/
def Statement (i : Instr) : Prop :=
  wordOp (encode i) = i.op ∧ formatOfOp i.op = some i.format ∧ encode i &&& rsvMask i.format = 0#64

theorem nop : Statement .nop := by
  refine ⟨?_, ?_, ?_⟩ <;> decide

theorem sample (c : Channel) (l : BitVec 2) (t : Time) : Statement (.sample c l t) := by
  have h0 := c.bit.isLt
  have h1 := l.isLt
  have h2 := t.isLt
  refine ⟨BitVec.eq_of_toNat_eq ?_, rfl, ?_⟩
  · rw [wordOp, field_toNat, encode_sample_toNat, Instr.op]
    simp only [BitVec.toNat_ofNat]
    omega
  · exact (rsvMask_s_iff _).2
      (BitVec.eq_of_toNat_eq (by rw [field_toNat, encode_sample_toNat]; simp only [BitVec.toNat_ofNat]; omega))

theorem close (c : Channel) : Statement (.close c) := by
  have h0 := c.bit.isLt
  refine ⟨BitVec.eq_of_toNat_eq ?_, rfl, ?_⟩
  · rw [wordOp, field_toNat, encode_close_toNat, Instr.op]
    simp only [BitVec.toNat_ofNat]
    omega
  · exact (rsvMask_c_iff _).2
      (BitVec.eq_of_toNat_eq (by rw [field_toNat, encode_close_toNat]; simp only [BitVec.toNat_ofNat]; omega))

theorem query (c : Channel) (t : Time) : Statement (.query c t) := by
  have h0 := c.bit.isLt
  have h1 := t.isLt
  refine ⟨BitVec.eq_of_toNat_eq ?_, rfl, ?_⟩
  · rw [wordOp, field_toNat, encode_query_toNat, Instr.op]
    simp only [BitVec.toNat_ofNat]
    omega
  · exact (rsvMask_q_iff _).2
      (BitVec.eq_of_toNat_eq (by rw [field_toNat, encode_query_toNat]; simp only [BitVec.toNat_ofNat]; omega))

theorem decode : Statement .decode := by
  refine ⟨?_, ?_, ?_⟩ <;> decide

theorem asmByte (d : Direction) (v : Byte) (t : Time) : Statement (.asmByte d v t) := by
  have h0 := d.bit.isLt
  have h1 := v.isLt
  have h2 := t.isLt
  refine ⟨BitVec.eq_of_toNat_eq ?_, rfl, ?_⟩
  · rw [wordOp, field_toNat, encode_asmByte_toNat, Instr.op]
    simp only [BitVec.toNat_ofNat]
    omega
  · exact (rsvMask_b_iff _).2
      (BitVec.eq_of_toNat_eq (by rw [field_toNat, encode_asmByte_toNat]; simp only [BitVec.toNat_ofNat]; omega))

theorem asmClear : Statement .asmClear := by
  refine ⟨?_, ?_, ?_⟩ <;> decide

theorem edgeRd (c : Channel) (k : BitVec 32) : Statement (.edgeRd c k) := by
  have h0 := c.bit.isLt
  have h1 := k.isLt
  refine ⟨BitVec.eq_of_toNat_eq ?_, rfl, ?_⟩
  · rw [wordOp, field_toNat, encode_edgeRd_toNat, Instr.op]
    simp only [BitVec.toNat_ofNat]
    omega
  · exact (rsvMask_i_iff _).2
      (BitVec.eq_of_toNat_eq (by rw [field_toNat, encode_edgeRd_toNat]; simp only [BitVec.toNat_ofNat]; omega))

theorem csrRd (i : BitVec 8) : Statement (.csrRd i) := by
  have h0 := i.isLt
  refine ⟨BitVec.eq_of_toNat_eq ?_, rfl, ?_⟩
  · rw [wordOp, field_toNat, encode_csrRd_toNat, Instr.op]
    simp only [BitVec.toNat_ofNat]
    omega
  · exact (rsvMask_rr_iff _).2
      ⟨BitVec.eq_of_toNat_eq (by rw [field_toNat, encode_csrRd_toNat]; simp only [BitVec.toNat_ofNat]; omega),
        BitVec.eq_of_toNat_eq (by rw [field_toNat, encode_csrRd_toNat]; simp only [BitVec.toNat_ofNat]; omega)⟩

theorem csrWr (i : BitVec 8) (d : CsrWord) : Statement (.csrWr i d) := by
  have h0 := i.isLt
  have h1 := d.isLt
  refine ⟨BitVec.eq_of_toNat_eq ?_, rfl, ?_⟩
  · rw [wordOp, field_toNat, encode_csrWr_toNat, Instr.op]
    simp only [BitVec.toNat_ofNat]
    omega
  · exact (rsvMask_rw_iff _).2
      (BitVec.eq_of_toNat_eq (by rw [field_toNat, encode_csrWr_toNat]; simp only [BitVec.toNat_ofNat]; omega))

theorem clear : Statement .clear := by
  refine ⟨?_, ?_, ?_⟩ <;> decide

end Sys2Proof.Laws.EncodesItsFormat
end

