-- ==== Sys2Proof/Tests/Slice0.lean ====
section
/-! SUPPORT. Small tests: decoding, the checks of WellFormed, one step of each command on vectors of
95_test_vectors.md, the assembler's lines, and for every statement with hypotheses a state that meets them. -/

namespace Sys2Proof.Tests

open Sys2Proof Sys2Proof.Machine

/-! ### Decoding: words written out field by field from 30_encoding.md R82 -/

theorem test_decode_nop : Sys2Proof.decode (0b0000#4 ++ 0#60) = .ok .nop := by decide

theorem test_decode_sample :
    Sys2Proof.decode (0b0001#4 ++ 0b1#1 ++ 0b10#2 ++ 0b000000000#9 ++ 0x800000000001#48)
      = .ok (.sample .b 0b10#2 0x800000000001#48) := by decide

/-- The reserved level code decodes: SAMPLE refuses it (R85, vector ED7). -/
theorem test_decode_sample_reserved_level :
    Sys2Proof.decode 0x1600000000000007#64 = .ok (.sample .a 0b11#2 7#48) := by decide

theorem test_decode_close : Sys2Proof.decode (0b0010#4 ++ 0b1#1 ++ 0#59) = .ok (.close .b) := by decide

theorem test_decode_query :
    Sys2Proof.decode (0b0011#4 ++ 0b0#1 ++ 0b00000000000#11 ++ 0xFFFFFFFFFFFF#48)
      = .ok (.query .a 0xFFFFFFFFFFFF#48) := by decide

theorem test_decode_decode : Sys2Proof.decode (0b0100#4 ++ 0#60) = .ok .decode := by decide

theorem test_decode_asmByte :
    Sys2Proof.decode (0b0101#4 ++ 0b1#1 ++ 0b000#3 ++ 0xA5#8 ++ 0x123456789ABC#48)
      = .ok (.asmByte .fromB 0xA5#8 0x123456789ABC#48) := by decide

theorem test_decode_asmClear : Sys2Proof.decode (0b0110#4 ++ 0#60) = .ok .asmClear := by decide

theorem test_decode_edgeRd :
    Sys2Proof.decode (0b0111#4 ++ 0b0#1 ++ 0#27 ++ 0x80000001#32) = .ok (.edgeRd .a 0x80000001#32) := by decide

theorem test_decode_csrRd :
    Sys2Proof.decode (0b1000#4 ++ 0#20 ++ 0x9D#8 ++ 0#32) = .ok (.csrRd 0x9D#8) := by decide

theorem test_decode_csrWr :
    Sys2Proof.decode (0b1001#4 ++ 0#20 ++ 0x0A#8 ++ 0x80000755#32)
      = .ok (.csrWr 0x0A#8 0x80000755#32) := by decide

theorem test_decode_clear : Sys2Proof.decode (0b1010#4 ++ 0#60) = .ok .clear := by decide

/-- Vectors EN2 to EN7, ED14 and AS13: the opcode is checked before the reserved bits. -/
theorem test_decode_refusals :
    Sys2Proof.decode 0x0000000000000001#64 = .error .rsvdNonzero ∧
    Sys2Proof.decode 0xB000000000000000#64 = .error .illegalOp ∧
    Sys2Proof.decode 0xF123456789ABCDEF#64 = .error .illegalOp ∧
    Sys2Proof.decode 0xA000000000000001#64 = .error .rsvdNonzero ∧
    Sys2Proof.decode 0x9100000200000005#64 = .error .rsvdNonzero ∧
    Sys2Proof.decode 0x8000001100000001#64 = .error .rsvdNonzero ∧
    Sys2Proof.decode 0x2C00000000000000#64 = .error .rsvdNonzero ∧
    Sys2Proof.decode 0x5100000000000000#64 = .error .rsvdNonzero ∧
    Sys2Proof.decode 0x7000000100000000#64 = .error .rsvdNonzero := by decide

/-- The encoder gives the words of vectors AS1, LS1 and AS11. -/
theorem test_encode_words :
    encode (.asmByte .fromA 0xAA#8 20#48) = 0x50AA000000000014#64 ∧
    encode (.sample .a Level.mid.code 150#48) = 0x1200000000000096#64 ∧
    encode (.csrWr 0x0A#8 0x80000755#32) = 0x9000000A80000755#64 := by decide

theorem test_decodeTableWord :
    decodeTableWord 64 0xA000000000000000 = some .clear ∧ decodeTableWord 64 0xB000000000000000 = none := by decide

/-- A word placed where the next step takes it is the one that runs. -/
theorem test_withFetchWord :
    step (State.reset.withFetchWord 64 0x8000000000000000)
      = .next { State.reset with out := [0x300000004D430001#64] } := rfl

/-- A list of bytes shorter than a word carries no command; nine bytes carry one and leave one. -/
theorem test_decodeBytes :
    decodeBytes [0#8, 0#8, 0#8] = none ∧
    decodeBytes [0x64#8, 0#8, 0#8, 0#8, 0#8, 0#8, 0#8, 0x1A#8, 0x77#8]
      = some (.ok (.sample .b 0b01#2 100#48), [0x77#8]) := by decide

/-! ### The checks of WellFormed -/

theorem test_wellFormed_level :
    (Instr.sample .a 3#2 7#48).wellFormed = false ∧ (Instr.sample .a 2#2 7#48).wellFormed = true := by decide

theorem test_wellFormed_csrIndex :
    (Instr.csrRd 0x05#8).wellFormed = false ∧ (Instr.csrRd 0x1D#8).wellFormed = true ∧
    (Instr.csrWr 0x1E#8 0#32).wellFormed = false := by decide

theorem test_wellFormed_csrWritable :
    (Instr.csrWr 0x00#8 0x1234#32).wellFormed = false ∧ (Instr.csrWr 0x11#8 1#32).wellFormed = true := by decide

theorem test_wellFormed_csrValue :
    (Instr.csrWr 0x02#8 0#32).wellFormed = false ∧ (Instr.csrWr 0x03#8 0x00640099#32).wellFormed = false ∧
    (Instr.csrWr 0x03#8 0x00640097#32).wellFormed = true := by decide

/-! ### Small states -/

/-- An OPEN channel with one entry, `(10, High)`, and a last sample at 20: recorded or not. -/
def openChan (recorded : Bool) : Chan :=
  { state := .open_
    count := 1#32
    lastTime := if recorded then 10#48 else 20#48
    lastLevel := .high
    prevRec := recorded
    edges := [(0, ⟨10#48, .high⟩)] }

/-- A CLOSED channel with the given entries. -/
def closedChan (es : List Edge) : Chan :=
  { state := .closed
    count := BitVec.ofNat 32 es.length
    lastTime := 0#48
    lastLevel := .low
    prevRec := true
    edges := es.mapIdx fun i e => (i, e) }

/-- Vector LS1's channel 0, CLOSED. -/
def ls1 : State :=
  { State.reset with
    ch0 := closedChan [⟨100#48, .low⟩, ⟨120#48, .low⟩, ⟨150#48, .mid⟩, ⟨200#48, .high⟩] }

/-- Vector DC2's channels, CLOSED, with BIT_TICKS = 10. -/
def dc2 : State :=
  { State.reset with
    bitTicks := 10#32
    ch0 := closedChan [⟨0#48, .high⟩, ⟨100#48, .low⟩, ⟨130#48, .high⟩, ⟨170#48, .low⟩, ⟨190#48, .high⟩,
      ⟨210#48, .low⟩, ⟨230#48, .high⟩, ⟨240#48, .low⟩, ⟨280#48, .high⟩, ⟨290#48, .low⟩, ⟨300#48, .high⟩,
      ⟨400#48, .high⟩]
    ch1 := closedChan [⟨0#48, .low⟩, ⟨100#48, .mid⟩, ⟨210#48, .low⟩, ⟨400#48, .low⟩] }

/-- Vector AS1 before its sixth byte. -/
def as1 : State :=
  { State.reset with
    bitTicks := 10#32
    bytesScanned := 5#32
    asm :=
      { state := .end_
        havePrev := true
        prevTime := 40#48
        prevDir := .fromA
        fMarker := 0x01#8
        fType := 0#4
        fStart := 0#32
        fLen := 2#8
        fCount := 2#8
        fSum := 0x99#8
        fData := [(0, 0xAA#8), (1, 0xBB#8)] } }

/-- A state with channel 0 OPEN, under a capacity. -/
def opened (recorded : Bool) (depth : CsrWord) : State :=
  { State.reset with edgeDepth := depth, ch0 := openChan recorded }

/-- The next state, or the one before where there is none. -/
def after (w : Word) (s : State) : State :=
  match runWord w s with
  | .next t => t
  | _ => s

/-! ### One step of each command -/

/-- Vector EN1. -/
theorem test_nop : runWord 0x0000000000000000#64 ls1 = .next ls1 := rfl

/-- Vector EN2: the event, LAST_ERR and ISR. -/
theorem test_error_procedure :
    let t := after 0x0000000000000001#64 State.reset
    t.out = [0xE002000000000001#64] ∧ t.lastErr = 0x00000002#32 ∧ t.isr = 1#32 := by decide

/-- A transition sample whose predecessor is not recorded: both are appended (ED1's L20 after H10). -/
theorem test_sample_transition :
    (after 0x1000000000000028#64 (opened false 3#32)).ch0 =
      { state := .open_, count := 3#32, lastTime := 40#48, lastLevel := .low, prevRec := true,
        edges := [(0, ⟨10#48, .high⟩), (1, ⟨20#48, .high⟩), (2, ⟨40#48, .low⟩)] } := by decide

/-- Vectors ED5 and ED11: the duplicate time, and the overflow with nothing recorded. -/
theorem test_sample_failures :
    (after 0x100000000000000A#64 (opened true 1024#32)).out = [0xE10500000000000A#64] ∧
    (after 0x100000000000000A#64 (opened true 1024#32)).ch0 = { openChan true with state := .failed } ∧
    (after 0x1000000000000015#64 (opened false 2#32)).out = [0xE107000000000015#64] ∧
    (after 0x1000000000000015#64 (opened false 2#32)).ch0 = { openChan false with state := .failed } := by decide

/-- Vector ED3's CLOSE: the last sample is appended. -/
theorem test_close_appends :
    (after 0x2000000000000000#64 (opened false 2#32)).ch0 =
      { state := .closed, count := 2#32, lastTime := 20#48, lastLevel := .high, prevRec := true,
        edges := [(0, ⟨10#48, .high⟩), (1, ⟨20#48, .high⟩)] } := by decide

/-- Vector ED9. -/
theorem test_close_empty :
    let t := after 0x2800000000000000#64 State.reset
    t.out = [0xE206000000000000#64] ∧ t.isr = 5#32 ∧ t.lastErr = 0x206#32 ∧ t.ch1.state = .failed := by decide

/-- Vector LS1: before the first entry, and one tick before an entry. -/
theorem test_query :
    (after 0x3000000000000063#64 ls1).out = [0x1002000000000063#64] ∧
    (after 0x3000000000000095#64 ls1).out = [0x1000000000000095#64] := by decide

/-- Vector LS1: the third entry, and the index at count. -/
theorem test_edgeRd :
    (after 0x7000000000000002#64 ls1).out = [0x2001000000000096#64] ∧
    (after 0x7000000000000004#64 ls1).out = [0xE70D000000000004#64] := by decide

/-- Vector DC2: the events. -/
theorem test_decode_events :
    (after 0x4000000000000000#64 dc2).out =
      [0x483C000000000064#64, 0x40420000000000D2#64, 0x8000000000000002#64] := by decide

/-- Vector DC2: the end state. -/
theorem test_decode_end :
    let t := after 0x4000000000000000#64 dc2
    t.bytesDecoded = 2#32 ∧ t.bytesScanned = 2#32 ∧ statusValue t = 0x8A#32 ∧ t.isr = 0x100#32 := by decide

/-- Vector AS1: the sixth byte. -/
theorem test_asmByte_frame :
    let t := after 0x5003000000000032#64 as1
    t.out = [0x5001029900000000#64, 0x60000000000000AA#64, 0x60000000000001BB#64, 0x7000000300000005#64] ∧
    t.framesFound = 1#32 ∧ t.bytesScanned = 6#32 ∧ statusValue t = 0x80#32 ∧ t.isr = 0x20#32 := by decide

/-- Vector AS4: the wrong terminator. -/
theorem test_asmByte_drop :
    let t := after 0x5004000000000032#64 as1
    t.out = [] ∧ t.framesDropped = 1#32 ∧ t.framesFound = 0#32 ∧ t.isr = 0x40#32 := by decide

/-- Vector AS14: STATUS and BYTES_SCANNED after it. -/
theorem test_asmClear :
    let t := after 0x6000000000000000#64 as1
    statusValue t = 0#32 ∧ t.bytesScanned = 0#32 ∧ t.isr = 0#32 := by decide

/-- Vector CT1: a marker, and EDGE_DEPTH. -/
theorem test_csrRd :
    (after 0x8000000900000000#64 State.reset).out = [0x3000000980000102#64] ∧
    (after 0x8000001D00000000#64 State.reset).out = [0x3000001D00000400#64] := by decide

/-- Vectors AS11 and CT2: a marker written, a read-only register refused. -/
theorem test_csrWr :
    (after 0x9000000A80000755#64 State.reset).markers[2] = 0x80000755#32 ∧
    (after 0x9000000000001234#64 State.reset).out = [0xE90B000000001234#64] := by decide

/-- CLEAR (R209): STATUS, and the configuration it keeps. -/
theorem test_clear :
    let t := after 0xA000000000000000#64 dc2
    statusValue t = 0#32 ∧ t.bitTicks = 10#32 ∧ t.ch0.count = 0#32 := by decide

/-- Vector 1.5: the sampling instants of a start edge at 100 with BIT_TICKS = 10. -/
theorem test_sampling_instants :
    (List.range 8).map (sampleInstant (decodeCfg dc2) 100#48) = [230, 250, 270, 290, 310, 330, 350, 370] := by decide

/-- Vector LS2: half-tick lookups. -/
theorem test_half_ticks :
    let s := { State.reset with ch0 := closedChan [⟨0#48, .high⟩, ⟨100#48, .low⟩, ⟨105#48, .high⟩] }
    levelAtHalf s .a 209 = .low ∧ levelAtHalf s .a 210 = .high ∧ levelAtHalf s .a 199 = .high := by decide

/-! ### The assembler (30_encoding.md R106, R107) -/

theorem test_assemble_command :
    assembleLine ['S', 'A', 'M', 'P', 'L', 'E', ' ', 'B', ',', ' ', 'M', 'I', 'D', ',', ' ', '0', 'x', '6', '4', ' ',
      ';', ' ', 'x'] = .command (.sample .b 0b01#2 100#48) := by decide

theorem test_assemble_blank : assembleLine [' ', ';', 'a'] = .blank := by decide

/-- A value that does not fit its field is refused. -/
theorem test_assemble_refused :
    assembleLine ['C', 'S', 'R', '_', 'R', 'D', ' ', '2', '5', '6'] = .refused := by decide

/-- R107: the two pseudo-instructions whose data is put together from fields, on the reset values of FRAMING and
MARKER1 (10_state.md R33, R35). -/
theorem test_pseudo :
    pseudoSetFraming 8#4 1#2 2#2 100#16 = .csrWr 0x03#8 0x00640098#32 ∧
    pseudoSetMarker 1 0x02#8 1#4 = .csrWr 0x09#8 0x80000102#32 ∧
    assembleLine ['C', 'L', 'R', '_', 'M', 'A', 'R', 'K', 'E', 'R', ' ', '7'] = .command (.csrWr 0x0F#8 0#32) := by
  decide

/-! ### Witnesses: states and operands that meet the hypotheses of each statement -/

theorem test_witness_EveryWordDecodesOrIsRefused :
    0xB ≤ ((0xB000000000000000#64).extractLsb' 60 4).toNat ∧ 0xB ≤ ((0xF000000000000000#64).extractLsb' 60 4).toNat ∧
    ∀ p ∈ reservedMaskTable,
      ((p.1 ++ 0#60).extractLsb' 60 4 = p.1 ∧ (p.1 ++ 0#60) &&& p.2 = 0#64) ∧
      ((p.1 ++ 0#60 ||| p.2).extractLsb' 60 4 = p.1 ∧ (p.1 ++ 0#60 ||| p.2) &&& p.2 ≠ 0#64) := by
  refine ⟨by decide, by decide, fun p hp => ?_⟩
  simp only [reservedMaskTable, List.mem_cons, List.not_mem_nil, or_false] at hp
  rcases hp with rfl | rfl | rfl | rfl | rfl | rfl | rfl | rfl | rfl | rfl | rfl <;> decide

/-- A state to which the host offers one thing. -/
def offered (p : PortInput) : State := { ls1 with inputs := [p] }

theorem test_witness_StepRunsDecodedCommand :
    (offered (.command 0xA000000000000000#64)).inputs = .command 0xA000000000000000#64 :: [] ∧
    Sys2Proof.decode 0xA000000000000000#64 = .ok .clear := by decide

theorem test_witness_StepRefusesOtherWords :
    (offered (.command 0xB000000000000000#64)).inputs = .command 0xB000000000000000#64 :: [] ∧
    Sys2Proof.decode 0xB000000000000000#64 = .error .illegalOp ∧
    Sys2Proof.decode 0xA000000000000001#64 = .error .rsvdNonzero := by decide

theorem test_witness_IdleAndTakingAnEvent :
    ls1.inputs = [] ∧ (offered .takeEvent).inputs = .takeEvent :: [] ∧
    { offered .takeEvent with out := [5#64] }.evtTaken < [5#64].length ∧
    (offered .takeEvent).out.length ≤ (offered .takeEvent).evtTaken := by decide

theorem test_witness_AssertingReset : (offered .reset).inputs = .reset :: [] := by decide

theorem test_witness_ErrorProcedure :
    (ErrCode.illegalOp, 0x01#8) ∈ errorCodeTable ∧ (ErrCode.asmTimeOrder, 0x0E#8) ∈ errorCodeTable := by decide

theorem test_witness_FirstSampleIsRecorded :
    let s := { State.reset with edgeDepth := 2#32 }
    (s.chan .a).state = .empty ∧ (s.chan .a).count = 0#32 ∧ 2 ≤ s.edgeDepth.toNat := by decide

theorem test_witness_SameLevelSampleIsNotRecorded :
    let s := opened true 2#32
    (s.chan .a).state = .open_ ∧ (s.chan .a).lastTime.toNat < (11#48).toNat ∧ Level.high = (s.chan .a).lastLevel := by
  decide

/-- Both forms, each with the last entry of the capacity. -/
theorem test_witness_TransitionSampleIsRecorded :
    (let s := opened true 2#32
     (s.chan .a).state = .open_ ∧ (s.chan .a).lastTime.toNat < (11#48).toNat ∧ Level.low ≠ (s.chan .a).lastLevel ∧
       (s.chan .a).count.toNat + (if (s.chan .a).prevRec then 1 else 2) ≤ s.edgeDepth.toNat ∧
       (s.chan .a).prevRec = true) ∧
    (let s := opened false 3#32
     (s.chan .a).state = .open_ ∧ (s.chan .a).lastTime.toNat < (21#48).toNat ∧ Level.mid ≠ (s.chan .a).lastLevel ∧
       (s.chan .a).count.toNat + (if (s.chan .a).prevRec then 1 else 2) ≤ s.edgeDepth.toNat ∧
       (s.chan .a).prevRec = false) := by decide

/-- At the last sample's own time, and before it. -/
theorem test_witness_OutOfOrderSampleFailsTheChannel :
    let s := opened true 2#32
    (s.chan .a).state = .open_ ∧ (10#48).toNat ≤ (s.chan .a).lastTime.toNat ∧
      (0#48).toNat ≤ (s.chan .a).lastTime.toNat := by decide

theorem test_witness_OverflowFailsTheChannel :
    (let s := opened false 2#32
     (s.chan .a).state = .open_ ∧ (s.chan .a).lastTime.toNat < (21#48).toNat ∧ Level.low ≠ (s.chan .a).lastLevel ∧
       s.edgeDepth.toNat < (s.chan .a).count.toNat + (if (s.chan .a).prevRec then 1 else 2)) ∧
    (let s := opened true 1#32
     (s.chan .a).state = .open_ ∧ (s.chan .a).lastTime.toNat < (11#48).toNat ∧ Level.low ≠ (s.chan .a).lastLevel ∧
       s.edgeDepth.toNat < (s.chan .a).count.toNat + (if (s.chan .a).prevRec then 1 else 2)) ∧
    (let s := opened false 1#32
     (s.chan .a).state = .open_ ∧ (s.chan .a).prevRec = false ∧
       s.edgeDepth.toNat < (s.chan .a).count.toNat + 1) := by decide

theorem test_witness_CloseFinishesTheEdgeList :
    (((opened true 2#32).chan .a).state = .open_ ∧ ((opened true 2#32).chan .a).prevRec = true) ∧
    (((opened false 2#32).chan .a).state = .open_ ∧ ((opened false 2#32).chan .a).prevRec = false ∧
      ((opened false 2#32).chan .a).count.toNat + 1 ≤ (opened false 2#32).edgeDepth.toNat) := by decide

/-- A state whose two channels have failed. -/
def failed : State :=
  { State.reset with ch0 := { openChan true with state := .failed }, ch1 := { openChan true with state := .failed } }

theorem test_witness_EdgeDetectorRefusals :
    (ls1.chan .a).state = .closed ∧ (failed.chan .b).state = .failed ∧ (State.reset.chan .a).state = .empty := by
  decide

/-- The samples of vector ED1. -/
def ed1 : List Edge :=
  [⟨0#48, .high⟩, ⟨10#48, .high⟩, ⟨20#48, .low⟩, ⟨30#48, .low⟩, ⟨40#48, .low⟩, ⟨50#48, .high⟩]

theorem timesRise_ed1 : timesRise ed1 := by
  unfold timesRise
  decide

theorem test_witness_EdgeListIsItsClosedForm :
    (State.reset.chan .b).state = .empty ∧ (State.reset.chan .b).count = 0#32 ∧ (State.reset.chan .b).edges = [] ∧
    ed1 ≠ [] ∧ timesRise ed1 ∧ (edgeListOf ed1).length ≤ State.reset.edgeDepth.toNat :=
  ⟨by decide, by decide, by decide, by decide, timesRise_ed1, by decide⟩

/-- Vector ED1: the closed form. -/
theorem test_edgeListOf_ed1 :
    edgeListOf ed1 = [⟨0#48, .high⟩, ⟨10#48, .high⟩, ⟨20#48, .low⟩, ⟨40#48, .low⟩, ⟨50#48, .high⟩] := by decide

/-- Vector ED3's three samples of one level: one run, two entries. -/
theorem test_witness_EdgeListCounts :
    let samples : List Edge := [⟨1#48, .low⟩, ⟨2#48, .low⟩, ⟨3#48, .low⟩]
    ∃ s', (State.reset.chan .b).state = .empty ∧ (State.reset.chan .b).count = 0#32 ∧
      (State.reset.chan .b).edges = [] ∧ samples ≠ [] ∧ timesRise samples ∧
      (edgeListOf samples).length ≤ State.reset.edgeDepth.toNat ∧
      execAll (sampleAndClose .b samples) State.reset = .next s' ∧ (runsOf samples).length = 1 :=
  ⟨_, rfl, rfl, rfl, by decide, by unfold timesRise; decide, by decide, rfl, by decide⟩

/-- One sample alone: one run, one entry. -/
theorem test_witness_EdgeListCounts_single :
    let samples : List Edge := [⟨5#48, .mid⟩]
    ∃ s', (State.reset.chan .a).state = .empty ∧ (State.reset.chan .a).count = 0#32 ∧
      (State.reset.chan .a).edges = [] ∧ samples ≠ [] ∧ timesRise samples ∧
      (edgeListOf samples).length ≤ State.reset.edgeDepth.toNat ∧
      execAll (sampleAndClose .a samples) State.reset = .next s' ∧
      (runsOf samples).length = 1 ∧ samples.length = 1 :=
  ⟨_, rfl, rfl, rfl, by decide, List.pairwise_singleton _ _, by decide, rfl, by decide, rfl⟩

/-- A CLOSED channel with two entries. -/
def closedTwo : Chan := closedChan [⟨10#48, .high⟩, ⟨20#48, .high⟩]

theorem noThreeEqual_two (a b : Edge) : noThreeEqual [a, b] := by
  intro k x y z _ _ h
  simp at h

theorem chanInv_closedTwo : ChanInv 2 closedTwo :=
  ⟨by decide, by decide, by unfold timesRise; decide, noThreeEqual_two _ _, by decide,
    fun h => absurd h (by decide), by decide⟩

theorem test_witness_EdgeDetectionIsIdempotent :
    closedTwo.state = .closed ∧ ChanInv 2 closedTwo ∧ (State.reset.chan .a).state = .empty ∧
    (State.reset.chan .a).count = 0#32 ∧ (State.reset.chan .a).edges = [] ∧
    (entries closedTwo).length ≤ State.reset.edgeDepth.toNat :=
  ⟨by decide, chanInv_closedTwo, by decide, by decide, by decide, by decide⟩

/-- The one sample `(5, Mid)` of vector ED2, at its own time. -/
theorem test_witness_EdgeListReconstructsTheWaveform :
    let samples : List Edge := [⟨5#48, .mid⟩]
    ∃ s', (State.reset.chan .a).state = .empty ∧ (State.reset.chan .a).count = 0#32 ∧
      (State.reset.chan .a).edges = [] ∧ timesRise samples ∧ (edgeListOf samples).length ≤ State.reset.edgeDepth.toNat ∧
      (∃ e, samples.head? = some e ∧ e.time.toNat ≤ (5#48).toNat) ∧
      execAll (sampleAndClose .a samples) State.reset = .next s' :=
  ⟨_, rfl, rfl, rfl, List.pairwise_singleton _ _, by decide, ⟨_, rfl, by decide⟩, rfl⟩

/-- Vector ED1's samples, between two of them. -/
theorem test_witness_EdgeListReconstructsTheWaveform_ed1 :
    ∃ s', timesRise ed1 ∧ (edgeListOf ed1).length ≤ State.reset.edgeDepth.toNat ∧
      (∃ e, ed1.head? = some e ∧ e.time.toNat ≤ (45#48).toNat) ∧
      execAll (sampleAndClose .b ed1) State.reset = .next s' :=
  ⟨_, timesRise_ed1, by decide, ⟨_, rfl, by decide⟩, rfl⟩

/-- Just before the first entry, and at an entry's time with every later entry later. -/
theorem test_witness_LevelAtReadsTheRightmostEntry :
    (∀ k, k < (ls1.chan .a).count.toNat → (99#48).toNat < (edgeAt ls1 .a k).time.toNat) ∧
    (1 < (ls1.chan .a).count.toNat ∧ (edgeAt ls1 .a 1).time.toNat ≤ (120#48).toNat ∧
      ∀ j, j < (ls1.chan .a).count.toNat → 1 < j → (120#48).toNat < (edgeAt ls1 .a j).time.toNat) := by decide

theorem test_witness_LevelAtHalfReadsHalfTicks :
    (∀ k, k < (ls1.chan .a).count.toNat → 199 < 2 * (edgeAt ls1 .a k).time.toNat) ∧
    (0 < (ls1.chan .a).count.toNat ∧ 2 * (edgeAt ls1 .a 0).time.toNat ≤ 200 ∧
      ∀ j, j < (ls1.chan .a).count.toNat → 0 < j → 200 < 2 * (edgeAt ls1 .a j).time.toNat) := by decide

/-- Rising times; the tick before an entry, the previous entry's own tick, and tick 0. -/
theorem test_witness_SamplerRoundTrip :
    (∀ k, k < (ls1.chan .a).count.toNat → ∀ j, j < k →
      (edgeAt ls1 .a j).time.toNat < (edgeAt ls1 .a k).time.toNat) ∧
    (30 ≤ (edgeAt ls1 .a 2).time.toNat - (edgeAt ls1 .a 1).time.toNat ∧
      (149#48).toNat + 1 = (edgeAt ls1 .a 2).time.toNat ∧ (120#48).toNat + 30 = (edgeAt ls1 .a 2).time.toNat) ∧
    (100 ≤ (edgeAt ls1 .a 0).time.toNat ∧ (0#48).toNat + 100 = (edgeAt ls1 .a 0).time.toNat) := by decide

theorem test_witness_QueryAnswers : (ls1.chan .a).state = .closed := by decide

/-- The last entry. -/
theorem test_witness_EdgeReadAnswers :
    (ls1.chan .a).state = .closed ∧ (3#32).toNat < (ls1.chan .a).count.toNat := by decide

theorem test_witness_SamplerAndDecoderRefusals :
    (ls1.chan .b).state ≠ .closed ∧ ((ls1.chan .a).state = .closed ∧ (ls1.chan .a).count.toNat ≤ (4#32).toNat) ∧
    (ls1.ch0.state ≠ .closed ∨ ls1.ch1.state ≠ .closed) ∧
    (let s := { dc2 with bitTicks := 0#32 }
     s.ch0.state = .closed ∧ s.ch1.state = .closed ∧ s.bitTicks = 0#32) := by decide

/-- Vector DC2's entry 1: a start edge, taken with the cursor at its time and passed over with the cursor one later; entry
2 is no start edge; the assembler takes a byte after an earlier one at the same time. -/
theorem test_witness_DecoderPieces :
    startEdge dc2 1 = true ∧ (edgeAt dc2 .a 1).time.toNat = 100 ∧
    ¬ (startEdge dc2 1 = true ∧ 101 ≤ (edgeAt dc2 .a 1).time.toNat) ∧ startEdge dc2 2 = false ∧
    as1.bitTicks ≠ 0#32 ∧ as1.asm.havePrev = true ∧
    ¬ (as1.asm.havePrev = true ∧
      (DecodedByte.mk as1.asm.prevTime 0x3C#8 .fromA true true).start.toNat < as1.asm.prevTime.toNat) := by decide

theorem test_witness_DecodedValueBits : (State.reset.framing.extractLsb' 0 4).toNat ≤ 8 := by decide

theorem test_witness_DecodeRefinesTheBatchDecoder :
    dc2.ch0.state = .closed ∧ dc2.ch1.state = .closed ∧ dc2.bitTicks ≠ 0#32 := by decide

theorem test_witness_DecodeCompletes :
    dc2.ch0.state = .closed ∧ dc2.ch1.state = .closed ∧ dc2.bitTicks ≠ 0#32 := by decide

/-- Vector DC2: two bytes, one after the other. -/
theorem test_witness_DecodedBytesAreSpacedAndBounded :
    dc2.bitTicks ≠ 0#32 ∧ framingLegal dc2.framing = true ∧
    (decodedBytes dc2)[0]? = some ⟨100#48, 0x3C#8, .fromB, false, false⟩ ∧
    (decodedBytes dc2)[0 + 1]? = some ⟨210#48, 0x42#8, .fromA, false, false⟩ := by decide

/-- Two states that differ in the assembler, the counters and the events. -/
theorem test_witness_DecodeIsRepeatable :
    let u := { dc2 with asm := as1.asm, bytesScanned := 5#32, out := [7#64] }
    ∃ t v, dc2.ch0 = u.ch0 ∧ dc2.ch1 = u.ch1 ∧ dc2.freeCount = u.freeCount ∧ dc2.ctrl = u.ctrl ∧
      dc2.bitTicks = u.bitTicks ∧ dc2.framing = u.framing ∧ dc2.endMarker = u.endMarker ∧ dc2.markers = u.markers ∧
      dc2.ch0.state = .closed ∧ dc2.ch1.state = .closed ∧ dc2.bitTicks ≠ 0#32 ∧
      exec .decode dc2 = .next t ∧ exec .decode u = .next v := by
  refine ⟨after 0x4000000000000000#64 dc2,
    after 0x4000000000000000#64 { dc2 with asm := as1.asm, bytesScanned := 5#32, out := [7#64] },
    rfl, rfl, rfl, rfl, rfl, rfl, rfl, rfl, rfl, rfl, by decide, rfl, rfl⟩

/-- Two entries for one byte: the first is found; another byte is not. -/
theorem test_witness_MarkerLookupTakesTheSmallestIndex :
    let s := { State.reset with markers := #v[0#32, 0#32, 0x80000755#32, 0x80000355#32, 0#32, 0#32, 0#32, 0#32] }
    lookupMarker s 0x55#8 = some 7#4 ∧ lookupMarker s 0x01#8 = none := by decide

/-- The assembler of AS1 before a byte, with a tolerance of 1000: a gap of 1001, a change of direction, a gap of 1000. -/
theorem test_witness_ResyncPrecedesTheTransition :
    let tol := (as1.framing.extractLsb' 16 16).toNat * as1.bitTicks.toNat
    as1.asm.havePrev = true ∧ as1.asm.state ≠ .idle ∧ { as1.asm with state := .idle }.state = .idle ∧
    as1.asm.prevTime.toNat + tol < (1041#48).toNat ∧ Direction.fromB ≠ as1.asm.prevDir ∧
    ¬ (as1.asm.prevTime.toNat + tol < (1040#48).toNat ∨ Direction.fromA ≠ as1.asm.prevDir) := by decide

/-- AS1's assembler in another state. -/
def as1In (st : AsmState) : State := { as1 with asm := { as1.asm with state := st } }

/-- Each clause, at the previous byte's own time; Data with the last position of the buffer. -/
theorem test_witness_AsmByteBuildsTheFrame :
    (∀ st ∈ [AsmState.idle, .len, .data, .sum],
      (as1In st).bitTicks ≠ 0#32 ∧
      ¬ ((as1In st).asm.havePrev = true ∧ (40#48).toNat < (as1In st).asm.prevTime.toNat) ∧
      (resync 40#48 .fromA (as1In st)).asm.state = st) ∧
    lookupMarker (as1In .idle) 0x07#8 = none ∧ lookupMarker (as1In .idle) 0x02#8 = some 1#4 ∧
    (resync 40#48 .fromA { as1In .data with asm := { (as1In .data).asm with fCount := 254#8 } }).asm.fCount.toNat < 255 :=
  by decide

/-- The right terminator and checksum, and the wrong terminator. -/
theorem test_witness_AsmByteEndsTheFrame :
    let r := resync 50#48 .fromA as1
    as1.bitTicks ≠ 0#32 ∧ ¬ (as1.asm.havePrev = true ∧ (50#48).toNat < as1.asm.prevTime.toNat) ∧
    r.asm.state = .end_ ∧ 0x03#8 = as1.endMarker.extractLsb' 0 8 ∧
    (r.asm.fLen.toNat + (((List.range r.asm.fLen.toNat).map (payloadAt r)).map BitVec.toNat).sum
      + r.asm.fSum.toNat) % 256 = 0 ∧
    0x04#8 ≠ as1.endMarker.extractLsb' 0 8 := by decide

/-- A state that waits for a frame. -/
def waiting : State := { State.reset with bitTicks := 10#32 }

/-- A state that waits for a frame, its last byte seen at time 0 in a direction. -/
def waitingAfter (dir : Direction) : State :=
  { waiting with asm := { waiting.asm with havePrev := true, prevTime := 0#48, prevDir := dir } }

/-- AS1's frame with a checksum and a terminator of one's own, its first byte at a time. -/
def as1Bytes (start : Nat) (sum terminator : Byte) : List (Byte × Time) :=
  [(0x01#8, BitVec.ofNat 48 start), (0x02#8, BitVec.ofNat 48 (start + 10)), (0xAA#8, BitVec.ofNat 48 (start + 20)),
    (0xBB#8, BitVec.ofNat 48 (start + 30)), (sum, BitVec.ofNat 48 (start + 40)),
    (terminator, BitVec.ofNat 48 (start + 1040))]

/-- AS1's frame and a frame of length 0, first after a clear. -/
theorem test_witness_ValidFrameIsEmitted :
    waiting.bitTicks ≠ 0#32 ∧ waiting.asm.state = .idle ∧
    ([0xAA#8, 0xBB#8].length ≤ 255 ∧ lookupMarker waiting 0x01#8 = some 0#4 ∧
      frameSum [0xAA#8, 0xBB#8] 0x99#8 % 256 = 0 ∧
      (as1Bytes 0 0x99#8 0x03#8).map Prod.fst
        = frameBytes 0x01#8 [0xAA#8, 0xBB#8] 0x99#8 (waiting.endMarker.extractLsb' 0 8)) ∧
    (lookupMarker waiting 0x02#8 = some 1#4 ∧ frameSum [] 0x00#8 % 256 = 0 ∧
      [(0x02#8, 0#48), (0x00#8, 10#48), (0x00#8, 20#48), (0x03#8, 30#48)].map Prod.fst
        = frameBytes 0x02#8 [] 0x00#8 (waiting.endMarker.extractLsb' 0 8)) ∧
    notBefore waiting (as1Bytes 0 0x99#8 0x03#8) ∧
    gapsWithin ((waiting.framing.extractLsb' 16 16).toNat * waiting.bitTicks.toNat) (as1Bytes 0 0x99#8 0x03#8) ∧
    gapsWithin ((waiting.framing.extractLsb' 16 16).toNat * waiting.bitTicks.toNat)
      [(0x02#8, 0#48), (0x00#8, 10#48), (0x00#8, 20#48), (0x03#8, 30#48)] := by
  refine ⟨by decide, by decide, by decide, by decide, ?_, ?_, ?_⟩ <;>
    simp [gapsWithin, notBefore, as1Bytes, waiting, State.reset, Asm.reset]

/-- AS1's frame after a byte of the same direction at the same time, and after one of the other direction with a gap
beyond the tolerance: an Idle assembler discards nothing in either. -/
theorem test_witness_ValidFrameIsEmitted_followsABytes :
    ∀ dir, (waitingAfter dir).bitTicks ≠ 0#32 ∧ (waitingAfter dir).asm.state = .idle ∧
      (waitingAfter dir).asm.havePrev = true ∧ lookupMarker (waitingAfter dir) 0x01#8 = some 0#4 ∧
      notBefore (waitingAfter dir) (as1Bytes 0 0x99#8 0x03#8) ∧
      notBefore (waitingAfter dir) (as1Bytes 1001 0x99#8 0x03#8) := by
  intro dir
  refine ⟨by cases dir <;> decide, rfl, rfl, rfl, ?_, ?_⟩ <;> simp [notBefore, waitingAfter, as1Bytes]

/-- AS2's wrong checksum with the right terminator, and the right checksum with a wrong terminator; each also after an
earlier byte. -/
theorem test_witness_InvalidFrameIsDropped :
    waiting.bitTicks ≠ 0#32 ∧ waiting.asm.state = .idle ∧
    [0xAA#8, 0xBB#8].length ≤ 255 ∧ lookupMarker waiting 0x01#8 = some 0#4 ∧
    (frameSum [0xAA#8, 0xBB#8] 0x9A#8 % 256 ≠ 0 ∧
      (as1Bytes 0 0x9A#8 0x03#8).map Prod.fst = frameBytes 0x01#8 [0xAA#8, 0xBB#8] 0x9A#8 0x03#8) ∧
    (0x04#8 ≠ waiting.endMarker.extractLsb' 0 8 ∧ frameSum [0xAA#8, 0xBB#8] 0x99#8 % 256 = 0 ∧
      (as1Bytes 0 0x99#8 0x04#8).map Prod.fst = frameBytes 0x01#8 [0xAA#8, 0xBB#8] 0x99#8 0x04#8) ∧
    (notBefore waiting (as1Bytes 0 0x9A#8 0x03#8) ∧ notBefore (waitingAfter .fromB) (as1Bytes 0 0x99#8 0x04#8)) ∧
    gapsWithin ((waiting.framing.extractLsb' 16 16).toNat * waiting.bitTicks.toNat) (as1Bytes 0 0x9A#8 0x03#8) ∧
    gapsWithin ((waiting.framing.extractLsb' 16 16).toNat * waiting.bitTicks.toNat) (as1Bytes 0 0x99#8 0x04#8) := by
  refine ⟨by decide, by decide, by decide, by decide, by decide, by decide, ?_, ?_, ?_⟩ <;>
    simp [gapsWithin, notBefore, as1Bytes, waitingAfter, waiting, State.reset, Asm.reset]

/-- Every boundary of the unmapped indices. -/
theorem test_witness_CsrReadAnswers :
    ∀ i ∈ [0x05#8, 0x07#8, 0x1E#8, 0xFF#8], (5 ≤ i.toNat ∧ i.toNat ≤ 7) ∨ 0x1E ≤ i.toNat := by decide

/-- Every row, with a value that meets the conditions of the two rows that have one; DATA_BITS 1 and 8. -/
theorem test_witness_CsrWriteStoresTheMaskedValue :
    ∀ d ∈ [0x00000001#32, 0xFFFFFFF8#32], ∀ p ∈ csrWriteTable,
      (p.1 = .bitTicks → d ≠ 0#32) ∧
      (p.1 = .framing → 1 ≤ (d.extractLsb' 0 4).toNat ∧ (d.extractLsb' 0 4).toNat ≤ 8) := by
  intro d hd p _
  simp only [List.mem_cons, List.not_mem_nil, or_false] at hd
  rcases hd with rfl | rfl <;> exact ⟨fun _ => by decide, fun _ => by decide⟩

theorem test_witness_AssemblerAndRegisterRefusals :
    State.reset.bitTicks = 0#32 ∧
    (as1.bitTicks ≠ 0#32 ∧ as1.asm.havePrev = true ∧ (39#48).toNat < as1.asm.prevTime.toNat) ∧
    (0x13 ≤ (0x13#8).toNat ∧ (0x1D#8).toNat ≤ 0x1D) ∧
    ((0x00640090#32).extractLsb' 0 4 = 0#4 ∧ 8 < ((0x00640099#32).extractLsb' 0 4).toNat ∧
      8 < ((0xFFFFFFFF#32).extractLsb' 0 4).toNat) := by decide

/-- Two states that agree in ISR and IER. -/
theorem test_witness_IrqIsTheOrOfEnabledSources : dc2.isr = as1.isr ∧ dc2.ier = as1.ier := by decide

/-- A state with a pending bit, to which the host offers one thing. -/
def pending (p : PortInput) : State := { ls1 with isr := 0x21#32, inputs := [p] }

/-- Each of the three ways to lose a sticky bit. -/
theorem test_witness_IsrBitsAreSticky :
    ∀ p ∈ [PortInput.reset, .command (encode .clear), .command (encode (.csrWr 0x11#8 0x20#32))],
      ∃ t, step (pending p) = .next t ∧ (pending p).isr.getLsbD 5 = true ∧ t.isr.getLsbD 5 = false := by
  intro p hp
  simp only [List.mem_cons, List.not_mem_nil, or_false] at hp
  rcases hp with rfl | rfl | rfl
  · exact ⟨_, rfl, by decide, by decide⟩
  · exact ⟨_, rfl, by decide, by decide⟩
  · exact ⟨_, rfl, by decide, by decide⟩

/-- A step, and a channel that it closes. -/
theorem test_witness_ChannelLifecycle :
    ∃ t, step { opened true 2#32 with inputs := [.command (encode (.close .a))] } = .next t ∧
      (t.chan .a).state = .closed :=
  ⟨_, rfl, by decide⟩

/-- A step of a sample on a channel that holds an entry, and a refused one on a CLOSED channel. -/
theorem test_witness_EdgeMemoryWriteDiscipline :
    (∃ t, step { opened true 2#32 with inputs := [.command (encode (.sample .a 0#2 11#48))] } = .next t ∧
      0 < ((opened true 2#32).chan .a).count.toNat) ∧
    (∃ t, step (offered (.command (encode (.sample .a 0#2 11#48)))) = .next t ∧
      ((offered (.command (encode (.sample .a 0#2 11#48)))).chan .a).state = .closed) ∧
    ∀ rest : List PortInput, [PortInput.command (encode (.sample .a 0#2 11#48))] ≠ .reset :: rest ∧
      [PortInput.command (encode (.sample .a 0#2 11#48))] ≠ .command (encode .clear) :: rest := by
  refine ⟨⟨_, rfl, by decide⟩, ⟨_, rfl, by decide⟩, fun rest => ⟨by simp, fun h => ?_⟩⟩
  have h2 := (List.cons.inj h).1
  exact absurd h2 (by decide)

theorem test_witness_EventsOnlyAppend :
    (∃ t, step (offered (.command 0x3000000000000063#64)) = .next t) ∧
    ∀ rest, (offered (.command 0x3000000000000063#64)).inputs ≠ .reset :: rest :=
  ⟨⟨_, rfl⟩, fun rest => by simp [offered]⟩

/-- A state with an OPEN channel, a CLOSED one, a frame being built and an event not yet taken, to which the host
offers a sample. -/
def good : State :=
  { State.reset with
    edgeDepth := 2#32
    bitTicks := 10#32
    ch0 := openChan false
    ch1 := closedTwo
    asm := { as1.asm with state := .data, fLen := 3#8 }
    isr := 0x1FF#32
    out := [0x1002000000000063#64]
    inputs := [.command (encode (.sample .a 2#2 30#48))] }

theorem openAgrees_openChan : openAgrees (openChan false) :=
  ⟨⟨10#48, .high⟩, by decide, by decide, by decide, fun f h => absurd h (by decide)⟩

theorem noThreeEqual_one (a : Edge) : noThreeEqual [a] := by
  intro k x y z _ h _
  simp at h

theorem channelsInv_good : ChannelsInv good := by
  refine ⟨by decide, fun c => ?_⟩
  cases c
  · exact ⟨by decide, by decide, by unfold timesRise; decide, noThreeEqual_one _, by decide,
      fun _ => openAgrees_openChan, by decide⟩
  · exact chanInv_closedTwo

theorem assemblerInv_good : AssemblerInv good := by
  refine ⟨by decide, fun p hp => ?_, by decide, by decide, by decide, by decide⟩
  have h : 255 ≤ p := hp
  simp only [good, as1, cellsRead]
  rw [if_neg (by omega), if_neg (by omega)]

theorem registersInv_good : RegistersInv good := by
  refine ⟨?_, ?_, ?_, ?_, ?_, ?_, ?_, ?_⟩ <;> decide

theorem portsInv_good : PortsInv good := by
  refine ⟨by decide, fun w hw => ?_⟩
  obtain rfl : w = 0x1002000000000063#64 := List.mem_singleton.1 hw
  decide

theorem test_witness_StepKeepsChannelsGood : ChannelsInv good ∧ ∃ t, step good = .next t :=
  ⟨channelsInv_good, _, rfl⟩

theorem test_witness_StepKeepsAssemblerGood : AssemblerInv good ∧ ∃ t, step good = .next t :=
  ⟨assemblerInv_good, _, rfl⟩

theorem test_witness_StepKeepsRegistersAndPortsGood :
    RegistersInv good ∧ PortsInv good ∧ ∃ t, step good = .next t :=
  ⟨registersInv_good, portsInv_good, _, rfl⟩

theorem test_witness_GoodStatesNeverStop : Inv good :=
  ⟨channelsInv_good, assemblerInv_good, registersInv_good, portsInv_good⟩

/-- The thresholds of 40_level_quantizer.md and a voltage for each level, 0.3 and 1.2 at the boundaries, in order. -/
theorem test_witness_QuantizerIsMonotonic :
    ∃ th : Thresholds ℝ, (0.29 : ℝ) < th.low ∧ (th.low ≤ (0.3 : ℝ) ∧ (0.3 : ℝ) < th.high) ∧
      th.high ≤ (1.2 : ℝ) ∧ (0.29 : ℝ) ≤ 0.3 :=
  ⟨⟨3 / 10, 6 / 5, by norm_num⟩, by norm_num, ⟨by norm_num, by norm_num⟩, by norm_num, by norm_num⟩

/-- 10_state.md R32: one microsecond a tick and 115200 baud give round(8.68), which is 9. -/
theorem test_defaultBitTicks : defaultBitTicks ⟨1 / 1000000, by norm_num⟩ 9 := by
  refine ⟨by norm_num [defaultBaudRate], ?_⟩
  rw [abs_le]
  constructor <;> norm_num [defaultBaudRate]

end Sys2Proof.Tests
end

/-! The decoder inverted: a word that decodes to a command is that command's word. -/

namespace Sys2Proof

/-! ### What decodes is what was encoded (30_encoding.md R82, R85) -/

/-- The bit of the channel that a word names, as a number (R83). -/
theorem wordCh_bit_toNat (w : Word) : (wordCh w).bit.toNat = w.toNat / 2 ^ 59 % 2 ^ 1 := by
  rw [wordCh, bit_channelOfBit, field_toNat]

/-- The bit of the direction that a word names, as a number (R83). -/
theorem wordDir_bit_toNat (w : Word) : (wordDir w).bit.toNat = w.toNat / 2 ^ 59 % 2 ^ 1 := by
  rw [wordDir, bit_directionOfBit, field_toNat]

/-- A field that is 0, as a number. -/
theorem field_eq_zero {n lo len : Nat} {w : BitVec n} (h : w.extractLsb' lo len = 0#len) :
    w.toNat / 2 ^ lo % 2 ^ len = 0 := by
  rw [← field_toNat, h, BitVec.toNat_ofNat, Nat.zero_mod]

/-- The command that a word's fields name has the format of the word's opcode (R81). -/
theorem formatOfOp_of_instrOfFields {w : Word} {i : Instr} (h : instrOfFields w = some i) :
    formatOfOp (wordOp w) = some i.format := by
  unfold instrOfFields at h
  unfold formatOfOp
  split at h <;> cases h <;> rfl

/-- All that the decoder can answer with a command: the fields name it, and no must-be-zero bit of its format is set. -/
theorem decode_eq_ok {w : Word} {i : Instr} :
    decode w = .ok i ↔ w &&& rsvMask i.format = 0#64 ∧ instrOfFields w = some i := by
  constructor
  · intro h
    unfold decode at h
    split at h
    · cases h
    · rename_i fmt hfmt
      by_cases hrsv : w &&& rsvMask fmt = 0#64
      · rw [if_neg (not_not.2 hrsv)] at h
        split at h
        · cases h
        · rename_i j hj
          cases h
          obtain rfl := Option.some.inj (hfmt.symm.trans (formatOfOp_of_instrOfFields hj))
          exact ⟨hrsv, hj⟩
      · rw [if_pos hrsv] at h
        cases h
  · rintro ⟨hrsv, hi⟩
    simp [decode, formatOfOp_of_instrOfFields hi, hrsv, hi]

/-- The word of the command that a word decodes to is that word. -/
theorem encode_of_decode {w : Word} {i : Instr} (h : decode w = .ok i) : encode i = w := by
  obtain ⟨hrsv, hi⟩ := decode_eq_ok.1 h
  apply BitVec.eq_of_toNat_eq
  have hw := w.isLt
  unfold instrOfFields at hi
  split at hi <;> rename_i hop <;> cases hi <;> rw [wordOp, field_toNat] at hop
  case h_1 =>
    have hz := field_eq_zero ((rsvMask_z_iff w).1 hrsv)
    rw [encode_nop_toNat]
    omega
  case h_2 =>
    have hz := field_eq_zero ((rsvMask_s_iff w).1 hrsv)
    rw [encode_sample_toNat, wordCh_bit_toNat, wordLvl, field_toNat, wordTime, field_toNat]
    omega
  case h_3 =>
    have hz := field_eq_zero ((rsvMask_c_iff w).1 hrsv)
    rw [encode_close_toNat, wordCh_bit_toNat]
    omega
  case h_4 =>
    have hz := field_eq_zero ((rsvMask_q_iff w).1 hrsv)
    rw [encode_query_toNat, wordCh_bit_toNat, wordTime, field_toNat]
    omega
  case h_5 =>
    have hz := field_eq_zero ((rsvMask_z_iff w).1 hrsv)
    rw [encode_decode_toNat]
    omega
  case h_6 =>
    have hz := field_eq_zero ((rsvMask_b_iff w).1 hrsv)
    rw [encode_asmByte_toNat, wordDir_bit_toNat, wordValue, field_toNat, wordTime, field_toNat]
    omega
  case h_7 =>
    have hz := field_eq_zero ((rsvMask_z_iff w).1 hrsv)
    rw [encode_asmClear_toNat]
    omega
  case h_8 =>
    have hz := field_eq_zero ((rsvMask_i_iff w).1 hrsv)
    rw [encode_edgeRd_toNat, wordCh_bit_toNat, wordIndex, field_toNat]
    omega
  case h_9 =>
    have hz := field_eq_zero ((rsvMask_rr_iff w).1 hrsv).1
    have hz' := field_eq_zero ((rsvMask_rr_iff w).1 hrsv).2
    rw [encode_csrRd_toNat, wordCsr, field_toNat]
    omega
  case h_10 =>
    have hz := field_eq_zero ((rsvMask_rw_iff w).1 hrsv)
    rw [encode_csrWr_toNat, wordCsr, field_toNat, wordData, field_toNat]
    omega
  case h_11 =>
    have hz := field_eq_zero ((rsvMask_z_iff w).1 hrsv)
    rw [encode_clear_toNat]
    omega

end Sys2Proof

/-! What one step can do, by what the host offers, and what every command leaves alone. -/

namespace Sys2Proof.Machine

/-! ### What one step can do (10_state.md R21 to R23) -/

/-- All that a step can do, by what the host offers. -/
inductive StepCase (s : State) : State → Prop
  | idle (hin : s.inputs = []) : StepCase s s
  | takeEvent {rest : List PortInput} (hin : s.inputs = .takeEvent :: rest) :
    StepCase s (takeEvent { s with inputs := rest })
  | reset {rest : List PortInput} (hin : s.inputs = .reset :: rest) :
    StepCase s (hostReset { s with inputs := rest })
  | refused {w : Word} {rest : List PortInput} {r : DecodeReject} (hin : s.inputs = .command w :: rest)
    (hdec : Sys2Proof.decode w = .error r) :
    StepCase s (raiseError (errOfReject r) w { s with inputs := rest })
  | command {i : Instr} {rest : List PortInput} {t : State} (hin : s.inputs = .command (encode i) :: rest)
    (hexec : exec i { s with inputs := rest } = .next t) : StepCase s t

theorem step_of_inputs_nil {s : State} (hin : s.inputs = []) : step s = .next s := by
  simp only [step, hin, runIdle]

theorem step_of_inputs_cons {s : State} {p : PortInput} {rest : List PortInput} (hin : s.inputs = p :: rest) :
    step s = runInput p { s with inputs := rest } := by
  simp only [step, hin]

theorem runWord_of_decode_ok {w : Word} {i : Instr} (h : Sys2Proof.decode w = .ok i) (s : State) :
    runWord w s = exec i s := by
  simp only [runWord, h]

theorem runWord_of_decode_error {w : Word} {r : DecodeReject} (h : Sys2Proof.decode w = .error r) (s : State) :
    runWord w s = .next (raiseError (errOfReject r) w s) := by
  simp only [runWord, h]

/-- A step that answers a next state is one of these cases. -/
theorem step_cases {s t : State} (h : step s = .next t) : StepCase s t := by
  match hin : s.inputs with
  | [] =>
    rw [step_of_inputs_nil hin] at h
    cases h
    exact .idle hin
  | .takeEvent :: rest =>
    rw [step_of_inputs_cons hin] at h
    cases h
    exact .takeEvent hin
  | .reset :: rest =>
    rw [step_of_inputs_cons hin] at h
    cases h
    exact .reset hin
  | .command w :: rest =>
    rw [step_of_inputs_cons hin, runInput] at h
    cases hdec : Sys2Proof.decode w with
    | error r =>
      rw [runWord_of_decode_error hdec] at h
      cases h
      exact .refused hin hdec
    | ok i =>
      rw [runWord_of_decode_ok hdec] at h
      rw [← encode_of_decode hdec] at hin
      exact .command hin h

/-! ### The walk of DECODE (43_serial_decoder.md R165) -/

/-- What every byte out keeps, the walk over the edge list keeps. -/
theorem decodeWalk_keeps {P : State → Prop} (hP : ∀ d s s', byteOut d s = .next s' → P s → P s')
    {cfg : DecodeCfg} {n k cursor : Nat} {s t : State} (h : decodeWalk cfg n k cursor s = .next t) (hs : P s) :
    P t := by
  induction n generalizing k cursor s with
  | zero =>
    cases h
    exact hs
  | succ n ih =>
    simp only [decodeWalk] at h
    split at h
    · obtain ⟨s1, h1, h2⟩ := andThen_eq_next.1 h
      exact ih h2 (hP _ _ _ h1 hs)
    · exact ih h hs

/-- All that DECODE can do: a refusal, or the walk from the cleared counters, then the completion. -/
theorem execDecode_next {s t : State} (h : execDecode s = .next t) :
    (∃ code, t = raiseError code (encode .decode) s) ∨
      ∃ s1, decodeWalk (decodeCfg s) (s.ch0.count.toNat - 1) 1 0 (decoderCountersClear (asmClear s)) = .next s1 ∧
        t = decodeDone s1 := by
  unfold execDecode at h
  split at h
  · cases h
    exact .inl ⟨_, rfl⟩
  · split at h
    · cases h
      exact .inl ⟨_, rfl⟩
    · obtain ⟨s1, h1, h2⟩ := andThen_eq_next.1 h
      cases h2
      exact .inr ⟨s1, h1, rfl⟩

/-! ### What a command leaves alone -/

/-- What every command but an accepted CSR_WR keeps: the configuration, IER, the port inputs and the host's count of
events; events are only appended, and no reserved bit of ISR or LAST_ERR is set. -/
structure CmdFrame (s t : State) : Prop where
  ctrl : t.ctrl = s.ctrl
  bitTicks : t.bitTicks = s.bitTicks
  framing : t.framing = s.framing
  endMarker : t.endMarker = s.endMarker
  markers : t.markers = s.markers
  ier : t.ier = s.ier
  edgeDepth : t.edgeDepth = s.edgeDepth
  evtTaken : t.evtTaken = s.evtTaken
  inputs : t.inputs = s.inputs
  out : ∃ ev : List Event, t.out = s.out ++ ev.map eventWord
  isr : s.isr &&& ~~~isrMask = 0#32 → t.isr &&& ~~~isrMask = 0#32
  lastErr : s.lastErr &&& ~~~lastErrMask = 0#32 → t.lastErr &&& ~~~lastErrMask = 0#32

theorem CmdFrame.trans {s t u : State} (h : CmdFrame s t) (g : CmdFrame t u) : CmdFrame s u := by
  obtain ⟨ev, hev⟩ := h.out
  obtain ⟨fv, hfv⟩ := g.out
  exact ⟨g.ctrl.trans h.ctrl, g.bitTicks.trans h.bitTicks, g.framing.trans h.framing, g.endMarker.trans h.endMarker,
    g.markers.trans h.markers, g.ier.trans h.ier, g.edgeDepth.trans h.edgeDepth, g.evtTaken.trans h.evtTaken,
    g.inputs.trans h.inputs, ⟨ev ++ fv, by rw [hfv, hev, List.map_append, List.append_assoc]⟩,
    fun hs => g.isr (h.isr hs), fun hs => g.lastErr (h.lastErr hs)⟩

/-- A state that differs in the channels, the assembler, the counters and the free values only. -/
theorem CmdFrame.of_eq {s t : State} (h : t = { s with
    ch0 := t.ch0
    ch1 := t.ch1
    asm := t.asm
    bytesScanned := t.bytesScanned
    framesFound := t.framesFound
    framesDropped := t.framesDropped
    resyncDiscards := t.resyncDiscards
    bytesDecoded := t.bytesDecoded
    ambigCount := t.ambigCount
    bit0Count := t.bit0Count
    freeCount := t.freeCount }) : CmdFrame s t := by
  rw [h]
  exact ⟨rfl, rfl, rfl, rfl, rfl, rfl, rfl, rfl, rfl, ⟨[], by simp⟩, id, id⟩

theorem CmdFrame.refl (s : State) : CmdFrame s s := .of_eq rfl

/-! ### Reserved bits (10_state.md R51) -/

/-- The bits outside a mask are 0 exactly where every set bit is one of the mask's. -/
theorem and_not_eq_zero_iff {n : Nat} (x m : BitVec n) :
    x &&& ~~~m = 0#n ↔ ∀ b, x.getLsbD b = true → m.getLsbD b = true := by
  constructor
  · intro h b hx
    have hb := congrArg (fun y : BitVec n => y.getLsbD b) h
    simpa [hx, BitVec.lt_of_getLsbD hx] using hb
  · intro h
    apply BitVec.eq_of_getLsbD_eq
    intro b hb
    have hbit := h b
    cases hx : x.getLsbD b with
    | false => simp [hx]
    | true => simp [hx, hbit hx]

/-- A value under a write mask has no bit outside it (45_control.md R207). -/
theorem and_mask_and_not {n : Nat} (d m : BitVec n) : (d &&& m) &&& ~~~m = 0#n := by
  rw [BitVec.and_assoc, BitVec.and_not_self]
  exact BitVec.and_zero

/-- A mask of the low bits, at every position. -/
theorem getLsbD_of_lowMask {m : CsrWord} {n : Nat} (hn : n ≤ 32) (hm : ∀ b < 32, m.getLsbD b = decide (b < n))
    (b : Nat) : m.getLsbD b = decide (b < n) := by
  by_cases hb : b < 32
  · exact hm b hb
  · rw [BitVec.getLsbD_of_ge _ _ (by omega), eq_comm, decide_eq_false_iff_not]
    omega

/-- ISR's defined bits are 0 to 8 (R37). -/
theorem isrMask_getLsbD (b : Nat) : isrMask.getLsbD b = decide (b < 9) :=
  getLsbD_of_lowMask (by decide) (by decide) b

/-- LAST_ERR's defined bits are 0 to 11 (R39). -/
theorem lastErrMask_getLsbD (b : Nat) : lastErrMask.getLsbD b = decide (b < 12) :=
  getLsbD_of_lowMask (by decide) (by decide) b

/-- A sticky bit set is a defined bit (R37). -/
theorem isrWith_reserved (x : CsrWord) (b : IsrBit) (h : x &&& ~~~isrMask = 0#32) :
    isrWith x b &&& ~~~isrMask = 0#32 := by
  rw [and_not_eq_zero_iff] at h ⊢
  intro k hk
  rw [isrWith_getLsbD, Bool.or_eq_true, decide_eq_true_eq] at hk
  rcases hk with hk | rfl
  · exact h k hk
  · have hb := isrPos_le b
    rw [isrMask_getLsbD, decide_eq_true_eq]
    omega

/-- LAST_ERR takes a value of its defined bits (R39). -/
theorem lastErrValue_reserved (op : BitVec 4) (code : Byte) :
    lastErrValue op code &&& ~~~lastErrMask = 0#32 := by
  rw [and_not_eq_zero_iff]
  intro b hb
  rw [lastErrMask_getLsbD, decide_eq_true_eq]
  by_contra hge
  rw [lastErrValue, BitVec.getLsbD_append, if_neg (by omega), BitVec.getLsbD_append, if_neg (by omega),
    BitVec.getLsbD_zero] at hb
  cases hb

theorem setIsr_frame (b : IsrBit) (s : State) : CmdFrame s (setIsr b s) :=
  ⟨rfl, rfl, rfl, rfl, rfl, rfl, rfl, rfl, rfl, ⟨[], by simp⟩, isrWith_reserved s.isr b, id⟩

theorem emit_frame (e : Event) (s : State) : CmdFrame s (emit e s) :=
  ⟨rfl, rfl, rfl, rfl, rfl, rfl, rfl, rfl, rfl, ⟨[e], by simp⟩, id, id⟩

theorem setChan_frame (s : State) (c : Channel) (r : Chan) : CmdFrame s (s.setChan c r) := by
  cases c <;> exact .of_eq rfl

theorem raiseError_frame (code : ErrCode) (w : Word) (s : State) : CmdFrame s (raiseError code w s) := by
  rw [raiseError_eq]
  refine ⟨rfl, rfl, rfl, rfl, rfl, rfl, rfl, rfl, rfl, ?_, isrWith_reserved s.isr .cmdErr,
    fun _ => lastErrValue_reserved _ _⟩
  exact ⟨if ctrlErrEvEn s.ctrl then [.error (wordOp w) (errCode code) (w.extractLsb' 0 48)] else [], by split <;> rfl⟩

theorem channelFail_frame (c : Channel) (code : ErrCode) (w : Word) (s : State) :
    CmdFrame s (channelFail c code w s) :=
  ((setChan_frame s c _).trans (setIsr_frame _ _)).trans (raiseError_frame code w _)

/-- What the assembler leaves alone over one byte, a command does. -/
theorem AsmFrame.cmdFrame {s t : State} (h : AsmFrame s t) : CmdFrame s t := by
  obtain ⟨ev, hev, -⟩ := h.out
  refine ⟨h.ctrl, h.bitTicks, h.framing, h.endMarker, h.markers, h.ier, h.edgeDepth, h.evtTaken, h.inputs,
    ⟨ev, hev⟩, fun hs => ?_, fun hs => h.lastErr ▸ hs⟩
  rw [and_not_eq_zero_iff] at hs ⊢
  intro b hb
  rw [isrMask_getLsbD, decide_eq_true_eq]
  by_contra hge
  rw [h.isrOther b (.inr (by omega))] at hb
  have h9 := hs b hb
  rw [isrMask_getLsbD, decide_eq_true_eq] at h9
  exact hge h9

theorem asmClear_frame (s : State) : CmdFrame s (asmClear s) := .of_eq rfl

theorem decoderCountersClear_frame (s : State) : CmdFrame s (decoderCountersClear s) := .of_eq rfl

theorem byteCount_frame (d : DecodedByte) (s : State) : CmdFrame s (byteCount d s) := by
  have hcount : CmdFrame s { s with bytesDecoded := countUp s.bytesDecoded } := .of_eq rfl
  have hambig (u : State) :
      CmdFrame u (if d.ambig then setIsr .dirAmbig { u with ambigCount := countUp u.ambigCount } else u) := by
    split
    · exact .trans (.of_eq rfl) (setIsr_frame _ _)
    · exact .refl u
  have hb0 (u : State) :
      CmdFrame u (if d.b0 then setIsr .bit0Viol { u with bit0Count := countUp u.bit0Count } else u) := by
    split
    · exact .trans (.of_eq rfl) (setIsr_frame _ _)
    · exact .refl u
  exact (hcount.trans (hambig _)).trans (hb0 _)

theorem byteEmit_frame (d : DecodedByte) (s : State) : CmdFrame s (byteEmit d s) := by
  unfold byteEmit
  split
  · exact emit_frame _ s
  · exact .refl s

theorem byteOut_frame {d : DecodedByte} {s t : State} (h : byteOut d s = .next t) : CmdFrame s t :=
  ((byteCount_frame d s).trans (byteEmit_frame d _)).trans (byteOut_next h).1.cmdFrame

theorem decodeDone_frame (s : State) : CmdFrame s (decodeDone s) :=
  (emit_frame _ s).trans (setIsr_frame _ _)

theorem execDecode_frame {s t : State} (h : execDecode s = .next t) : CmdFrame s t := by
  obtain ⟨code, rfl⟩ | ⟨s1, hwalk, rfl⟩ := execDecode_next h
  · exact raiseError_frame _ _ s
  · have hstart : CmdFrame s (decoderCountersClear (asmClear s)) :=
      (asmClear_frame s).trans (decoderCountersClear_frame _)
    have hs1 : CmdFrame s s1 :=
      decodeWalk_keeps (P := CmdFrame s) (fun _ _ _ hb hs => hs.trans (byteOut_frame hb)) hwalk hstart
    exact hs1.trans (decodeDone_frame s1)

end Sys2Proof.Machine

/-! What each command can do to the channels and to the rest of the state, one lemma per command. -/

namespace Sys2Proof.Machine

/-! ### Channel records (10_state.md R25, 20_memory.md R62) -/

/-- The record after EdgeAppend (R62). -/
def Chan.push (r : Chan) (e : Edge) : Chan :=
  { r with edges := cellsWrite r.edges r.count.toNat e, count := r.count + 1#32 }

/-- The record with its last sample recorded (41_edge_detector.md R124, R126). -/
def Chan.pushLast (r : Chan) : Chan := if r.prevRec then r else r.push ⟨r.lastTime, r.lastLevel⟩

/-- The record with an accepted sample as its last (R121). -/
def Chan.note (r : Chan) (e : Edge) (recorded : Bool) : Chan :=
  { r with state := .open_, prevRec := recorded, lastTime := e.time, lastLevel := e.level }

theorem edgeAppend_eq_setChan {c : Channel} {t : Time} {l : Level} {s s' : State} :
    edgeAppend c t l s = .next s' ↔
      (s.chan c).count.toNat < s.edgeDepth.toNat ∧ s' = s.setChan c ((s.chan c).push ⟨t, l⟩) :=
  edgeAppend_eq_next

theorem noteSample_eq_setChan (c : Channel) (l : Level) (t : Time) (recorded : Bool) (s : State) :
    noteSample c l t recorded s = s.setChan c ((s.chan c).note ⟨t, l⟩ recorded) := rfl

theorem recordLast_eq_setChan {c : Channel} {s s' : State} (h : recordLast c s = .next s') :
    ((s.chan c).prevRec = false → (s.chan c).count.toNat < s.edgeDepth.toNat) ∧
      s' = s.setChan c (s.chan c).pushLast := by
  obtain ⟨hrec, rfl⟩ | ⟨hrec, happ⟩ := recordLast_eq_next.1 h
  · simp [Chan.pushLast, hrec]
  · obtain ⟨hlt, rfl⟩ := edgeAppend_eq_setChan.1 happ
    simp [Chan.pushLast, hrec, hlt]

/-- All that a command can do to the record of channel `c` under a capacity: the transitions of 10_state.md R26 with what
each does to the entries (41_edge_detector.md R121 to R126, R132). -/
inductive ChanStep (depth : CsrWord) (c : Channel) (r : Chan) : Instr → Chan → Prop
  | kept (i : Instr) : ChanStep depth c r i r
  | first {e : Edge} (hst : r.state = .empty) (hfit : r.count.toNat < depth.toNat) :
    ChanStep depth c r (.sample c e.level.code e.time) ((r.push e).note e true)
  | sameLevel {e : Edge} (hst : r.state = .open_) (htime : r.lastTime.toNat < e.time.toNat)
    (hlevel : e.level = r.lastLevel) :
    ChanStep depth c r (.sample c e.level.code e.time) (r.note e false)
  | transition {e : Edge} (hst : r.state = .open_) (htime : r.lastTime.toNat < e.time.toNat)
    (hlevel : e.level ≠ r.lastLevel) (hlast : r.prevRec = false → r.count.toNat < depth.toNat)
    (hfit : r.pushLast.count.toNat < depth.toNat) :
    ChanStep depth c r (.sample c e.level.code e.time) ((r.pushLast.push e).note e true)
  | sampleFails {l : BitVec 2} {t : Time} (hst : r.state = .open_) :
    ChanStep depth c r (.sample c l t) { r with state := .failed }
  | closeFails (hst : r.state = .empty ∨ r.state = .open_) :
    ChanStep depth c r (.close c) { r with state := .failed }
  | closes (hst : r.state = .open_) (hlast : r.prevRec = false → r.count.toNat < depth.toNat) :
    ChanStep depth c r (.close c) { r.pushLast with prevRec := true, state := .closed }
  | cleared (n : Nat) : ChanStep depth c r .clear (chanCleared n c)

theorem sampleFirst_next {c : Channel} {l : Level} {t : Time} {s s' : State} (h : sampleFirst c l t s = .next s') :
    (s.chan c).count.toNat < s.edgeDepth.toNat ∧
      s' = s.setChan c (((s.chan c).push ⟨t, l⟩).note ⟨t, l⟩ true) := by
  obtain ⟨s1, happ, hnote⟩ := andThen_eq_next.1 h
  obtain ⟨hlt, rfl⟩ := edgeAppend_eq_setChan.1 happ
  cases hnote
  exact ⟨hlt, by simp [noteSample_eq_setChan]⟩

/-- What a transition sample that fits does to the record (R124). -/
theorem sampleTransition_fits {c : Channel} {l : Level} {t : Time} {s s1 s2 : State}
    (hlast : recordLast c s = .next s1) (happ : edgeAppend c t l s1 = .next s2) :
    ((s.chan c).prevRec = false → (s.chan c).count.toNat < s.edgeDepth.toNat) ∧
      (s.chan c).pushLast.count.toNat < s.edgeDepth.toNat ∧
      noteSample c l t true s2 = s.setChan c (((s.chan c).pushLast.push ⟨t, l⟩).note ⟨t, l⟩ true) := by
  obtain ⟨hroom, rfl⟩ := recordLast_eq_setChan hlast
  obtain ⟨hlt, rfl⟩ := edgeAppend_eq_setChan.1 happ
  rw [setChan_chan_self, setChan_edgeDepth] at hlt
  exact ⟨hroom, hlt, by simp [noteSample_eq_setChan]⟩

/-- All that SAMPLE and CLOSE can do to the state: refuse the command, fail the channel, or set its record. -/
inductive ChanEffect (c : Channel) (i : Instr) (s : State) : State → Prop
  | refused (code : ErrCode) (w : Word) : ChanEffect c i s (raiseError code w s)
  | fails (code : ErrCode) (w : Word) (hstep : ChanStep s.edgeDepth c (s.chan c) i { s.chan c with state := .failed }) :
    ChanEffect c i s (channelFail c code w s)
  | sets {r : Chan} (hstep : ChanStep s.edgeDepth c (s.chan c) i r) : ChanEffect c i s (s.setChan c r)

theorem sampleOpen_effect {c : Channel} {l : Level} {t : Time} {w : Word} {s s' : State}
    (hst : (s.chan c).state = .open_) (h : sampleOpen c l t w s = .next s') :
    ChanEffect c (.sample c l.code t) s s' := by
  unfold sampleOpen at h
  split at h
  · cases h
    exact .fails _ _ (.sampleFails hst)
  · rename_i htime
    split at h
    · rename_i hlevel
      cases h
      exact .sets (.sameLevel (e := ⟨t, l⟩) hst (not_le.1 htime) hlevel)
    · rename_i hlevel
      obtain ⟨-, rfl⟩ | ⟨-, s1, s2, hlast, happ, rfl⟩ := sampleTransition_eq_next.1 h
      · exact .fails _ _ (.sampleFails hst)
      · obtain ⟨hroom, hfit, hnote⟩ := sampleTransition_fits hlast happ
        rw [hnote]
        exact .sets (.transition (e := ⟨t, l⟩) hst (not_le.1 htime) hlevel hroom hfit)

theorem execSample_effect {c : Channel} {lvl : BitVec 2} {t : Time} {s s' : State}
    (h : execSample c lvl t s = .next s') : ChanEffect c (.sample c lvl t) s s' := by
  unfold execSample at h
  split at h
  · cases h
    exact .refused _ _
  · rename_i l hl
    obtain rfl := levelOfCode_eq_some.1 hl
    unfold sampleLevel at h
    split at h <;> rename_i hst
    · cases h
      exact .refused _ _
    · cases h
      exact .refused _ _
    · obtain ⟨hfit, rfl⟩ := sampleFirst_next h
      exact .sets (.first (e := ⟨t, l⟩) hst hfit)
    · exact sampleOpen_effect hst h

theorem execClose_effect {c : Channel} {s s' : State} (h : execClose c s = .next s') :
    ChanEffect c (.close c) s s' := by
  unfold execClose at h
  split at h <;> rename_i hst
  · cases h
    exact .refused _ _
  · cases h
    exact .refused _ _
  · cases h
    exact .fails _ _ (.closeFails (.inl hst))
  · obtain ⟨-, -, rfl⟩ | ⟨-, s1, hlast, rfl⟩ := closeOpen_eq_next.1 h
    · exact .fails _ _ (.closeFails (.inr hst))
    · obtain ⟨hroom, rfl⟩ := recordLast_eq_setChan hlast
      rw [setChan_chan_self, setChan_setChan]
      exact .sets (.closes hst hroom)

theorem ChanEffect.frame {c : Channel} {i : Instr} {s t : State} (h : ChanEffect c i s t) : CmdFrame s t := by
  cases h with
  | refused code w => exact raiseError_frame code w s
  | fails code w => exact channelFail_frame c code w s
  | sets => exact setChan_frame s c _

theorem ChanEffect.asm {c : Channel} {i : Instr} {s t : State} (h : ChanEffect c i s t) : t.asm = s.asm := by
  cases h with
  | refused code w => exact raiseError_asm code w s
  | fails code w => simp [channelFail]
  | sets => exact setChan_asm s c _

/-- SAMPLE and CLOSE take one transition of their own channel and keep the other. -/
theorem ChanEffect.chanStep {c : Channel} {i : Instr} {s t : State} (h : ChanEffect c i s t) (d : Channel) :
    ChanStep s.edgeDepth d (s.chan d) i (t.chan d) := by
  cases h with
  | refused code w =>
    rw [raiseError_chan]
    exact .kept i
  | fails code w hstep =>
    by_cases hd : d = c
    · subst hd
      rwa [channelFail_chan_self]
    · rw [channelFail_chan_of_ne c d code w s hd]
      exact .kept i
  | sets hstep =>
    by_cases hd : d = c
    · subst hd
      rwa [setChan_chan_self]
    · rw [setChan_chan_of_ne s c d _ hd]
      exact .kept i

/-! ### The other commands -/

theorem execAsmByte_next {dir : Direction} {v : Byte} {t : Time} {s s' : State}
    (h : execAsmByte dir v t s = .next s') :
    (∃ code w, s' = raiseError code w s) ∨ asmStep t v dir s = .next s' := by
  unfold execAsmByte at h
  split at h
  · cases h
    exact .inl ⟨_, _, rfl⟩
  · split at h
    · cases h
      exact .inl ⟨_, _, rfl⟩
    · exact .inr h

/-- All that QUERY, EDGE_RD and CSR_RD can do: refuse the command, or emit one event. -/
def ReadEffect (s t : State) : Prop := (∃ code w, t = raiseError code w s) ∨ ∃ e, t = emit e s

theorem execQuery_effect {c : Channel} {t : Time} {s s' : State} (h : execQuery c t s = .next s') :
    ReadEffect s s' := by
  unfold execQuery at h
  split at h <;> cases h
  · exact .inl ⟨_, _, rfl⟩
  · exact .inr ⟨_, rfl⟩

theorem execEdgeRd_effect {c : Channel} {k : BitVec 32} {s s' : State} (h : execEdgeRd c k s = .next s') :
    ReadEffect s s' := by
  unfold execEdgeRd at h
  split at h
  · cases h
    exact .inl ⟨_, _, rfl⟩
  · split at h <;> cases h
    · exact .inl ⟨_, _, rfl⟩
    · exact .inr ⟨_, rfl⟩

theorem execCsrRd_effect {i : BitVec 8} {s s' : State} (h : execCsrRd i s = .next s') : ReadEffect s s' := by
  unfold execCsrRd at h
  split at h <;> cases h
  · exact .inl ⟨_, _, rfl⟩
  · exact .inr ⟨_, rfl⟩

theorem ReadEffect.frame {s t : State} (h : ReadEffect s t) : CmdFrame s t := by
  obtain ⟨code, w, rfl⟩ | ⟨e, rfl⟩ := h
  · exact raiseError_frame code w s
  · exact emit_frame e s

theorem ReadEffect.asm {s t : State} (h : ReadEffect s t) : t.asm = s.asm := by
  obtain ⟨code, w, rfl⟩ | ⟨e, rfl⟩ := h
  · exact raiseError_asm code w s
  · rfl

theorem ReadEffect.chan {s t : State} (h : ReadEffect s t) (c : Channel) : t.chan c = s.chan c := by
  obtain ⟨code, w, rfl⟩ | ⟨e, rfl⟩ := h
  · exact raiseError_chan code w s c
  · exact emit_chan e s c

/-- All that CSR_WR can do: refuse the command, or store a legal value in a writable register. -/
theorem execCsrWr_next {i : BitVec 8} {d : CsrWord} {s s' : State} (h : execCsrWr i d s = .next s') :
    (∃ code w, s' = raiseError code w s) ∨
      ∃ r, csrOfIndex i = some r ∧ csrAccess r ≠ .ro ∧ csrLegal r d = true ∧ s' = csrStore s r d := by
  unfold execCsrWr at h
  split at h
  · cases h
    exact .inl ⟨_, _, rfl⟩
  · rename_i r hr
    split at h
    · cases h
      exact .inl ⟨_, _, rfl⟩
    · rename_i hro
      split at h <;> cases h
      · exact .inl ⟨_, _, rfl⟩
      · rename_i hlegal
        exact .inr ⟨r, hr, hro, by simpa using hlegal, rfl⟩

theorem csrStore_chan (s : State) (r : Csr) (d : CsrWord) (c : Channel) : (csrStore s r d).chan c = s.chan c := by
  cases r <;> cases c <;> rfl

theorem csrStore_asm (s : State) (r : Csr) (d : CsrWord) : (csrStore s r d).asm = s.asm := by
  cases r <;> rfl

theorem csrStore_edgeDepth (s : State) (r : Csr) (d : CsrWord) : (csrStore s r d).edgeDepth = s.edgeDepth := by
  cases r <;> rfl

theorem csrStore_out (s : State) (r : Csr) (d : CsrWord) : (csrStore s r d).out = s.out := by
  cases r <;> rfl

theorem csrStore_evtTaken (s : State) (r : Csr) (d : CsrWord) : (csrStore s r d).evtTaken = s.evtTaken := by
  cases r <;> rfl

theorem execClear_frame {s t : State} (h : execClear s = .next t) : CmdFrame s t := by
  cases h
  exact ⟨rfl, rfl, rfl, rfl, rfl, rfl, rfl, rfl, rfl, ⟨[], by simp⟩, fun _ => BitVec.zero_and, fun _ => BitVec.zero_and⟩

/-! ### Every command -/

/-- Every command keeps what `CmdFrame` says, or is an accepted CSR_WR. -/
theorem exec_frame_or_store {i : Instr} {s t : State} (h : exec i s = .next t) :
    CmdFrame s t ∨ ∃ r d, csrLegal r d = true ∧ t = csrStore s r d := by
  cases i with
  | nop =>
    cases h
    exact .inl (.refl s)
  | sample c l time => exact .inl (execSample_effect h).frame
  | close c => exact .inl (execClose_effect h).frame
  | query c time => exact .inl (execQuery_effect h).frame
  | decode => exact .inl (execDecode_frame h)
  | asmByte dir v time =>
    obtain ⟨code, w, rfl⟩ | hstep := execAsmByte_next h
    · exact .inl (raiseError_frame code w s)
    · exact .inl (asmStep_next hstep).1.cmdFrame
  | asmClear =>
    cases h
    exact .inl (asmClear_frame s)
  | edgeRd c k => exact .inl (execEdgeRd_effect h).frame
  | csrRd k => exact .inl (execCsrRd_effect h).frame
  | csrWr k d =>
    obtain ⟨code, w, rfl⟩ | ⟨r, -, -, hlegal, rfl⟩ := execCsrWr_next h
    · exact .inl (raiseError_frame code w s)
    · exact .inr ⟨r, d, hlegal, rfl⟩
  | clear => exact .inl (execClear_frame h)

theorem exec_edgeDepth {i : Instr} {s t : State} (h : exec i s = .next t) : t.edgeDepth = s.edgeDepth := by
  obtain hf | ⟨r, d, -, rfl⟩ := exec_frame_or_store h
  · exact hf.edgeDepth
  · exact csrStore_edgeDepth s r d

/-- One byte out touches no channel. -/
theorem byteOut_chan {d : DecodedByte} {s t : State} (h : byteOut d s = .next t) (c : Channel) :
    t.chan c = s.chan c := by
  have hf := (byteOut_next h).1
  rw [byteEmit_eq, byteCount_eq] at hf
  cases c
  · exact hf.ch0
  · exact hf.ch1

theorem execDecode_chan {s t : State} (h : execDecode s = .next t) (c : Channel) : t.chan c = s.chan c := by
  obtain ⟨code, rfl⟩ | ⟨s1, hwalk, rfl⟩ := execDecode_next h
  · exact raiseError_chan _ _ s c
  · have hs1 : s1.chan c = s.chan c :=
      decodeWalk_keeps (P := fun u => u.chan c = s.chan c) (fun _ _ _ hb hs => (byteOut_chan hb c).trans hs) hwalk
        (by simp)
    simpa [decodeDone] using hs1

/-- Every command takes each channel's record over one of the transitions. -/
theorem exec_chanStep {i : Instr} {s t : State} (h : exec i s = .next t) (c : Channel) :
    ChanStep s.edgeDepth c (s.chan c) i (t.chan c) := by
  have hkept (hc : t.chan c = s.chan c) : ChanStep s.edgeDepth c (s.chan c) i (t.chan c) := by
    rw [hc]
    exact .kept i
  cases i with
  | nop =>
    cases h
    exact .kept _
  | sample d l time => exact (execSample_effect h).chanStep c
  | close d => exact (execClose_effect h).chanStep c
  | query d time => exact hkept ((execQuery_effect h).chan c)
  | decode => exact hkept (execDecode_chan h c)
  | asmByte dir v time =>
    obtain ⟨code, w, rfl⟩ | hstep := execAsmByte_next h
    · exact hkept (raiseError_chan code w s c)
    · have hf := (asmStep_next hstep).1
      cases c
      · exact hkept hf.ch0
      · exact hkept hf.ch1
  | asmClear =>
    cases h
    exact hkept (asmClear_chan s c)
  | edgeRd d k => exact hkept ((execEdgeRd_effect h).chan c)
  | csrRd k => exact hkept ((execCsrRd_effect h).chan c)
  | csrWr k d =>
    obtain ⟨code, w, rfl⟩ | ⟨r, -, -, -, rfl⟩ := execCsrWr_next h
    · exact hkept (raiseError_chan code w s c)
    · exact hkept (csrStore_chan s r d c)
  | clear =>
    cases h
    cases c <;> exact .cleared s.freeCount

end Sys2Proof.Machine

/-! The channel invariant and the channel lifecycle (10_state.md R25, R26, 41_edge_detector.md R129). -/

namespace Sys2Proof.Machine

/-! ### Edge lists (41_edge_detector.md R129) -/

/-- An entry later than the last one keeps the times rising. -/
theorem timesRise_append {l : List Edge} {e : Edge} (h : timesRise l)
    (hlast : ∀ a, l.getLast? = some a → a.time.toNat < e.time.toNat) : timesRise (l ++ [e]) := by
  unfold timesRise at h ⊢
  refine List.pairwise_append.2 ⟨h, List.pairwise_singleton _ _, fun a ha b hb => ?_⟩
  obtain rfl := List.mem_singleton.1 hb
  obtain ⟨l', z, rfl⟩ := List.eq_nil_or_concat l |>.resolve_left (List.ne_nil_of_mem ha)
  have hz := hlast z (by simp)
  rw [List.concat_eq_append, List.mem_append, List.mem_singleton] at ha
  rcases ha with ha | rfl
  · rw [List.concat_eq_append, List.pairwise_append] at h
    exact lt_trans (h.2.2 a ha z (by simp)) hz
  · exact hz

/-- An entry whose level is not that of both entries before it makes no three in a row. -/
theorem noThreeEqual_append {l : List Edge} {e : Edge} (h : noThreeEqual l)
    (hlast : ∀ a b, l[l.length - 2]? = some a → l.getLast? = some b → 2 ≤ l.length →
      ¬ (a.level = b.level ∧ b.level = e.level)) : noThreeEqual (l ++ [e]) := by
  intro k a b c ha hb hc
  obtain hk | hk : k + 2 < l.length ∨ l.length ≤ k + 2 := lt_or_ge _ _
  · rw [List.getElem?_append_left (by omega)] at ha hb hc
    exact h k a b c ha hb hc
  · have hlen : k + 2 < (l ++ [e]).length := (List.getElem?_eq_some_iff.1 hc).1
    rw [List.length_append, List.length_singleton] at hlen
    have hk2 : k + 2 = l.length := by omega
    rw [List.getElem?_append_left (by omega)] at ha hb
    rw [hk2, List.getElem?_append_right le_rfl, Nat.sub_self, List.getElem?_cons_zero, Option.some.injEq] at hc
    subst hc
    refine hlast a b ?_ ?_ (by omega)
    · rw [← ha]
      congr 1
      omega
    · rw [List.getLast?_eq_getElem?, ← hb]
      congr 1
      omega

/-! ### The entries of a record -/

/-- The part of `ChanInv` that speaks of the entries alone, whatever the channel's state. -/
structure EntriesInv (depth : CsrWord) (r : Chan) : Prop where
  count_le : r.count.toNat ≤ depth.toNat
  keys : r.edges.map Prod.fst = List.range r.count.toNat
  rise : timesRise (entries r)
  noThree : noThreeEqual (entries r)

/-- The entries and their number decide it. -/
theorem EntriesInv.of_eq {depth : CsrWord} {r r' : Chan} (h : EntriesInv depth r) (hedges : r'.edges = r.edges)
    (hcount : r'.count = r.count) : EntriesInv depth r' := by
  obtain ⟨hle, hkeys, hrise, hnoThree⟩ := h
  constructor <;> simpa only [entries, hedges, hcount]

theorem EntriesInv.length_entries {depth : CsrWord} {r : Chan} (h : EntriesInv depth r) :
    (entries r).length = r.count.toNat := by
  have hlen := congrArg List.length h.keys
  simpa [entries] using hlen

theorem count_push {depth : CsrWord} {r : Chan} (hfit : r.count.toNat < depth.toNat) (e : Edge) :
    (r.push e).count.toNat = r.count.toNat + 1 := by
  have hd := depth.isLt
  simp only [Chan.push, BitVec.toNat_add, BitVec.toNat_ofNat]
  omega

theorem edges_push {r : Chan} (hkeys : r.edges.map Prod.fst = List.range r.count.toNat) (e : Edge) :
    (r.push e).edges = r.edges ++ [(r.count.toNat, e)] :=
  cellsWrite_of_range r.edges r.count.toNat e hkeys

theorem entries_push {depth : CsrWord} {r : Chan} (h : EntriesInv depth r) (e : Edge) :
    entries (r.push e) = entries r ++ [e] := by
  simp [entries, edges_push h.keys]

/-- EdgeAppend keeps the entries good: below capacity, with a later time, and no third equal level. -/
theorem EntriesInv.push {depth : CsrWord} {r : Chan} {e : Edge} (h : EntriesInv depth r)
    (hfit : r.count.toNat < depth.toNat)
    (htime : ∀ a, (entries r).getLast? = some a → a.time.toNat < e.time.toNat)
    (hlevel : ∀ a b, (entries r)[r.count.toNat - 2]? = some a → (entries r).getLast? = some b → 2 ≤ r.count.toNat →
      ¬ (a.level = b.level ∧ b.level = e.level)) : EntriesInv depth (r.push e) where
  count_le := by
    rw [count_push hfit]
    omega
  keys := by
    rw [count_push hfit, edges_push h.keys, List.map_append, h.keys, List.range_succ]
    rfl
  rise := by
    rw [entries_push h]
    exact timesRise_append h.rise htime
  noThree := by
    rw [entries_push h]
    refine noThreeEqual_append h.noThree ?_
    rwa [h.length_entries]

/-- With its last sample recorded, an OPEN channel's entries are good and end in that sample (R124, R126). -/
theorem EntriesInv.pushLast {depth : CsrWord} {r : Chan} (h : EntriesInv depth r) (hopen : openAgrees r)
    (hroom : r.prevRec = false → r.count.toNat < depth.toNat) :
    EntriesInv depth r.pushLast ∧ (entries r.pushLast).getLast? = some ⟨r.lastTime, r.lastLevel⟩ := by
  obtain ⟨e, hlast, hlevel, htime, hprev⟩ := hopen
  cases hrec : r.prevRec with
  | true =>
    rw [hrec, if_pos rfl] at htime
    rw [Chan.pushLast, if_pos hrec, hlast, ← htime, ← hlevel]
    exact ⟨h, rfl⟩
  | false =>
    rw [hrec, if_neg (by simp)] at htime
    rw [Chan.pushLast, if_neg (by simp [hrec]), entries_push h]
    refine ⟨h.push (hroom hrec) (fun a ha => ?_) fun a b ha hb hcount => ?_, by simp⟩
    · obtain rfl := Option.some.inj (hlast.symm.trans ha)
      exact htime
    · obtain rfl := Option.some.inj (hlast.symm.trans hb)
      exact fun hab => hprev a hcount ha hab.1

/-! ### Good channels -/

theorem chanInv_iff {depth : CsrWord} {r : Chan} :
    ChanInv depth.toNat r ↔ EntriesInv depth r ∧ (r.state = .empty → r.count = 0#32) ∧
      (r.state = .open_ → openAgrees r) ∧ (r.state = .closed → 1 ≤ r.count.toNat) := by
  constructor
  · rintro ⟨hcount, hkeys, hrise, hnoThree, hempty, hopen, hclosed⟩
    exact ⟨⟨hcount, hkeys, hrise, hnoThree⟩, hempty, hopen, hclosed⟩
  · rintro ⟨⟨hcount, hkeys, hrise, hnoThree⟩, hempty, hopen, hclosed⟩
    exact ⟨hcount, hkeys, hrise, hnoThree, hempty, hopen, hclosed⟩

/-- An EMPTY channel without entries is good. -/
theorem chanInv_of_empty {depth : Nat} {r : Chan} (hst : r.state = .empty) (hcount : r.count = 0#32)
    (hedges : r.edges = []) : ChanInv depth r := by
  have hentries : entries r = [] := by rw [entries, hedges, List.map_nil]
  refine ⟨by simp [hcount], by simp [hcount, hedges], ?_, ?_, fun _ => hcount, fun h => ?_, fun h => ?_⟩
  · rw [hentries]
    exact List.Pairwise.nil
  · rw [hentries]
    intro k a b c ha
    simp at ha
  · rw [hst] at h
    cases h
  · rw [hst] at h
    cases h

/-- A channel that fails stays good: its entries are as they were. -/
theorem ChanInv.failed {depth : Nat} {r : Chan} (h : ChanInv depth r) :
    ChanInv depth { r with state := .failed } := by
  obtain ⟨hcount, hkeys, hrise, hnoThree, -⟩ := h
  exact ⟨hcount, hkeys, hrise, hnoThree, nofun, nofun, nofun⟩

/-- An OPEN channel whose last sample is its newest entry is good, where that entry is later than the one before it and of
another level (R122, R124). -/
theorem chanInv_note_push {depth : CsrWord} {r : Chan} {e : Edge} (h : EntriesInv depth r)
    (hfit : r.count.toNat < depth.toNat)
    (hlast : ∀ a, (entries r).getLast? = some a → a.time.toNat < e.time.toNat ∧ a.level ≠ e.level) :
    ChanInv depth.toNat ((r.push e).note e true) := by
  have hpush : EntriesInv depth (r.push e) :=
    h.push hfit (fun a ha => (hlast a ha).1) fun _ b _ hb _ hab => (hlast b hb).2 hab.2
  refine chanInv_iff.2 ⟨hpush.of_eq rfl rfl, nofun, fun _ => ?_, nofun⟩
  have hentries : entries ((r.push e).note e true) = entries r ++ [e] := entries_push h e
  refine ⟨e, by simp [hentries], rfl, rfl, fun f hcount hf => ?_⟩
  have hpushed : ((r.push e).note e true).count.toNat = r.count.toNat + 1 := count_push hfit e
  have hlen := h.length_entries
  rw [hpushed] at hcount
  rw [hpushed, hentries, List.getElem?_append_left (by omega)] at hf
  refine (hlast f ?_).2
  rw [List.getLast?_eq_getElem?, hlen, ← hf]
  congr 1

/-- A sample of the last sample's level leaves the entries and makes itself the last sample, unrecorded (R123). -/
theorem openAgrees_note {r : Chan} {e : Edge} (h : openAgrees r) (htime : r.lastTime.toNat < e.time.toNat)
    (hlevel : e.level = r.lastLevel) : openAgrees (r.note e false) := by
  obtain ⟨x, hx, hxlevel, hxtime, hprev⟩ := h
  have hle : x.time.toNat ≤ r.lastTime.toNat := by
    split at hxtime
    · exact le_of_eq (congrArg BitVec.toNat hxtime)
    · exact le_of_lt hxtime
  exact ⟨x, hx, hxlevel.trans hlevel.symm, lt_of_le_of_lt hle htime, hprev⟩

/-- Every transition of a channel keeps it good. -/
theorem ChanStep.keeps_inv {depth : CsrWord} {c : Channel} {r r' : Chan} {i : Instr}
    (h : ChanStep depth c r i r') (hr : ChanInv depth.toNat r) : ChanInv depth.toNat r' := by
  obtain ⟨hentries, hempty, hopen, -⟩ := chanInv_iff.1 hr
  cases h with
  | kept => exact hr
  | sampleFails | closeFails => exact hr.failed
  | cleared n => exact chanInv_of_empty rfl rfl rfl
  | first hst hfit =>
    refine chanInv_note_push hentries hfit fun a ha => ?_
    have hlen := hentries.length_entries
    rw [hempty hst, BitVec.toNat_zero, List.length_eq_zero_iff] at hlen
    rw [hlen] at ha
    cases ha
  | sameLevel hst htime hlevel =>
    exact chanInv_iff.2 ⟨hentries.of_eq rfl rfl, nofun, fun _ => openAgrees_note (hopen hst) htime hlevel, nofun⟩
  | transition hst htime hlevel hroom hfit =>
    obtain ⟨hlastEntries, hlast⟩ := hentries.pushLast (hopen hst) hroom
    refine chanInv_note_push hlastEntries hfit fun a ha => ?_
    obtain rfl := Option.some.inj (hlast.symm.trans ha)
    exact ⟨htime, hlevel.symm⟩
  | closes hst hroom =>
    obtain ⟨hlastEntries, hlast⟩ := hentries.pushLast (hopen hst) hroom
    refine chanInv_iff.2 ⟨hlastEntries.of_eq rfl rfl, nofun, nofun, fun _ => ?_⟩
    have hne : entries r.pushLast ≠ [] := by
      intro hnil
      rw [hnil] at hlast
      cases hlast
    have hpos := List.length_pos_of_ne_nil hne
    rwa [hlastEntries.length_entries] at hpos

theorem channelsInv_of_chan_eq {s t : State} (h : ChannelsInv s) (hdepth : t.edgeDepth = s.edgeDepth)
    (hchan : ∀ c, t.chan c = s.chan c) : ChannelsInv t := by
  obtain ⟨hmin, hinv⟩ := h
  unfold ChannelsInv
  rw [hdepth]
  exact ⟨hmin, fun c => (hchan c) ▸ hinv c⟩

/-- Every command keeps the channels good. -/
theorem exec_keeps_channelsInv {i : Instr} {s t : State} (h : exec i s = .next t) (hs : ChannelsInv s) :
    ChannelsInv t := by
  obtain ⟨hmin, hinv⟩ := hs
  unfold ChannelsInv
  rw [exec_edgeDepth h]
  exact ⟨hmin, fun c => (exec_chanStep h c).keeps_inv (hinv c)⟩

theorem takeEvent_chan (s : State) (c : Channel) : (takeEvent s).chan c = s.chan c := by
  rw [takeEvent_eq]
  cases c <;> rfl

theorem takeEvent_edgeDepth (s : State) : (takeEvent s).edgeDepth = s.edgeDepth := by
  rw [takeEvent_eq]

theorem hostReset_chan (s : State) (c : Channel) : (hostReset s).chan c = Chan.reset := by
  cases c <;> rfl

theorem chan_withInputs (s : State) (rest : List PortInput) (c : Channel) :
    { s with inputs := rest }.chan c = s.chan c := by
  cases c <;> rfl

/-- Settles O55: each step is one of the cases of `StepCase`, and a command takes each channel over a `ChanStep`. -/
theorem stepKeepsChannelsGood : Obligations.StepKeepsChannelsGood := by
  intro s t hs h
  have hrest (rest : List PortInput) : ChannelsInv { s with inputs := rest } :=
    channelsInv_of_chan_eq hs rfl (chan_withInputs s rest)
  cases step_cases h with
  | idle => exact hs
  | takeEvent => exact channelsInv_of_chan_eq (hrest _) (takeEvent_edgeDepth _) (takeEvent_chan _)
  | reset =>
    refine ⟨hs.1, fun c => ?_⟩
    rw [hostReset_chan]
    exact chanInv_of_empty rfl rfl rfl
  | refused => exact channelsInv_of_chan_eq (hrest _) (raiseError_edgeDepth ..) (raiseError_chan _ _ _)
  | command hin hexec => exact exec_keeps_channelsInv hexec (hrest _)

/-- Settles O52: only a command that decodes can move a channel, and each `ChanStep` is a transition of the list. -/
theorem channelLifecycle : Obligations.ChannelLifecycle := by
  refine ⟨⟨rfl, rfl, rfl, rfl⟩, fun s t c h => ?_⟩
  cases step_cases h with
  | idle => exact .inl rfl
  | takeEvent => exact .inl (by rw [takeEvent_chan, chan_withInputs])
  | reset hin =>
    rw [hostReset_chan]
    exact .inr (.inr (.inr (.inr (.inr ⟨rfl, _, .inl hin⟩))))
  | refused => exact .inl (by rw [raiseError_chan, chan_withInputs])
  | command hin hexec =>
    have hstep := exec_chanStep hexec c
    rw [chan_withInputs] at hstep
    generalize t.chan c = r' at hstep ⊢
    cases hstep with
    | kept => exact .inl rfl
    | first hst => exact .inr (.inl ⟨hst, rfl, _, _, _, hin⟩)
    | sameLevel hst => exact .inl hst.symm
    | transition hst => exact .inl hst.symm
    | sampleFails hst => exact .inr (.inr (.inr (.inr (.inl ⟨hst, rfl, _, .inl ⟨_, _, hin⟩⟩))))
    | closeFails hst =>
      obtain hst | hst := hst
      · exact .inr (.inr (.inr (.inl ⟨hst, rfl, _, hin⟩)))
      · exact .inr (.inr (.inr (.inr (.inl ⟨hst, rfl, _, .inr hin⟩))))
    | closes hst => exact .inr (.inr (.inl ⟨hst, rfl, _, hin⟩))
    | cleared n => exact .inr (.inr (.inr (.inr (.inr ⟨rfl, _, .inr hin⟩))))

end Sys2Proof.Machine

/-! The assembler invariant (10_state.md R28, 20_memory.md R64). -/

namespace Sys2Proof.Machine

/-! ### The payload buffer (20_memory.md R64) -/

/-- The payload buffer is in canonical form and lists no position at or above 255. -/
def PayloadInv (m : Cells Byte) : Prop :=
  cellsWf m ∧ ∀ p, Config.maxPayload ≤ p → cellsRead m p = none

theorem PayloadInv.write {m : Cells Byte} {p : Nat} (h : PayloadInv m) (hp : p < Config.maxPayload) (v : Byte) :
    PayloadInv (cellsWrite m p v) := by
  refine ⟨cellsWrite_wf m p v h.1, fun q hq => ?_⟩
  rw [cellsRead_cellsWrite_of_ne m v (by omega)]
  exact h.2 q hq

theorem AssemblerInv.payload {s : State} (h : AssemblerInv s) : PayloadInv s.asm.fData := ⟨h.1, h.2.1⟩

/-! ### Good assemblers -/

/-- The invariant speaks of the assembler alone. -/
theorem assemblerInv_of_asm_eq {s t : State} (h : AssemblerInv s) (hasm : t.asm = s.asm) : AssemblerInv t := by
  unfold AssemblerInv
  rw [hasm]
  exact h

/-- An Idle assembler is good where its buffer is. -/
theorem assemblerInv_of_idle {s : State} (hst : s.asm.state = .idle) (hbuf : PayloadInv s.asm.fData) :
    AssemblerInv s := by
  refine ⟨hbuf.1, hbuf.2, ?_, ?_, ?_, ?_⟩ <;> simp [hst]

/-- An assembler that waits for the length is good where its buffer is and it has seen a byte. -/
theorem assemblerInv_of_len {s : State} (hst : s.asm.state = .len) (hprev : s.asm.havePrev = true)
    (hbuf : PayloadInv s.asm.fData) : AssemblerInv s := by
  refine ⟨hbuf.1, hbuf.2, ?_, ?_, ?_, ?_⟩ <;> simp [hst, hprev]

/-- An assembler past the length is good where every byte received is listed, with some left to come in Data and none
after it. -/
theorem assemblerInv_of_received {s : State} (hprev : s.asm.havePrev = true) (hbuf : PayloadInv s.asm.fData)
    (hlisted : ∀ p, p < s.asm.fCount.toNat → (cellsRead s.asm.fData p).isSome = true)
    (hcount : (s.asm.state = .data ∧ s.asm.fCount.toNat < s.asm.fLen.toNat) ∨
      ((s.asm.state = .sum ∨ s.asm.state = .end_) ∧ s.asm.fCount = s.asm.fLen)) : AssemblerInv s := by
  refine ⟨hbuf.1, hbuf.2, fun _ => hprev, ?_, ?_, fun _ => hlisted⟩
  · intro hst
    obtain ⟨-, hlt⟩ | ⟨hst' | hst', -⟩ := hcount
    · exact hlt
    · simp [hst] at hst'
    · simp [hst] at hst'
  · rintro (hst | hst) <;> obtain ⟨hst', -⟩ | ⟨-, heq⟩ := hcount
    · simp [hst] at hst'
    · exact heq
    · simp [hst] at hst'
    · exact heq

/-! ### What each operation of the assembler keeps -/

theorem asmClear_keeps_assemblerInv {s : State} (h : AssemblerInv s) : AssemblerInv (asmClear s) :=
  assemblerInv_of_idle rfl h.payload

theorem resync_havePrev (t : Time) (dir : Direction) (s : State) : (resync t dir s).asm.havePrev = true := by
  rw [resync_eq]

theorem resync_keeps_assemblerInv {s : State} (h : AssemblerInv s) (t : Time) (dir : Direction) :
    AssemblerInv (resync t dir s) := by
  by_cases hneed : resyncNeeded t dir s = true
  · refine assemblerInv_of_idle ?_ ?_
    · simp [resync_eq, hneed]
    · rw [resync_eq]
      exact h.payload
  · obtain ⟨hwf, hrange, -, hdata, hsum, hlisted⟩ := h
    simp only [AssemblerInv, resync_eq, hneed]
    exact ⟨hwf, hrange, fun _ => trivial, hdata, hsum, hlisted⟩

theorem asmIdle_keeps_assemblerInv {s : State} (h : AssemblerInv s) (hprev : s.asm.havePrev = true) (v : Byte)
    (idx : BitVec 32) : AssemblerInv (asmIdle v idx s) := by
  unfold asmIdle
  split
  · exact h
  · exact assemblerInv_of_len rfl hprev h.payload

theorem asmLen_keeps_assemblerInv {s : State} (h : AssemblerInv s) (hprev : s.asm.havePrev = true) (v : Byte) :
    AssemblerInv (asmLen v s) := by
  refine assemblerInv_of_received hprev h.payload ?_ ?_
  · intro p hp
    simp [asmLen] at hp
  · by_cases hv : v = 0#8
    · simp [asmLen, hv]
    · have hpos : 0 < v.toNat := Nat.pos_of_ne_zero fun h0 => hv (BitVec.eq_of_toNat_eq h0)
      simp [asmLen, hv, hpos]

/-- The byte that Data stores is within the declared length, so the count of bytes received does not wrap (R186). -/
theorem asmData_keeps_assemblerInv {s t : State} {v : Byte} (h : AssemblerInv s) (hprev : s.asm.havePrev = true)
    (hst : s.asm.state = .data) (hnext : asmData v s = .next t) : AssemblerInv t := by
  obtain ⟨s1, hwrite, hcount⟩ := andThen_eq_next.1 hnext
  obtain ⟨hp, rfl⟩ := payloadWrite_eq_next.1 hwrite
  cases hcount
  have ⟨_, _, _, hdata, _, hlisted⟩ := h
  have hlt := hdata hst
  have hlen := s.asm.fLen.isLt
  have hsucc : (s.asm.fCount + 1#8).toNat = s.asm.fCount.toNat + 1 := by
    rw [BitVec.toNat_add, BitVec.toNat_ofNat]
    omega
  refine assemblerInv_of_received hprev (h.payload.write hp v) ?_ ?_
  · intro p hpcount
    have hple : p < s.asm.fCount.toNat + 1 := by
      rw [← hsucc]
      exact hpcount
    change (cellsRead (cellsWrite s.asm.fData s.asm.fCount.toNat v) p).isSome = true
    rw [cellsRead_cellsWrite]
    split
    · rfl
    · exact hlisted (.inl hst) p (by omega)
  · by_cases hfull : s.asm.fCount + 1#8 = s.asm.fLen
    · simp [asmDataCount, hfull]
    · have hne : (s.asm.fCount + 1#8).toNat ≠ s.asm.fLen.toNat := fun heq => hfull (BitVec.eq_of_toNat_eq heq)
      refine .inl ⟨by simp [asmDataCount, hfull, hst], ?_⟩
      change (s.asm.fCount + 1#8).toNat < s.asm.fLen.toNat
      omega

theorem asmSum_keeps_assemblerInv {s : State} (h : AssemblerInv s) (hprev : s.asm.havePrev = true)
    (hst : s.asm.state = .sum) (v : Byte) : AssemblerInv (asmSum v s) := by
  have ⟨_, _, _, _, hsum, hlisted⟩ := h
  exact assemblerInv_of_received hprev h.payload (hlisted (.inr (.inl hst))) (.inr ⟨.inr rfl, hsum (.inl hst)⟩)

theorem asmEnd_keeps_assemblerInv {s : State} (h : AssemblerInv s) (v : Byte) (idx : BitVec 32) :
    AssemblerInv (asmEnd v idx s) := by
  rw [asmEnd_eq]
  split <;> exact assemblerInv_of_idle rfl h.payload

theorem asmTransition_keeps_assemblerInv {s t : State} {v : Byte} {idx : BitVec 32} (h : AssemblerInv s)
    (hprev : s.asm.havePrev = true) (hnext : asmTransition v idx s = .next t) : AssemblerInv t := by
  unfold asmTransition at hnext
  split at hnext <;> rename_i hst
  · cases hnext
    exact asmIdle_keeps_assemblerInv h hprev v idx
  · cases hnext
    exact asmLen_keeps_assemblerInv h hprev v
  · exact asmData_keeps_assemblerInv h hprev hst hnext
  · cases hnext
    exact asmSum_keeps_assemblerInv h hprev hst v
  · cases hnext
    exact asmEnd_keeps_assemblerInv h v idx

theorem asmStep_keeps_assemblerInv {s u : State} {t : Time} {v : Byte} {dir : Direction} (h : AssemblerInv s)
    (hnext : asmStep t v dir s = .next u) : AssemblerInv u := by
  unfold asmStep at hnext
  refine asmTransition_keeps_assemblerInv ?_ ?_ hnext
  · exact assemblerInv_of_asm_eq (resync_keeps_assemblerInv h t dir) rfl
  · exact resync_havePrev t dir s

theorem byteOut_keeps_assemblerInv {s t : State} {d : DecodedByte} (h : AssemblerInv s)
    (hnext : byteOut d s = .next t) : AssemblerInv t := by
  have hasm : (byteEmit d (byteCount d s)).asm = s.asm := by rw [byteEmit_eq, byteCount_eq]
  exact asmStep_keeps_assemblerInv (assemblerInv_of_asm_eq h hasm) hnext

theorem execDecode_keeps_assemblerInv {s t : State} (h : AssemblerInv s) (hnext : execDecode s = .next t) :
    AssemblerInv t := by
  obtain ⟨code, rfl⟩ | ⟨s1, hwalk, rfl⟩ := execDecode_next hnext
  · exact assemblerInv_of_asm_eq h (raiseError_asm ..)
  · have hstart : AssemblerInv (decoderCountersClear (asmClear s)) :=
      assemblerInv_of_asm_eq (asmClear_keeps_assemblerInv h) rfl
    have hs1 : AssemblerInv s1 :=
      decodeWalk_keeps (fun _ _ _ hb hs => byteOut_keeps_assemblerInv hs hb) hwalk hstart
    exact assemblerInv_of_asm_eq hs1 rfl

/-- Every command keeps the assembler good. -/
theorem exec_keeps_assemblerInv {i : Instr} {s t : State} (hnext : exec i s = .next t) (h : AssemblerInv s) :
    AssemblerInv t := by
  cases i with
  | nop =>
    cases hnext
    exact h
  | sample c l time => exact assemblerInv_of_asm_eq h (execSample_effect hnext).asm
  | close c => exact assemblerInv_of_asm_eq h (execClose_effect hnext).asm
  | query c time => exact assemblerInv_of_asm_eq h (execQuery_effect hnext).asm
  | decode => exact execDecode_keeps_assemblerInv h hnext
  | asmByte dir v time =>
    obtain ⟨code, w, rfl⟩ | hstep := execAsmByte_next hnext
    · exact assemblerInv_of_asm_eq h (raiseError_asm code w s)
    · exact asmStep_keeps_assemblerInv h hstep
  | asmClear =>
    cases hnext
    exact asmClear_keeps_assemblerInv h
  | edgeRd c k => exact assemblerInv_of_asm_eq h (execEdgeRd_effect hnext).asm
  | csrRd k => exact assemblerInv_of_asm_eq h (execCsrRd_effect hnext).asm
  | csrWr k d =>
    obtain ⟨code, w, rfl⟩ | ⟨r, -, -, -, rfl⟩ := execCsrWr_next hnext
    · exact assemblerInv_of_asm_eq h (raiseError_asm code w s)
    · exact assemblerInv_of_asm_eq h (csrStore_asm s r d)
  | clear =>
    cases hnext
    exact assemblerInv_of_idle rfl h.payload

theorem takeEvent_asm (s : State) : (takeEvent s).asm = s.asm := by
  rw [takeEvent_eq]

/-- The assembler right after reset is good, whatever the rest of the state. -/
theorem assemblerInv_of_reset {s : State} (h : s.asm = Asm.reset) : AssemblerInv s := by
  refine assemblerInv_of_idle (by rw [h]; rfl) ?_
  rw [h]
  exact ⟨List.Pairwise.nil, fun _ _ => rfl⟩

/-- Settles O56: each step is one of the cases of `StepCase`, and a command's transitions keep the assembler good. -/
theorem stepKeepsAssemblerGood : Obligations.StepKeepsAssemblerGood := by
  intro s t hs h
  cases step_cases h with
  | idle => exact hs
  | takeEvent => exact assemblerInv_of_asm_eq hs (takeEvent_asm _)
  | reset => exact assemblerInv_of_reset rfl
  | refused => exact assemblerInv_of_asm_eq hs (raiseError_asm ..)
  | command hin hexec => exact exec_keeps_assemblerInv hexec hs

end Sys2Proof.Machine

/-! The register and the port invariants (10_state.md R22, R51, 30_encoding.md R95), and the reset state. -/

namespace Sys2Proof.Machine

/-! ### Registers (10_state.md R51) -/

/-- What `CmdFrame` keeps, keeps the registers good. -/
theorem CmdFrame.keeps_registersInv {s t : State} (h : CmdFrame s t) (hs : RegistersInv s) : RegistersInv t := by
  obtain ⟨hctrl, hframing, hlegal, hend, hmarkers, hisr, hier, hlast⟩ := hs
  unfold RegistersInv
  rw [h.ctrl, h.framing, h.endMarker, h.markers, h.ier]
  exact ⟨hctrl, hframing, hlegal, hend, hmarkers, h.isr hisr, hier, h.lastErr hlast⟩

/-- FRAMING's write mask keeps DATA_BITS (45_control.md R207, R208). -/
theorem framingLegal_and_mask (d : CsrWord) : framingLegal (d &&& framingMask) = framingLegal d := by
  have hbits : framingDataBits (d &&& framingMask) = framingDataBits d := by
    apply BitVec.eq_of_getLsbD_eq
    intro b hb
    have hmask : framingMask.getLsbD b = true := by
      revert b
      decide
    simp [framingDataBits, hb, hmask]
  rw [framingLegal, framingLegal, hbits]

/-- A store of a legal value keeps the registers good: the written register takes a masked value, ISR only loses bits. -/
theorem csrStore_keeps_registersInv {s : State} {r : Csr} {d : CsrWord} (hd : csrLegal r d = true)
    (hs : RegistersInv s) : RegistersInv (csrStore s r d) := by
  have ⟨hctrl, hframing, hlegal, hend, hmarkers, hisr, hier, hlast⟩ := hs
  cases r with
  | ctrl => exact ⟨and_mask_and_not d _, hframing, hlegal, hend, hmarkers, hisr, hier, hlast⟩
  | framing =>
    exact ⟨hctrl, and_mask_and_not d _, (framingLegal_and_mask d).trans hd, hend, hmarkers, hisr, hier, hlast⟩
  | endMarker => exact ⟨hctrl, hframing, hlegal, and_mask_and_not d _, hmarkers, hisr, hier, hlast⟩
  | marker n =>
    refine ⟨hctrl, hframing, hlegal, hend, fun m => ?_, hisr, hier, hlast⟩
    simp only [csrStore, Fin.getElem_fin, Vector.getElem_set]
    split
    · exact and_mask_and_not d _
    · exact hmarkers m
  | isr =>
    refine ⟨hctrl, hframing, hlegal, hend, hmarkers, ?_, hier, hlast⟩
    rw [and_not_eq_zero_iff] at hisr ⊢
    intro b hb
    rw [csrStore, BitVec.getLsbD_and, Bool.and_eq_true] at hb
    exact hisr b hb.1
  | ier => exact ⟨hctrl, hframing, hlegal, hend, hmarkers, hisr, and_mask_and_not d _, hlast⟩
  | bitTicks | id | status | lastErr | edgeCount | bytesScanned | framesFound | framesDropped | resyncDiscards
  | bytesDecoded | ambigCount | bit0Count | edgeDepth => exact hs

theorem exec_keeps_registersInv {i : Instr} {s t : State} (h : exec i s = .next t) (hs : RegistersInv s) :
    RegistersInv t := by
  obtain hframe | ⟨r, d, hlegal, rfl⟩ := exec_frame_or_store h
  · exact hframe.keeps_registersInv hs
  · exact csrStore_keeps_registersInv hlegal hs

/-- The registers right after reset are good. -/
theorem registersInv_reset : RegistersInv State.reset := by
  refine ⟨?_, ?_, ?_, ?_, ?_, ?_, ?_, ?_⟩ <;> decide

theorem takeEvent_keeps_registersInv {s : State} (h : RegistersInv s) : RegistersInv (takeEvent s) := by
  rw [takeEvent_eq]
  exact h

/-! ### Ports (10_state.md R22, 30_encoding.md R95) -/

/-- The tag of an event (R96 to R104). -/
def Event.tag : Event → BitVec 4
  | .level .. => 0x1#4
  | .edge .. => 0x2#4
  | .csrv .. => 0x3#4
  | .byte .. => 0x4#4
  | .frameHdr .. => 0x5#4
  | .frameData .. => 0x6#4
  | .frameEnd .. => 0x7#4
  | .done .. => 0x8#4
  | .error .. => 0xE#4

theorem eventTag_eventWord (e : Event) : eventTag (eventWord e) = e.tag := by
  apply BitVec.eq_of_toNat_eq
  rw [eventTag, field_toNat]
  cases e <;> simp only [eventWord, Event.tag, append_toNat, BitVec.toNat_ofNat] <;> omega

/-- Every event's word carries an assigned tag (R95). -/
theorem tagAssigned_eventWord (e : Event) : tagAssigned (eventTag (eventWord e)) = true := by
  rw [eventTag_eventWord]
  cases e <;> rfl

/-- Events appended keep the ports good. -/
theorem PortsInv.append {s t : State} (hs : PortsInv s) (htaken : t.evtTaken = s.evtTaken)
    (hout : ∃ ev : List Event, t.out = s.out ++ ev.map eventWord) : PortsInv t := by
  obtain ⟨hle, htags⟩ := hs
  obtain ⟨ev, hev⟩ := hout
  refine ⟨?_, fun w hw => ?_⟩
  · rw [htaken, hev, List.length_append]
    omega
  · rw [hev, List.mem_append, List.mem_map] at hw
    obtain hw | ⟨e, -, rfl⟩ := hw
    · exact htags w hw
    · exact tagAssigned_eventWord e

/-- Every command only appends events, and takes none (R73). -/
theorem exec_out {i : Instr} {s t : State} (h : exec i s = .next t) :
    t.evtTaken = s.evtTaken ∧ ∃ ev : List Event, t.out = s.out ++ ev.map eventWord := by
  obtain hframe | ⟨r, d, -, rfl⟩ := exec_frame_or_store h
  · exact ⟨hframe.evtTaken, hframe.out⟩
  · exact ⟨csrStore_evtTaken s r d, [], by simp [csrStore_out]⟩

theorem takeEvent_keeps_portsInv {s : State} (h : PortsInv s) : PortsInv (takeEvent s) := by
  obtain ⟨hle, htags⟩ := h
  rw [takeEvent_eq]
  refine ⟨?_, htags⟩
  change s.evtTaken + (if s.evtTaken < s.out.length then 1 else 0) ≤ s.out.length
  split <;> omega

/-- With no event emitted and none taken, the ports are good. -/
theorem portsInv_of_nil {s : State} (hout : s.out = []) (htaken : s.evtTaken = 0) : PortsInv s := by
  simp [PortsInv, hout, htaken]

/-- Settles O57: a command appends events with assigned tags, and sets registers to masked values only. -/
theorem stepKeepsRegistersAndPortsGood : Obligations.StepKeepsRegistersAndPortsGood := by
  intro s t h
  cases step_cases h with
  | idle => exact ⟨id, id⟩
  | takeEvent => exact ⟨fun hs => takeEvent_keeps_registersInv hs, fun hs => takeEvent_keeps_portsInv hs⟩
  | reset => exact ⟨fun _ => registersInv_reset, fun _ => portsInv_of_nil rfl rfl⟩
  | @refused w rest r =>
    have hframe := raiseError_frame (errOfReject r) w { s with inputs := rest }
    exact ⟨fun hs => hframe.keeps_registersInv hs, fun hs => PortsInv.append hs hframe.evtTaken hframe.out⟩
  | command hin hexec =>
    obtain ⟨htaken, hout⟩ := exec_out hexec
    exact ⟨fun hs => exec_keeps_registersInv hexec hs, fun hs => PortsInv.append hs htaken hout⟩

/-- Settles O59. -/
theorem resetStateIsGood : Obligations.ResetStateIsGood := by
  refine ⟨⟨by decide, fun c => ?_⟩, assemblerInv_of_reset rfl, registersInv_reset, portsInv_of_nil rfl rfl⟩
  cases c <;> exact chanInv_of_empty rfl rfl rfl

end Sys2Proof.Machine

/-! The steps at the ports, and the accesses to the control and status registers. -/

namespace Sys2Proof.Machine

/-! ### Steps and ports (10_state.md R21 to R23) -/

/-- Settles O6. -/
theorem stepRunsDecodedCommand : Obligations.StepRunsDecodedCommand := by
  intro s w rest i hin hdec
  rw [step_of_inputs_cons hin]
  exact runWord_of_decode_ok hdec _

theorem takeEvent_of_offered {s : State} (h : s.evtTaken < s.out.length) :
    takeEvent s = { s with evtTaken := s.evtTaken + 1 } := by
  rw [takeEvent_eq, if_pos h]

theorem takeEvent_of_none {s : State} (h : s.out.length ≤ s.evtTaken) : takeEvent s = s := by
  rw [takeEvent_eq, if_neg (not_lt.2 h)]
  rfl

/-- Settles O8: the idle step, and the two cases of an event offered and none offered. -/
theorem idleAndTakingAnEvent : Obligations.IdleAndTakingAnEvent := by
  refine ⟨fun s => step_of_inputs_nil, fun s rest hin => ⟨fun hlt => ⟨rfl, ?_, ?_⟩, fun hle => ⟨?_, ?_⟩⟩⟩
  · rw [evtData, List.getElem?_eq_getElem hlt]
    rfl
  · rw [step_of_inputs_cons hin]
    exact congrArg Host.Outcome.next (takeEvent_of_offered (s := { s with inputs := rest }) hlt)
  · exact List.getElem?_eq_none hle
  · rw [step_of_inputs_cons hin]
    exact congrArg Host.Outcome.next (takeEvent_of_none (s := { s with inputs := rest }) hle)

/-- Settles O10: each value is `State.reset`'s own, and STATUS, irq and ID are computed from it. -/
theorem resetStateHoldsTheSpecsValues : Obligations.ResetStateHoldsTheSpecsValues := by
  refine ⟨fun c => ?_, rfl, rfl, rfl, rfl, rfl, rfl, rfl, by decide, rfl, rfl, rfl, rfl, rfl, rfl, rfl, rfl, rfl, rfl, rfl,
    by decide, rfl⟩
  cases c <;> exact ⟨rfl, rfl⟩

/-! ### Reads of the registers (10_state.md R29, 45_control.md R206) -/

/-- Every mapped register, in the order of the indices (R29). -/
def allCsrs : List Csr :=
  [.id, .ctrl, .bitTicks, .framing, .endMarker, .marker 0, .marker 1, .marker 2, .marker 3, .marker 4, .marker 5,
    .marker 6, .marker 7, .status, .isr, .ier, .lastErr, .edgeCount .a, .edgeCount .b, .bytesScanned, .framesFound,
    .framesDropped, .resyncDiscards, .bytesDecoded, .ambigCount, .bit0Count, .edgeDepth]

/-- A register stands at its index (R29). -/
theorem csrOfIndex_csrIndex (r : Csr) : csrOfIndex (csrIndex r) = some r := by
  cases r with
  | marker n =>
    revert n
    decide
  | edgeCount c => cases c <;> rfl
  | _ => rfl

/-- No register stands at the indices that R29 leaves out (R49). -/
theorem csrOfIndex_of_unmapped {i : BitVec 8} (h : (5 ≤ i.toNat ∧ i.toNat ≤ 7) ∨ 0x1E ≤ i.toNat) :
    csrOfIndex i = none := by
  unfold csrOfIndex
  split
  case h_28 => rfl
  all_goals omega

/-- The spec's table of reads is each register's index with its value. -/
theorem csrReadTable_eq (s : State) : csrReadTable s = allCsrs.map fun r => (csrIndex r, csrValue s r) := rfl

/-- CSR_RD of a register emits its value (R206). -/
theorem execCsrRd_csrIndex (s : State) (r : Csr) :
    execCsrRd (csrIndex r) s = .next (emit (.csrv (csrIndex r) (csrValue s r)) s) := by
  simp only [execCsrRd, csrOfIndex_csrIndex]

/-- CSR_RD of an unmapped index is an error (R49). -/
theorem execCsrRd_unmapped {i : BitVec 8} (h : csrOfIndex i = none) (s : State) :
    execCsrRd i s = .next (raiseError .badCsr (encode (.csrRd i)) s) := by
  simp only [execCsrRd, h]

/-- Settles O45: the rows of the table are the mapped registers, and each row reads its register. -/
theorem csrReadAnswers : Obligations.CsrReadAnswers := by
  refine ⟨⟨rfl, rfl, rfl, rfl, rfl⟩, ⟨rfl, rfl, rfl, rfl⟩, fun s => ⟨fun p hp => ?_, fun i hi => ?_⟩⟩
  · rw [csrReadTable_eq, List.mem_map] at hp
    obtain ⟨r, -, rfl⟩ := hp
    exact execCsrRd_csrIndex s r
  · exact execCsrRd_unmapped (csrOfIndex_of_unmapped hi) s

/-! ### Writes of the registers (45_control.md R207) -/

/-- An accepted CSR_WR stores the value in its register. -/
theorem execCsrWr_csrIndex (s : State) {r : Csr} {d : CsrWord} (hrw : csrAccess r ≠ .ro)
    (hlegal : csrLegal r d = true) : execCsrWr (csrIndex r) d s = .next (csrStore s r d) := by
  simp [execCsrWr, csrOfIndex_csrIndex, hrw, hlegal]

/-- Settles O47: the store into ISR, bit by bit. -/
theorem csrWriteOfIsrClears : Obligations.CsrWriteOfIsrClears := by
  intro s d
  refine ⟨csrStore s .isr d, execCsrWr_csrIndex s (r := .isr) (by decide) rfl, rfl, fun b => ?_⟩
  have hstore : (csrStore s .isr d).isr = s.isr &&& ~~~(d &&& isrMask) := rfl
  rw [hstore, BitVec.getLsbD_and, BitVec.getLsbD_not, BitVec.getLsbD_and, isrMask_getLsbD, Bool.and_comm (d.getLsbD b)]
  by_cases hb : b < 32
  · rw [decide_eq_true hb, Bool.true_and]
  · rw [BitVec.getLsbD_of_ge s.isr b (by omega), Bool.false_and, Bool.false_and]

end Sys2Proof.Machine

/-! The edge memories' write discipline, the event sequence, the byte order of words, and that no good state stops
(20_memory.md R62 to R64, R67, R73). -/

namespace Sys2Proof.Machine

/-! ### The free values' index: only CLEAR and reset advance it (45_control.md R209, log 4) -/

theorem ChanEffect.freeCount {c : Channel} {i : Instr} {s t : State} (h : ChanEffect c i s t) :
    t.freeCount = s.freeCount := by
  cases h with
  | refused code w => exact raiseError_freeCount code w s
  | fails code w => simp [channelFail]
  | sets => exact setChan_freeCount s c _

theorem ReadEffect.freeCount {s t : State} (h : ReadEffect s t) : t.freeCount = s.freeCount := by
  obtain ⟨code, w, rfl⟩ | ⟨e, rfl⟩ := h
  · exact raiseError_freeCount code w s
  · exact emit_freeCount e s

theorem csrStore_freeCount (s : State) (r : Csr) (d : CsrWord) : (csrStore s r d).freeCount = s.freeCount := by
  cases r <;> rfl

theorem byteOut_freeCount {d : DecodedByte} {s t : State} (h : byteOut d s = .next t) :
    t.freeCount = s.freeCount := by
  have hf := (byteOut_next h).1
  rw [byteEmit_eq, byteCount_eq] at hf
  exact hf.freeCount

theorem execDecode_freeCount {s t : State} (h : execDecode s = .next t) : t.freeCount = s.freeCount := by
  obtain ⟨code, rfl⟩ | ⟨s1, hwalk, rfl⟩ := execDecode_next h
  · exact raiseError_freeCount _ _ s
  · have hs1 : s1.freeCount = s.freeCount :=
      decodeWalk_keeps (P := fun u => u.freeCount = s.freeCount)
        (fun _ _ _ hb hs => (byteOut_freeCount hb).trans hs) hwalk rfl
    exact hs1

theorem exec_freeCount {i : Instr} {s t : State} (hi : i ≠ .clear) (h : exec i s = .next t) :
    t.freeCount = s.freeCount := by
  cases i with
  | nop =>
    cases h
    rfl
  | sample c l time => exact (execSample_effect h).freeCount
  | close c => exact (execClose_effect h).freeCount
  | query c time => exact (execQuery_effect h).freeCount
  | decode => exact execDecode_freeCount h
  | asmByte dir v time =>
    obtain ⟨code, w, rfl⟩ | hstep := execAsmByte_next h
    · exact raiseError_freeCount code w s
    · exact (asmStep_next hstep).1.freeCount
  | asmClear =>
    cases h
    rfl
  | edgeRd c k => exact (execEdgeRd_effect h).freeCount
  | csrRd k => exact (execCsrRd_effect h).freeCount
  | csrWr k d =>
    obtain ⟨code, w, rfl⟩ | ⟨r, -, -, -, rfl⟩ := execCsrWr_next h
    · exact raiseError_freeCount code w s
    · exact csrStore_freeCount s r d
  | clear => exact absurd rfl hi

theorem takeEvent_freeCount (s : State) : (takeEvent s).freeCount = s.freeCount := by
  rw [takeEvent_eq]

/-! ### The entries below count (20_memory.md R63) -/

/-- An entry depends on what its channel's memory lists at the index, and on the free values' index where it lists
nothing. -/
theorem edgeAt_congr {s t : State} {c : Channel} {k : Nat} (hfree : t.freeCount = s.freeCount)
    (hread : cellsRead (t.chan c).edges k = cellsRead (s.chan c).edges k) : edgeAt t c k = edgeAt s c k := by
  simp only [edgeAt, hread, hfree]

/-- No entry of `r` below its count is overwritten or deleted on the way to `r'`. -/
structure EntriesKept (r r' : Chan) : Prop where
  count_le : r.count.toNat ≤ r'.count.toNat
  read : ∀ k, k < r.count.toNat → cellsRead r'.edges k = cellsRead r.edges k

/-- The entries and their number decide it. -/
theorem EntriesKept.of_eq {r r' : Chan} (hedges : r'.edges = r.edges) (hcount : r'.count = r.count) :
    EntriesKept r r' where
  count_le := by rw [hcount]
  read _ _ := by rw [hedges]

theorem EntriesKept.trans {r r' r'' : Chan} (h : EntriesKept r r') (g : EntriesKept r' r'') : EntriesKept r r'' where
  count_le := h.count_le.trans g.count_le
  read k hk := (g.read k (hk.trans_le h.count_le)).trans (h.read k hk)

/-- EdgeAppend below capacity writes at the index `count`, above every entry that stands (R62). -/
theorem entriesKept_push {depth : CsrWord} {r : Chan} (hfit : r.count.toNat < depth.toNat) (e : Edge) :
    EntriesKept r (r.push e) where
  count_le := by
    rw [count_push hfit]
    omega
  read _ hk := cellsRead_cellsWrite_of_ne r.edges e hk.ne

theorem entriesKept_pushLast {depth : CsrWord} {r : Chan} (hroom : r.prevRec = false → r.count.toNat < depth.toNat) :
    EntriesKept r r.pushLast := by
  unfold Chan.pushLast
  split
  · exact .of_eq rfl rfl
  · rename_i hrec
    exact entriesKept_push (hroom (Bool.eq_false_of_not_eq_true hrec)) _

theorem entriesKept_note (r : Chan) (e : Edge) (recorded : Bool) : EntriesKept r (r.note e recorded) := .of_eq rfl rfl

/-- Every transition of a channel but CLEAR's keeps its entries. -/
theorem ChanStep.entriesKept {depth : CsrWord} {c : Channel} {r r' : Chan} {i : Instr} (h : ChanStep depth c r i r')
    (hi : i ≠ .clear) : EntriesKept r r' := by
  cases h with
  | kept | sampleFails | closeFails => exact .of_eq rfl rfl
  | sameLevel => exact entriesKept_note r _ false
  | first hst hfit => exact (entriesKept_push hfit _).trans (entriesKept_note _ _ true)
  | transition hst htime hlevel hroom hfit =>
    exact ((entriesKept_pushLast hroom).trans (entriesKept_push hfit _)).trans (entriesKept_note _ _ true)
  | closes hst hroom => exact (entriesKept_pushLast hroom).trans (.of_eq rfl rfl)
  | cleared => exact absurd rfl hi

/-- No transition but CLEAR's leaves CLOSED or FAILED (10_state.md R26), so such a record is read-only. -/
theorem ChanStep.eq_of_finished {depth : CsrWord} {c : Channel} {r r' : Chan} {i : Instr} (h : ChanStep depth c r i r')
    (hi : i ≠ .clear) (hst : r.state = .closed ∨ r.state = .failed) : r' = r := by
  have hne : r.state ≠ .empty ∧ r.state ≠ .open_ := by rcases hst with hst | hst <;> simp [hst]
  obtain ⟨hempty, hopen⟩ := hne
  cases h with
  | kept => rfl
  | first h => exact absurd h hempty
  | sameLevel h | transition h | sampleFails h | closes h => exact absurd h hopen
  | closeFails h => exact absurd h (not_or.2 ⟨hempty, hopen⟩)
  | cleared => exact absurd rfl hi

/-- A step but reset and CLEAR takes each channel's record over a transition that is not CLEAR's, and leaves the free
values' index. -/
theorem step_chanStep {s t : State} (h : step s = .next t)
    (hin : ∀ rest, s.inputs ≠ .reset :: rest ∧ s.inputs ≠ .command (encode .clear) :: rest) :
    t.freeCount = s.freeCount ∧
      ∀ c, ∃ i, i ≠ .clear ∧ ChanStep s.edgeDepth c (s.chan c) i (t.chan c) := by
  have hkept (hchan : ∀ c, t.chan c = s.chan c) (c : Channel) :
      ∃ i, i ≠ .clear ∧ ChanStep s.edgeDepth c (s.chan c) i (t.chan c) :=
    ⟨.nop, by simp, (hchan c).symm ▸ .kept .nop⟩
  cases step_cases h with
  | idle => exact ⟨rfl, hkept fun _ => rfl⟩
  | takeEvent => exact ⟨takeEvent_freeCount _, hkept fun c => by rw [takeEvent_chan, chan_withInputs]⟩
  | reset hreset => exact absurd hreset (hin _).1
  | refused => exact ⟨raiseError_freeCount .., hkept fun c => by rw [raiseError_chan, chan_withInputs]⟩
  | @command i rest _ hcommand hexec =>
    have hi : i ≠ .clear := by
      rintro rfl
      exact (hin rest).2 hcommand
    refine ⟨exec_freeCount (s := { s with inputs := rest }) hi hexec, fun c => ⟨i, hi, ?_⟩⟩
    rw [← chan_withInputs s rest c]
    exact exec_chanStep hexec c

/-- Settles O53: each channel's transition writes above its entries, and there is none from CLOSED or FAILED. -/
theorem edgeMemoryWriteDiscipline : Obligations.EdgeMemoryWriteDiscipline := by
  intro s t c h hin
  obtain ⟨hfree, hsteps⟩ := step_chanStep h hin
  obtain ⟨i, hi, hstep⟩ := hsteps c
  have hkept := hstep.entriesKept hi
  refine ⟨fun k hk => edgeAt_congr hfree (hkept.read k hk), hkept.count_le, fun hst => ?_⟩
  rw [hstep.eq_of_finished hi hst]
  exact ⟨rfl, rfl⟩

/-! ### A good state never stops (20_memory.md R62, R64, 60_exceptions.md R220) -/

/-- The appends of a transition sample fill the entries that its overflow check asks for (41_edge_detector.md R121). -/
theorem count_pushLast {depth : CsrWord} {r : Chan} (hroom : r.prevRec = false → r.count.toNat < depth.toNat) :
    r.pushLast.count.toNat + 1 = r.count.toNat + transitionNeed r := by
  cases hrec : r.prevRec with
  | true => simp [Chan.pushLast, transitionNeed, hrec]
  | false => simp [Chan.pushLast, transitionNeed, hrec, count_push (hroom hrec)]

theorem edgeAppend_goes_on {c : Channel} {s : State} (hfit : (s.chan c).count.toNat < s.edgeDepth.toNat) (t : Time)
    (l : Level) : ∃ s', edgeAppend c t l s = .next s' :=
  ⟨_, edgeAppend_eq_setChan.2 ⟨hfit, rfl⟩⟩

theorem recordLast_goes_on {c : Channel} {s : State}
    (hroom : (s.chan c).prevRec = false → (s.chan c).count.toNat < s.edgeDepth.toNat) :
    ∃ s', recordLast c s = .next s' := by
  unfold recordLast
  split
  · exact ⟨_, rfl⟩
  · rename_i hrec
    exact edgeAppend_goes_on (hroom (Bool.eq_false_of_not_eq_true hrec)) _ _

theorem sampleFirst_goes_on {c : Channel} {s : State} (hfit : (s.chan c).count.toNat < s.edgeDepth.toNat) (t : Time)
    (l : Level) : ∃ s', sampleFirst c l t s = .next s' := by
  obtain ⟨s1, happ⟩ := edgeAppend_goes_on hfit t l
  exact ⟨_, andThen_eq_next.2 ⟨s1, happ, rfl⟩⟩

/-- The overflow check of a transition sample keeps both appends inside the memory (41_edge_detector.md R132). -/
theorem sampleTransition_goes_on (c : Channel) (l : Level) (t : Time) (w : Word) (s : State) :
    ∃ s', sampleTransition c l t w s = .next s' := by
  by_cases hover : s.edgeDepth.toNat < (s.chan c).count.toNat + transitionNeed (s.chan c)
  · exact ⟨_, sampleTransition_eq_next.2 (.inl ⟨hover, rfl⟩)⟩
  · have hfit := not_lt.1 hover
    have hroom : (s.chan c).prevRec = false → (s.chan c).count.toNat < s.edgeDepth.toNat := by
      intro hrec
      rw [transitionNeed, hrec, if_neg Bool.false_ne_true] at hfit
      omega
    obtain ⟨s1, hlast⟩ := recordLast_goes_on hroom
    obtain ⟨-, rfl⟩ := recordLast_eq_setChan hlast
    have hfit1 : ((s.setChan c (s.chan c).pushLast).chan c).count.toNat
        < (s.setChan c (s.chan c).pushLast).edgeDepth.toNat := by
      have hcount := count_pushLast hroom
      rw [setChan_chan_self, setChan_edgeDepth]
      omega
    obtain ⟨s2, happ⟩ := edgeAppend_goes_on hfit1 t l
    exact ⟨_, sampleTransition_eq_next.2 (.inr ⟨hfit, _, s2, hlast, happ, rfl⟩)⟩

theorem sampleOpen_goes_on (c : Channel) (l : Level) (t : Time) (w : Word) (s : State) :
    ∃ s', sampleOpen c l t w s = .next s' := by
  unfold sampleOpen
  split
  · exact ⟨_, rfl⟩
  · split
    · exact ⟨_, rfl⟩
    · exact sampleTransition_goes_on c l t w s

/-- A good EMPTY channel has room for its first entry: it holds none, and EDGE_DEPTH is at least 2 (00_scope.md R8). -/
theorem ChannelsInv.room_of_empty {s : State} {c : Channel} (h : ChannelsInv s) (hst : (s.chan c).state = .empty) :
    (s.chan c).count.toNat < s.edgeDepth.toNat := by
  obtain ⟨hmin, hinv⟩ := h
  obtain ⟨-, hempty, -⟩ := chanInv_iff.1 (hinv c)
  rw [hempty hst, BitVec.toNat_zero]
  exact lt_of_lt_of_le (by decide) hmin

theorem execSample_goes_on {s : State} (h : ChannelsInv s) (c : Channel) (lvl : BitVec 2) (t : Time) :
    ∃ s', execSample c lvl t s = .next s' := by
  unfold execSample
  split
  · exact ⟨_, rfl⟩
  · unfold sampleLevel
    split <;> rename_i hst
    · exact ⟨_, rfl⟩
    · exact ⟨_, rfl⟩
    · exact sampleFirst_goes_on (h.room_of_empty hst) _ _
    · exact sampleOpen_goes_on ..

/-- The overflow check of CLOSE keeps its append inside the memory (41_edge_detector.md R126, R132). -/
theorem closeOpen_goes_on (c : Channel) (w : Word) (s : State) : ∃ s', closeOpen c w s = .next s' := by
  by_cases hover : (s.chan c).prevRec = false ∧ s.edgeDepth.toNat < (s.chan c).count.toNat + 1
  · exact ⟨_, closeOpen_eq_next.2 (.inl ⟨hover.1, hover.2, rfl⟩)⟩
  · have hroom (hrec : (s.chan c).prevRec = false) : (s.chan c).count.toNat < s.edgeDepth.toNat :=
      not_lt.1 fun hlt => hover ⟨hrec, hlt⟩
    obtain ⟨s1, hlast⟩ := recordLast_goes_on hroom
    exact ⟨_, closeOpen_eq_next.2 (.inr ⟨hover, s1, hlast, rfl⟩)⟩

theorem execClose_goes_on (c : Channel) (s : State) : ∃ s', execClose c s = .next s' := by
  unfold execClose
  split
  · exact ⟨_, rfl⟩
  · exact ⟨_, rfl⟩
  · exact ⟨_, rfl⟩
  · exact closeOpen_goes_on ..

theorem AssemblerInv.room {s : State} (h : AssemblerInv s) : asmRoom s := by
  obtain ⟨-, -, -, hdata, -⟩ := h
  exact hdata

theorem execAsmByte_goes_on {s : State} (h : asmRoom s) (dir : Direction) (v : Byte) (t : Time) :
    ∃ s', execAsmByte dir v t s = .next s' := by
  unfold execAsmByte
  split
  · exact ⟨_, rfl⟩
  · split
    · exact ⟨_, rfl⟩
    · exact asmStep_goes_on t v dir s h

/-- With room for its next byte, the walk goes on: every byte out leaves room for the next (43_serial_decoder.md
R165). -/
theorem decodeWalk_goes_on (cfg : DecodeCfg) (n k cursor : Nat) (s : State) (h : asmRoom s) :
    ∃ t, decodeWalk cfg n k cursor s = .next t := by
  induction n generalizing k cursor s with
  | zero => exact ⟨s, rfl⟩
  | succ n ih =>
    simp only [decodeWalk]
    split
    · obtain ⟨s1, hbyte⟩ := byteOut_goes_on (decodeChar s cfg (edgeAt s .a k).time) s h
      rw [hbyte, andThen_next]
      exact ih _ _ s1 ((byteOut_next hbyte).2 h)
    · exact ih _ _ s h

/-- The clear at DECODE's start leaves the assembler Idle, with room for a byte in every state. -/
theorem execDecode_goes_on (s : State) : ∃ t, execDecode s = .next t := by
  unfold execDecode
  split
  · exact ⟨_, rfl⟩
  · split
    · exact ⟨_, rfl⟩
    · have hroom : asmRoom (decoderCountersClear (asmClear s)) := nofun
      obtain ⟨s1, hwalk⟩ := decodeWalk_goes_on (decodeCfg s) (s.ch0.count.toNat - 1) 1 0 _ hroom
      exact ⟨_, andThen_eq_next.2 ⟨s1, hwalk, rfl⟩⟩

theorem execQuery_goes_on (c : Channel) (t : Time) (s : State) : ∃ s', execQuery c t s = .next s' := by
  unfold execQuery
  split <;> exact ⟨_, rfl⟩

theorem execEdgeRd_goes_on (c : Channel) (k : BitVec 32) (s : State) : ∃ s', execEdgeRd c k s = .next s' := by
  unfold execEdgeRd
  split
  · exact ⟨_, rfl⟩
  · split <;> exact ⟨_, rfl⟩

theorem execCsrRd_goes_on (i : BitVec 8) (s : State) : ∃ s', execCsrRd i s = .next s' := by
  unfold execCsrRd
  split <;> exact ⟨_, rfl⟩

theorem execCsrWr_goes_on (i : BitVec 8) (d : CsrWord) (s : State) : ∃ s', execCsrWr i d s = .next s' := by
  unfold execCsrWr
  split
  · exact ⟨_, rfl⟩
  · split
    · exact ⟨_, rfl⟩
    · split <;> exact ⟨_, rfl⟩

/-- Every command answers a next state where the channels are good and the assembler has room for its next byte. -/
theorem exec_goes_on {s : State} (hchan : ChannelsInv s) (hroom : asmRoom s) (i : Instr) :
    ∃ t, exec i s = .next t := by
  cases i with
  | nop => exact ⟨s, rfl⟩
  | sample c l t => exact execSample_goes_on hchan c l t
  | close c => exact execClose_goes_on c s
  | query c t => exact execQuery_goes_on c t s
  | decode => exact execDecode_goes_on s
  | asmByte dir v t => exact execAsmByte_goes_on hroom dir v t
  | asmClear => exact ⟨asmClear s, rfl⟩
  | edgeRd c k => exact execEdgeRd_goes_on c k s
  | csrRd k => exact execCsrRd_goes_on k s
  | csrWr k d => exact execCsrWr_goes_on k d s
  | clear => exact ⟨_, rfl⟩

/-- Settles O58: what the host offers is no command, or a word that is refused, or a command that answers. -/
theorem goodStatesNeverStop : Obligations.GoodStatesNeverStop := by
  rintro s ⟨hchan, hasm, -, -⟩
  match hin : s.inputs with
  | [] => exact ⟨_, step_of_inputs_nil hin⟩
  | .takeEvent :: rest => exact ⟨_, step_of_inputs_cons hin⟩
  | .reset :: rest => exact ⟨_, step_of_inputs_cons hin⟩
  | .command w :: rest =>
    rw [step_of_inputs_cons hin, runInput]
    cases hdec : Sys2Proof.decode w with
    | error r => exact ⟨_, runWord_of_decode_error hdec _⟩
    | ok i =>
      rw [runWord_of_decode_ok hdec]
      have hchan' : ChannelsInv { s with inputs := rest } :=
        channelsInv_of_chan_eq hchan rfl (chan_withInputs s rest)
      exact exec_goes_on hchan' hasm.room i

/-! ### The event sequence (20_memory.md R73) -/

theorem takeEvent_out (s : State) : (takeEvent s).out = s.out := by
  rw [takeEvent_eq]

/-- Settles O54: a command and a refused word append events, and nothing else but reset touches them. -/
theorem eventsOnlyAppend : Obligations.EventsOnlyAppend := by
  intro s t h hin
  cases step_cases h with
  | idle => exact ⟨[], by simp⟩
  | takeEvent => exact ⟨[], by simp [takeEvent_out]⟩
  | reset hreset => exact absurd hreset (hin _)
  | @refused w rest r =>
    obtain ⟨ev, hev⟩ := (raiseError_frame (errOfReject r) w { s with inputs := rest }).out
    exact ⟨_, hev⟩
  | command hcommand hexec =>
    obtain ⟨-, ev, hev⟩ := exec_out hexec
    exact ⟨_, hev⟩

/-! ### The byte order of words (20_memory.md R67) -/

/-- A word is its eight bytes, the least significant one last. -/
theorem append_bytes_of_word (w : Word) :
    w.extractLsb' 56 8 ++ w.extractLsb' 48 8 ++ w.extractLsb' 40 8 ++ w.extractLsb' 32 8 ++ w.extractLsb' 24 8
      ++ w.extractLsb' 16 8 ++ w.extractLsb' 8 8 ++ w.extractLsb' 0 8 = w := by
  apply BitVec.eq_of_toNat_eq
  have hw := w.isLt
  simp only [append_toNat, field_toNat]
  omega

theorem wordOfBytes_bytesOfWord (w : Word) (rest : List Byte) :
    wordOfBytes (bytesOfWord w ++ rest) = some (w, rest) :=
  congrArg (fun x => some (x, rest)) (append_bytes_of_word w)

/-- Settles O5: the bytes put together again are the word, and each byte is the field at its position. -/
theorem wordsMoveLittleEndian : Obligations.WordsMoveLittleEndian := by
  refine ⟨wordOfBytes_bytesOfWord, fun w k hk => ?_, fun d k hk => ?_⟩
  · interval_cases k <;> rfl
  · interval_cases k <;> rfl

end Sys2Proof.Machine

/-! The decoder over the encoder's words, and the words that it refuses (30_encoding.md R81 to R87). -/

namespace Sys2Proof

/-! ### The decoder answers by format (30_encoding.md R84, R85) -/

theorem decode_of_no_format {w : Word} (h : formatOfOp (wordOp w) = none) : decode w = .error .illegalOp := by
  simp only [decode, h]

theorem decode_of_reserved {w : Word} {fmt : Format} (hfmt : formatOfOp (wordOp w) = some fmt)
    (h : w &&& rsvMask fmt ≠ 0#64) : decode w = .error .rsvdNonzero := by
  simp only [decode, hfmt, if_pos h]

/-- An opcode with a format names a command (R81). -/
theorem instrOfFields_of_format {w : Word} {fmt : Format} (hfmt : formatOfOp (wordOp w) = some fmt) :
    ∃ i, instrOfFields w = some i := by
  unfold formatOfOp at hfmt
  unfold instrOfFields
  split at hfmt
  case h_12 => cases hfmt
  all_goals exact ⟨_, rfl⟩

/-- A word whose opcode has a format, with no must-be-zero bit of the format set, is a command's. -/
theorem decode_of_format {w : Word} {fmt : Format} (hfmt : formatOfOp (wordOp w) = some fmt)
    (h : w &&& rsvMask fmt = 0#64) : ∃ i, decode w = .ok i := by
  obtain ⟨i, hi⟩ := instrOfFields_of_format hfmt
  obtain rfl := Option.some.inj (hfmt.symm.trans (formatOfOp_of_instrOfFields hi))
  exact ⟨i, decode_eq_ok.2 ⟨h, hi⟩⟩

/-- The opcodes 0xB to 0xF have no format (R81). -/
theorem formatOfOp_of_illegal {op : BitVec 4} (h : 0xB ≤ op.toNat) : formatOfOp op = none := by
  unfold formatOfOp
  split
  case h_12 => rfl
  all_goals omega

/-- Each row of the spec's table is an opcode with the mask of its format (R84). -/
theorem formatOfOp_of_mem_reservedMaskTable :
    ∀ p ∈ Machine.reservedMaskTable, (formatOfOp p.1).map rsvMask = some p.2 := by
  simp [Machine.reservedMaskTable, formatOfOp, rsvMask]

/-- Settles O2: without a format the opcode is refused, with one its mask decides between a refusal and a command. -/
theorem everyWordDecodesOrIsRefused : Obligations.EveryWordDecodesOrIsRefused := by
  refine fun w => ⟨fun hop => ?_, fun p hp hop => ?_⟩
  · have hdec := decode_of_no_format (w := w) (formatOfOp_of_illegal hop)
    exact ⟨hdec, fun s => by rw [Machine.runWord_of_decode_error hdec, Machine.errOfReject]⟩
  · obtain ⟨fmt, hfmt, hmask⟩ := Option.map_eq_some_iff.1 (formatOfOp_of_mem_reservedMaskTable p hp)
    rw [← hop] at hfmt
    rw [← hmask]
    refine ⟨fun hrsv => ?_, fun hrsv => ?_⟩
    · have hdec := decode_of_reserved hfmt hrsv
      exact ⟨hdec, fun s => by rw [Machine.runWord_of_decode_error hdec, Machine.errOfReject]⟩
    · obtain ⟨i, hdec⟩ := decode_of_format hfmt hrsv
      exact ⟨i, hdec, encode_of_decode hdec⟩

/-! ### The encoder's words (30_encoding.md R82) -/

/-- The word of every command carries its opcode and no must-be-zero bit of its format. -/
theorem encodesItsFormat (i : Instr) : Laws.EncodesItsFormat.Statement i := by
  cases i with
  | nop => exact Laws.EncodesItsFormat.nop
  | sample c l t => exact Laws.EncodesItsFormat.sample c l t
  | close c => exact Laws.EncodesItsFormat.close c
  | query c t => exact Laws.EncodesItsFormat.query c t
  | decode => exact Laws.EncodesItsFormat.decode
  | asmByte d v t => exact Laws.EncodesItsFormat.asmByte d v t
  | asmClear => exact Laws.EncodesItsFormat.asmClear
  | edgeRd c k => exact Laws.EncodesItsFormat.edgeRd c k
  | csrRd k => exact Laws.EncodesItsFormat.csrRd k
  | csrWr k d => exact Laws.EncodesItsFormat.csrWr k d
  | clear => exact Laws.EncodesItsFormat.clear

theorem fields_encode_sample (c : Channel) (l : BitVec 2) (t : Time) :
    wordCh (encode (.sample c l t)) = c ∧ wordLvl (encode (.sample c l t)) = l ∧
      wordTime (encode (.sample c l t)) = t := by
  simp (disch := omega) only [wordCh, wordLvl, wordTime, encode, BitVec.extractLsb'_append_eq_of_le,
    BitVec.extractLsb'_append_eq_of_add_le, BitVec.extractLsb'_eq_self, Nat.reduceSub, channelOfBit_bit, and_self]

theorem fields_encode_close (c : Channel) : wordCh (encode (.close c)) = c := by
  simp (disch := omega) only [wordCh, encode, BitVec.extractLsb'_append_eq_of_le,
    BitVec.extractLsb'_append_eq_of_add_le, BitVec.extractLsb'_eq_self, Nat.reduceSub, channelOfBit_bit]

theorem fields_encode_query (c : Channel) (t : Time) :
    wordCh (encode (.query c t)) = c ∧ wordTime (encode (.query c t)) = t := by
  simp (disch := omega) only [wordCh, wordTime, encode, BitVec.extractLsb'_append_eq_of_le,
    BitVec.extractLsb'_append_eq_of_add_le, BitVec.extractLsb'_eq_self, Nat.reduceSub, channelOfBit_bit, and_self]

theorem fields_encode_asmByte (d : Direction) (v : Byte) (t : Time) :
    wordDir (encode (.asmByte d v t)) = d ∧ wordValue (encode (.asmByte d v t)) = v ∧
      wordTime (encode (.asmByte d v t)) = t := by
  simp (disch := omega) only [wordDir, wordValue, wordTime, encode, BitVec.extractLsb'_append_eq_of_le,
    BitVec.extractLsb'_append_eq_of_add_le, BitVec.extractLsb'_eq_self, Nat.reduceSub, directionOfBit_bit, and_self]

theorem fields_encode_edgeRd (c : Channel) (k : BitVec 32) :
    wordCh (encode (.edgeRd c k)) = c ∧ wordIndex (encode (.edgeRd c k)) = k := by
  simp (disch := omega) only [wordCh, wordIndex, encode, BitVec.extractLsb'_append_eq_of_le,
    BitVec.extractLsb'_append_eq_of_add_le, BitVec.extractLsb'_eq_self, Nat.reduceSub, channelOfBit_bit, and_self]

theorem fields_encode_csrRd (i : BitVec 8) : wordCsr (encode (.csrRd i)) = i := by
  simp (disch := omega) only [wordCsr, encode, BitVec.extractLsb'_append_eq_of_le,
    BitVec.extractLsb'_append_eq_of_add_le, BitVec.extractLsb'_eq_self, Nat.reduceSub]

theorem fields_encode_csrWr (i : BitVec 8) (d : CsrWord) :
    wordCsr (encode (.csrWr i d)) = i ∧ wordData (encode (.csrWr i d)) = d := by
  simp (disch := omega) only [wordCsr, wordData, encode, BitVec.extractLsb'_append_eq_of_le,
    BitVec.extractLsb'_append_eq_of_add_le, BitVec.extractLsb'_eq_self, Nat.reduceSub, and_self]

/-- The opcode and the fields of a command's word name that command (R81, R82). -/
theorem instrOfFields_encode (i : Instr) : instrOfFields (encode i) = some i := by
  obtain ⟨hop, -, -⟩ := encodesItsFormat i
  unfold instrOfFields
  rw [hop]
  cases i with
  | nop | decode | asmClear | clear => rfl
  | sample c l t =>
    obtain ⟨hc, hl, ht⟩ := fields_encode_sample c l t
    simp [Instr.op, hc, hl, ht]
  | close c => simp [Instr.op, fields_encode_close]
  | query c t =>
    obtain ⟨hc, ht⟩ := fields_encode_query c t
    simp [Instr.op, hc, ht]
  | asmByte d v t =>
    obtain ⟨hd, hv, ht⟩ := fields_encode_asmByte d v t
    simp [Instr.op, hd, hv, ht]
  | edgeRd c k =>
    obtain ⟨hc, hk⟩ := fields_encode_edgeRd c k
    simp [Instr.op, hc, hk]
  | csrRd k => simp [Instr.op, fields_encode_csrRd]
  | csrWr k d =>
    obtain ⟨hk, hd⟩ := fields_encode_csrWr k d
    simp [Instr.op, hk, hd]

/-- Settles O1: the word of a command has no must-be-zero bit set, and its opcode and fields name the command. -/
theorem decodeOfEncode : Obligations.DecodeOfEncode := by
  intro i
  obtain ⟨-, -, hrsv⟩ := encodesItsFormat i
  exact decode_eq_ok.2 ⟨hrsv, instrOfFields_encode i⟩

/-- The decoder gives back the command whose word this is. -/
theorem decode_of_encode_eq {w : Word} {i : Instr} (h : encode i = w) : decode w = .ok i := by
  rw [← h]
  exact decodeOfEncode i

/-- Settles O3: each word is the encoder's own for its command. -/
theorem workedExamplesDecode : Obligations.WorkedExamplesDecode := by
  refine ⟨?_, ?_, ?_, ?_, ?_, ?_, ?_, ?_, ?_, ?_⟩ <;> exact decode_of_encode_eq (by decide)

end Sys2Proof

/-! The layouts of the event words, and the commands that answer with one event (30_encoding.md R95 to R104). -/

namespace Sys2Proof.Machine

/-! ### Event words -/

/-- A bit of a word is the one-bit field at its position. -/
theorem getLsbD_of_field {n i : Nat} {w : BitVec n} {b : Bool} (h : w.extractLsb' i 1 = BitVec.ofBool b) :
    w.getLsbD i = b := by
  have hbit := congrArg (fun x : BitVec 1 => x.getLsbD 0) h
  simpa using hbit

/-- The fields and the bits of a BYTE event's word (R99). -/
theorem eventWord_byte_layout (dir : Direction) (ambig b0 : Bool) (v : Byte) (t : Time) :
    let w := eventWord (.byte dir ambig b0 v t)
    w.extractLsb' 60 4 = 4#4 ∧ w.extractLsb' 59 1 = dir.bit ∧ w.getLsbD 58 = ambig ∧ w.getLsbD 57 = b0 ∧
      w.getLsbD 56 = false ∧ w.extractLsb' 48 8 = v ∧ w.extractLsb' 0 48 = t := by
  refine ⟨?_, ?_, getLsbD_of_field ?_, getLsbD_of_field ?_, getLsbD_of_field ?_, ?_, ?_⟩ <;>
    simp (disch := omega) only [eventWord, BitVec.extractLsb'_append_eq_of_le,
      BitVec.extractLsb'_append_eq_of_add_le, BitVec.extractLsb'_eq_self, Nat.reduceSub]
  rfl

/-- Settles O4: a field of the concatenation that an event's word is, is the part that stands at its position. -/
theorem eventWordLayouts : Obligations.EventWordLayouts := by
  refine ⟨fun c l t => ?_, fun c e => ?_, fun i d => ?_, eventWord_byte_layout, fun ty m len cs start => ?_,
      fun pos d => ?_, fun e i => ?_, fun n => ?_, fun op code detail => ?_⟩ <;>
    simp (disch := omega) only [eventWord, BitVec.extractLsb'_append_eq_of_le,
      BitVec.extractLsb'_append_eq_of_add_le, BitVec.extractLsb'_eq_self, Nat.reduceSub, and_self]

/-! ### Steps and answers -/

/-- Settles O7. -/
theorem stepRefusesOtherWords : Obligations.StepRefusesOtherWords := by
  intro s w rest r hin hdec
  rw [step_of_inputs_cons hin]
  exact runWord_of_decode_error hdec _

/-- QUERY of a CLOSED channel emits the level it looks up (42_level_sampler.md R144). -/
theorem execQuery_of_closed {s : State} {c : Channel} (h : (s.chan c).state = .closed) (t : Time) :
    execQuery c t s = .next (emit (.level c (levelAt s c t) t) s) := by
  rw [execQuery, if_neg (not_not.2 h)]

/-- EDGE_RD below count of a CLOSED channel emits the entry (42_level_sampler.md R145). -/
theorem execEdgeRd_of_closed {s : State} {c : Channel} {k : BitVec 32} (h : (s.chan c).state = .closed)
    (hk : k.toNat < (s.chan c).count.toNat) : execEdgeRd c k s = .next (emit (.edge c (edgeAt s c k.toNat)) s) := by
  rw [execEdgeRd, if_neg (not_not.2 h), if_neg (not_le.2 hk)]

/-- Settles O27: the word that QUERY emits is the LEVEL event's. -/
theorem queryAnswers : Obligations.QueryAnswers := fun _ _ t hst => execQuery_of_closed hst t

/-- Settles O28: the word that EDGE_RD emits is the EDGE event's. -/
theorem edgeReadAnswers : Obligations.EdgeReadAnswers := fun _ _ _ hst hk => execEdgeRd_of_closed hst hk

end Sys2Proof.Machine

/-! The serial decoder: its pieces, and what a whole DECODE does (43_serial_decoder.md). -/

namespace Sys2Proof.Machine

/-! ### The pieces of the walk (43_serial_decoder.md R158 to R163) -/

theorem startEdge_eq_true (s : State) (k : Nat) :
    startEdge s k = true ↔ (edgeAt s .a (k - 1)).level = .high ∧ (edgeAt s .a k).level ≠ .high := by
  rw [startEdge, Bool.and_eq_true, decide_eq_true_iff, decide_eq_true_iff]

/-- A candidate at or after the cursor is taken, and moves the cursor (R159). -/
theorem decodeWalk_of_taken {s : State} {k cursor : Nat} (hstart : startEdge s k = true)
    (hcursor : cursor ≤ (edgeAt s .a k).time.toNat) (cfg : DecodeCfg) (n : Nat) :
    decodeWalk cfg (n + 1) k cursor s =
      andThen (byteOut (decodeChar s cfg (edgeAt s .a k).time) s) fun t =>
        decodeWalk cfg n (k + 1) (cursorAfter cfg (decodeChar s cfg (edgeAt s .a k).time)) t := by
  rw [decodeWalk, if_pos ⟨hstart, hcursor⟩]

/-- Any other entry is passed over, and leaves the cursor (R159). -/
theorem decodeWalk_of_not_taken {s : State} {k cursor : Nat}
    (h : ¬ (startEdge s k = true ∧ cursor ≤ (edgeAt s .a k).time.toNat)) (cfg : DecodeCfg) (n : Nat) :
    decodeWalk cfg (n + 1) k cursor s = decodeWalk cfg n (k + 1) cursor s := by
  rw [decodeWalk, if_neg h]

/-- The stop bits of each direction are FRAMING's two fields (10_state.md R33). -/
theorem stopBits_decodeCfg (s : State) (dir : Direction) :
    stopBits (decodeCfg s) dir =
      if dir = .fromB then (s.framing.extractLsb' 6 2).toNat else (s.framing.extractLsb' 4 2).toNat := by
  cases dir <;> rfl

/-! ### One byte out (43_serial_decoder.md R166) -/

/-- An ASM_BYTE that neither check refuses is the assembler's step (44_frame_assembler.md R191). -/
theorem execAsmByte_accepted {s : State} {t : Time} (hbt : s.bitTicks ≠ 0#32)
    (htime : ¬ (s.asm.havePrev = true ∧ t.toNat < s.asm.prevTime.toNat)) (dir : Direction) (v : Byte) :
    execAsmByte dir v t s = asmStep t v dir s := by
  rw [execAsmByte, if_neg hbt, if_neg htime]

/-- The state with a decoded byte counted and announced, in the spec's terms. -/
theorem byteEmit_byteCount_eq (d : DecodedByte) (s : State) :
    byteEmit d (byteCount d s) = { s with
      bytesDecoded := s.bytesDecoded + 1#32
      ambigCount := if d.ambig then s.ambigCount + 1#32 else s.ambigCount
      bit0Count := if d.b0 then s.bit0Count + 1#32 else s.bit0Count
      isr := s.isr ||| (if d.ambig then 0x00000008#32 else 0#32) ||| (if d.b0 then 0x00000010#32 else 0#32)
      out := if s.ctrl.getLsbD 0 then s.out ++ [byteWord d] else s.out } := by
  have hword : eventWord (.byte d.dir d.ambig d.b0 d.value d.start) = byteWord d := rfl
  have hctrl : ctrlByteEvEn s.ctrl = s.ctrl.getLsbD 0 := rfl
  have hambig (x : CsrWord) : isrWith x .dirAmbig = x ||| 0x00000008#32 := rfl
  have hb0 (x : CsrWord) : isrWith x .bit0Viol = x ||| 0x00000010#32 := rfl
  rw [byteEmit_eq, byteCount_eq]
  simp only [hword, hctrl, hambig, hb0]
  congr 1
  · cases d.ambig <;> cases d.b0 <;> simp
  · cases d.ambig <;> simp
  · cases d.b0 <;> simp
  · split <;> simp

/-- A byte out is the accepted ASM_BYTE of it, from the state with it counted and announced (R166). -/
theorem byteOut_eq_execAsmByte {d : DecodedByte} {s : State} (hbt : s.bitTicks ≠ 0#32)
    (htime : ¬ (s.asm.havePrev = true ∧ d.start.toNat < s.asm.prevTime.toNat)) :
    byteOut d s = execAsmByte d.dir d.value d.start (byteEmit d (byteCount d s)) := by
  have hasm : (byteEmit d (byteCount d s)).asm = s.asm := by rw [byteEmit_byteCount_eq]
  have hticks : (byteEmit d (byteCount d s)).bitTicks = s.bitTicks := by rw [byteEmit_byteCount_eq]
  exact (execAsmByte_accepted (hticks ▸ hbt) (hasm ▸ htime) d.dir d.value).symm

/-- Settles O30: each piece by its own lemma, and the fields of a decoded character as they are defined. -/
theorem decoderPieces : Obligations.DecoderPieces := by
  refine ⟨startEdge_eq_true,
    fun cfg n k cursor s => ⟨fun hstart hcursor => decodeWalk_of_taken hstart hcursor cfg n,
      fun h => decodeWalk_of_not_taken h cfg n⟩,
    fun d s hbt htime => ?_, fun lp ls => ⟨rfl, rfl, rfl⟩, fun s start i => rfl,
    fun s start => ⟨rfl, rfl, rfl, rfl, ?_⟩⟩
  · rw [byteOut_eq_execAsmByte hbt htime, byteEmit_byteCount_eq]
    rfl
  · rw [cursorAfter, stopBits_decodeCfg]
    rfl

/-! ### The walk is the batch decoder, byte by byte (43_serial_decoder.md R165) -/

/-- The two states hold the same edge lists, down to the entries that nothing has written. -/
structure SameEdgeLists (s u : State) : Prop where
  chan : ∀ c, u.chan c = s.chan c
  freeCount : u.freeCount = s.freeCount

theorem SameEdgeLists.trans {s t u : State} (h : SameEdgeLists s t) (g : SameEdgeLists t u) : SameEdgeLists s u :=
  ⟨fun c => (g.chan c).trans (h.chan c), g.freeCount.trans h.freeCount⟩

theorem SameEdgeLists.edgeAt {s u : State} (h : SameEdgeLists s u) (c : Channel) : edgeAt u c = edgeAt s c :=
  funext fun _ => edgeAt_congr h.freeCount (by rw [h.chan])

theorem SameEdgeLists.levelAtHalf {s u : State} (h : SameEdgeLists s u) (c : Channel) (i : Nat) :
    levelAtHalf u c i = levelAtHalf s c i := by
  rw [Machine.levelAtHalf, Machine.levelAtHalf, h.edgeAt, h.chan]

theorem SameEdgeLists.startEdge {s u : State} (h : SameEdgeLists s u) (k : Nat) : startEdge u k = startEdge s k := by
  rw [Machine.startEdge, Machine.startEdge, h.edgeAt]

theorem SameEdgeLists.decodeValue {s u : State} (h : SameEdgeLists s u) (cfg : DecodeCfg) (start : Time) (n : Nat) :
    decodeValue u cfg start n = decodeValue s cfg start n := by
  induction n with
  | zero => rfl
  | succ n ih => rw [Machine.decodeValue, Machine.decodeValue, h.levelAtHalf, ih]

/-- A decoded character is a function of the edge lists (R171). -/
theorem SameEdgeLists.decodeChar {s u : State} (h : SameEdgeLists s u) (cfg : DecodeCfg) (start : Time) :
    decodeChar u cfg start = decodeChar s cfg start := by
  simp only [Machine.decodeChar, h.levelAtHalf, h.decodeValue]

theorem sameEdgeLists_of_byteOut {d : DecodedByte} {s t : State} (h : byteOut d s = .next t) : SameEdgeLists s t :=
  ⟨byteOut_chan h, byteOut_freeCount h⟩

/-- Two continuations that agree on the state reached go on alike. -/
theorem andThen_congr {r : Result} {f g : State → Result} (h : ∀ t, r = .next t → f t = g t) :
    andThen r f = andThen r g := by
  cases r with
  | next s => exact h s rfl
  | fault e => rfl
  | refused e => rfl

theorem decodedFrom_of_taken {s : State} {k cursor : Nat} (hstart : startEdge s k = true)
    (hcursor : cursor ≤ (edgeAt s .a k).time.toNat) (cfg : DecodeCfg) (n : Nat) :
    decodedFrom s cfg (n + 1) k cursor = decodeChar s cfg (edgeAt s .a k).time ::
      decodedFrom s cfg n (k + 1) (cursorAfter cfg (decodeChar s cfg (edgeAt s .a k).time)) := by
  obtain ⟨hhigh, hlow⟩ := (startEdge_eq_true s k).1 hstart
  rw [decodedFrom, if_pos ⟨hhigh, hlow, hcursor⟩]

theorem decodedFrom_of_not_taken {s : State} {k cursor : Nat}
    (h : ¬ (startEdge s k = true ∧ cursor ≤ (edgeAt s .a k).time.toNat)) (cfg : DecodeCfg) (n : Nat) :
    decodedFrom s cfg (n + 1) k cursor = decodedFrom s cfg n (k + 1) cursor := by
  rw [startEdge_eq_true, and_assoc] at h
  rw [decodedFrom, if_neg h]

/-- The walk puts out the bytes of the pure walk over the starting state's edge lists, which no byte out changes. -/
theorem decodeWalk_eq_byteOutAll {s u : State} (h : SameEdgeLists s u) (cfg : DecodeCfg) (n k cursor : Nat) :
    decodeWalk cfg n k cursor u = byteOutAll (decodedFrom s cfg n k cursor) u := by
  induction n generalizing k cursor u with
  | zero => rfl
  | succ n ih =>
    by_cases htaken : startEdge s k = true ∧ cursor ≤ (edgeAt s .a k).time.toNat
    · obtain ⟨hstart, hcursor⟩ := htaken
      rw [decodedFrom_of_taken hstart hcursor, byteOutAll,
        decodeWalk_of_taken (by rwa [h.startEdge]) (by rwa [h.edgeAt]), h.edgeAt, h.decodeChar]
      exact andThen_congr fun t ht => ih (h.trans (sameEdgeLists_of_byteOut ht)) _ _
    · rw [decodedFrom_of_not_taken htaken, decodeWalk_of_not_taken (by rwa [h.startEdge, h.edgeAt])]
      exact ih h _ _

/-- DECODE that no check refuses: the clears, every decoded byte out, the completion (R165, R167). -/
theorem execDecode_eq_byteOutAll {s : State} (h0 : s.ch0.state = .closed) (h1 : s.ch1.state = .closed)
    (hbt : s.bitTicks ≠ 0#32) :
    execDecode s =
      andThen (byteOutAll (decodedBytes s) (decoderCountersClear (asmClear s))) fun t => .next (decodeDone t) := by
  have hstart : SameEdgeLists s (decoderCountersClear (asmClear s)) := ⟨by simp, rfl⟩
  rw [execDecode, if_neg (by simp [h0, h1]), if_neg hbt, decodeRun, decodeWalk_eq_byteOutAll hstart, decodedBytes]

/-! ### What the bytes out do to the state (43_serial_decoder.md R166) -/

/-- A transition of the assembler counts nothing in BYTES_SCANNED: its step has (44_frame_assembler.md R183). -/
theorem asmTransition_bytesScanned {v : Byte} {idx : BitVec 32} {s t : State}
    (h : asmTransition v idx s = .next t) : t.bytesScanned = s.bytesScanned := by
  unfold asmTransition at h
  split at h
  · cases h
    unfold asmIdle
    split <;> rfl
  · cases h
    rfl
  · obtain ⟨s1, hwrite, hcount⟩ := andThen_eq_next.1 h
    obtain ⟨-, rfl⟩ := payloadWrite_eq_next.1 hwrite
    cases hcount
    rfl
  · cases h
    rfl
  · cases h
    rw [asmEnd_eq]
    split <;> rfl

theorem asmStep_bytesScanned {t : Time} {v : Byte} {dir : Direction} {s u : State}
    (h : asmStep t v dir s = .next u) : u.bytesScanned = s.bytesScanned + 1#32 := by
  have hstep := asmTransition_bytesScanned h
  rw [resync_eq] at hstep
  exact hstep

/-- The word carries the tag of a BYTE event (30_encoding.md R95, R99). -/
def isByteWord (w : Word) : Bool := decide (w.extractLsb' 60 4 = 0x4#4)

theorem isByteWord_byteWord (d : DecodedByte) : isByteWord (byteWord d) = true :=
  decide_eq_true (eventTag_eventWord (.byte d.dir d.ambig d.b0 d.value d.start))

theorem filter_isByteWord_frameEvents {ev : List Event} (h : ∀ e ∈ ev, isFrameEvent e = true) :
    (ev.map eventWord).filter isByteWord = [] := by
  rw [List.filter_eq_nil_iff]
  intro w hw
  obtain ⟨e, he, rfl⟩ := List.mem_map.1 hw
  exact fun hbyte => eventTag_ne_byte_of_isFrameEvent (h e he) (of_decide_eq_true hbyte)

/-- The sticky bits of one decoded byte (R166). -/
theorem byteCount_isr_getLsbD (d : DecodedByte) (s : State) (b : Nat) :
    (byteCount d s).isr.getLsbD b =
      (s.isr.getLsbD b || (decide (b = 3) && d.ambig) || (decide (b = 4) && d.b0)) := by
  have hambig (x : CsrWord) : (isrWith x .dirAmbig).getLsbD b = (x.getLsbD b || decide (b = 3)) :=
    isrWith_getLsbD x .dirAmbig b
  have hb0 (x : CsrWord) : (isrWith x .bit0Viol).getLsbD b = (x.getLsbD b || decide (b = 4)) :=
    isrWith_getLsbD x .bit0Viol b
  rw [byteCount_eq]
  cases d.ambig <;> cases d.b0 <;> simp [hambig, hb0]

/-- What putting out decoded bytes does: they are counted with their flags and scanned by the assembler, their BYTE events
are emitted in order between the frames' events, and the channels, the configuration and LAST_ERR stay (R166). -/
structure BytesOut (ds : List DecodedByte) (s t : State) : Prop where
  frame : CmdFrame s t
  edges : SameEdgeLists s t
  lastErr : t.lastErr = s.lastErr
  bytesDecoded : t.bytesDecoded = s.bytesDecoded + BitVec.ofNat 32 ds.length
  ambigCount : t.ambigCount = s.ambigCount + BitVec.ofNat 32 (ds.filter (·.ambig)).length
  bit0Count : t.bit0Count = s.bit0Count + BitVec.ofNat 32 (ds.filter (·.b0)).length
  bytesScanned : t.bytesScanned = s.bytesScanned + BitVec.ofNat 32 ds.length
  byteEvents : ∃ ev, t.out = s.out ++ ev ∧
    ev.filter isByteWord = if s.ctrl.getLsbD 0 then ds.map byteWord else []
  isrKept : ∀ b, s.isr.getLsbD b = true → t.isr.getLsbD b = true
  isrBits : ∀ b, b < 5 ∨ 8 ≤ b → t.isr.getLsbD b =
    (s.isr.getLsbD b || (decide (b = 3) && ds.any (·.ambig)) || (decide (b = 4) && ds.any (·.b0)))

theorem BytesOut.nil (s : State) : BytesOut [] s s where
  frame := .refl s
  edges := ⟨fun _ => rfl, rfl⟩
  lastErr := rfl
  bytesDecoded := by simp
  ambigCount := by simp
  bit0Count := by simp
  bytesScanned := by simp
  byteEvents := ⟨[], by simp⟩
  isrKept _ hb := hb
  isrBits _ _ := by simp

/-- How many of one byte satisfy a test, as a counter's increment. -/
theorem ofNat_length_filter_singleton (p : DecodedByte → Bool) (d : DecodedByte) :
    BitVec.ofNat 32 ([d].filter p).length = if p d then 1#32 else 0#32 := by
  cases hp : p d <;> simp [hp]

theorem byteEmit_byteCount_out (d : DecodedByte) (s : State) :
    (byteEmit d (byteCount d s)).out = s.out ++ if s.ctrl.getLsbD 0 then [byteWord d] else [] := by
  rw [byteEmit_eq, byteCount_eq]
  rfl

theorem byteEmit_byteCount_isr (d : DecodedByte) (s : State) :
    (byteEmit d (byteCount d s)).isr = (byteCount d s).isr := by
  rw [byteEmit_eq]

/-- One byte out: what `byteCount` and `byteEmit` do, and no more than a frame's events and bits from the assembler. -/
theorem bytesOut_singleton {d : DecodedByte} {s t : State} (h : byteOut d s = .next t) : BytesOut [d] s t := by
  obtain ⟨hframe, -⟩ := byteOut_next h
  have hscanned := asmStep_bytesScanned h
  obtain ⟨ev, hout, hev⟩ := hframe.out
  have hlast := hframe.lastErr
  have hdecoded := hframe.bytesDecoded
  have hambig := hframe.ambigCount
  have hb0 := hframe.bit0Count
  rw [byteEmit_eq, byteCount_eq] at hscanned hlast hdecoded hambig hb0
  refine ⟨byteOut_frame h, sameEdgeLists_of_byteOut h, hlast, hdecoded, ?_, ?_, hscanned, ?_, fun b hb => ?_,
    fun b hb => ?_⟩
  · rw [ofNat_length_filter_singleton]
    exact hambig
  · rw [ofNat_length_filter_singleton]
    exact hb0
  · rw [byteEmit_byteCount_out, List.append_assoc] at hout
    refine ⟨_, hout, ?_⟩
    rw [List.filter_append, filter_isByteWord_frameEvents hev]
    split <;> simp [isByteWord_byteWord]
  · refine hframe.isrKept b ?_
    rw [byteEmit_byteCount_isr, byteCount_isr_getLsbD, hb, Bool.true_or, Bool.true_or]
  · rw [hframe.isrOther b hb, byteEmit_byteCount_isr, byteCount_isr_getLsbD]
    simp

theorem BytesOut.append {ds es : List DecodedByte} {s t u : State} (h : BytesOut ds s t) (g : BytesOut es t u) :
    BytesOut (ds ++ es) s u where
  frame := h.frame.trans g.frame
  edges := h.edges.trans g.edges
  lastErr := g.lastErr.trans h.lastErr
  bytesDecoded := by rw [g.bytesDecoded, h.bytesDecoded, List.length_append, BitVec.ofNat_add, BitVec.add_assoc]
  ambigCount := by
    rw [g.ambigCount, h.ambigCount, List.filter_append, List.length_append, BitVec.ofNat_add, BitVec.add_assoc]
  bit0Count := by
    rw [g.bit0Count, h.bit0Count, List.filter_append, List.length_append, BitVec.ofNat_add, BitVec.add_assoc]
  bytesScanned := by rw [g.bytesScanned, h.bytesScanned, List.length_append, BitVec.ofNat_add, BitVec.add_assoc]
  byteEvents := by
    obtain ⟨ev, hev, hfilter⟩ := h.byteEvents
    obtain ⟨fv, hfv, gfilter⟩ := g.byteEvents
    rw [h.frame.ctrl] at gfilter
    refine ⟨ev ++ fv, by rw [hfv, hev, List.append_assoc], ?_⟩
    rw [List.filter_append, hfilter, gfilter]
    split <;> simp
  isrKept b hb := g.isrKept b (h.isrKept b hb)
  isrBits b hb := by
    rw [g.isrBits b hb, h.isrBits b hb, List.any_append, List.any_append, Bool.and_or_distrib_left,
      Bool.and_or_distrib_left]
    ac_rfl

theorem byteOutAll_next {ds : List DecodedByte} {s t : State} (h : byteOutAll ds s = .next t) : BytesOut ds s t := by
  induction ds generalizing s with
  | nil =>
    cases h
    exact .nil _
  | cons d rest ih =>
    obtain ⟨s1, hbyte, hrest⟩ := andThen_eq_next.1 h
    exact (bytesOut_singleton hbyte).append (ih hrest)

/-! ### A whole DECODE (43_serial_decoder.md R165 to R167) -/

/-- DECODE that no check refuses answers, and is the bytes out from the cleared counters, then the completion. -/
theorem execDecode_completes {s : State} (h0 : s.ch0.state = .closed) (h1 : s.ch1.state = .closed)
    (hbt : s.bitTicks ≠ 0#32) :
    ∃ u, execDecode s = .next (decodeDone u) ∧
      BytesOut (decodedBytes s) (decoderCountersClear (asmClear s)) u := by
  obtain ⟨t, ht⟩ := execDecode_goes_on s
  have hsplit := ht
  rw [execDecode_eq_byteOutAll h0 h1 hbt] at hsplit
  obtain ⟨u, hbytes, hdone⟩ := andThen_eq_next.1 hsplit
  cases hdone
  exact ⟨u, ht, byteOutAll_next hbytes⟩

/-- The completion sets DECODE_DONE and no other bit (R167). -/
theorem decodeDone_isr_getLsbD (s : State) (b : Nat) :
    (decodeDone s).isr.getLsbD b = (s.isr.getLsbD b || decide (b = 8)) :=
  isrWith_getLsbD s.isr .decodeDone b

/-- Settles O33: `BytesOut` of the decoded bytes from the cleared counters, then DONE. -/
theorem decodeCompletes : Obligations.DecodeCompletes := by
  intro s h0 h1 hbt
  obtain ⟨u, hexec, hbytes⟩ := execDecode_completes h0 h1 hbt
  have hf := hbytes.frame
  obtain ⟨ev, hout, hev⟩ := hbytes.byteEvents
  have hbits (b : Nat) (hb : b < 5 ∨ 9 ≤ b) : (decodeDone u).isr.getLsbD b = (s.isr.getLsbD b ||
      (decide (b = 3) && (decodedBytes s).any (·.ambig)) || (decide (b = 4) && (decodedBytes s).any (·.b0))) := by
    rw [decodeDone_isr_getLsbD, hbytes.isrBits b (by omega), decide_eq_false (p := b = 8) (by omega), Bool.or_false]
    rfl
  refine ⟨decodeDone u, hexec, hbytes.edges.chan .a, hbytes.edges.chan .b, hf.ctrl, hf.bitTicks, hf.framing,
    hf.endMarker, hf.markers, hf.ier, hbytes.lastErr, hf.edgeDepth, hf.evtTaken, hf.inputs, hbytes.edges.freeCount,
    ?_, ?_, ?_, ?_, ⟨ev, ?_, hev⟩, fun b hb => ?_, ?_, ?_, ?_, fun b hb => ?_⟩
  · exact hbytes.bytesDecoded.trans (BitVec.zero_add _)
  · exact hbytes.ambigCount.trans (BitVec.zero_add _)
  · exact hbytes.bit0Count.trans (BitVec.zero_add _)
  · exact hbytes.bytesScanned.trans (BitVec.zero_add _)
  · exact congrArg (· ++ [eventWord (.done u.bytesDecoded)]) hout
  · rw [decodeDone_isr_getLsbD, hbytes.isrKept b hb, Bool.true_or]
  · rw [decodeDone_isr_getLsbD, decide_eq_true rfl, Bool.or_true]
  · rw [hbits 3 (by omega)]
    simp
  · rw [hbits 4 (by omega)]
    simp
  · rw [hbits b (by omega), decide_eq_false (p := b = 3) (by omega), decide_eq_false (p := b = 4) (by omega)]
    simp

end Sys2Proof.Machine

/-! The level quantizer's contract, and the refusals of SAMPLE and CLOSE. -/

namespace Sys2Proof.Machine

/-! ### The three bands of the quantizer (40_level_quantizer.md R111 to R113) -/

section
variable {V : Type} [LinearOrder V] (th : Thresholds V) {v : V}

theorem quantize_of_lt_low (h : v < th.low) : quantize th v = .low := if_pos h

theorem quantize_of_between (hlow : th.low ≤ v) (hhigh : v < th.high) : quantize th v = .mid := by
  rw [quantize, if_neg hlow.not_gt, if_pos hhigh]

/-- R112 is what leaves no voltage at or above HIGH_TH below LOW_TH. -/
theorem quantize_of_high_le (h : th.high ≤ v) : quantize th v = .high := by
  rw [quantize, if_neg (th.low_le_high.trans h).not_gt, if_neg h.not_gt]

/-- A higher voltage never has a lower code: from each band one can only stay or go up (R110, R113). -/
theorem quantize_code_mono {v1 v2 : V} (h : v1 ≤ v2) :
    (quantize th v1).code.toNat ≤ (quantize th v2).code.toNat := by
  rcases lt_or_ge v1 th.low with hlow | hlow
  · rw [quantize_of_lt_low th hlow]
    exact Nat.zero_le _
  rcases lt_or_ge v1 th.high with hhigh | hhigh
  · rw [quantize_of_between th hlow hhigh]
    rcases lt_or_ge v2 th.high with hhigh2 | hhigh2
    · rw [quantize_of_between th (hlow.trans h) hhigh2]
    · rw [quantize_of_high_le th hhigh2]
      decide
  · rw [quantize_of_high_le th hhigh, quantize_of_high_le th (hhigh.trans h)]

end

/-- Settles O60, by the bands of the quantizer; 0.3 is LOW_TH and 1.2 is HIGH_TH of the default thresholds. -/
theorem quantizerIsMonotonic : Obligations.QuantizerIsMonotonic := by
  refine ⟨fun th v => ⟨quantize_of_lt_low th, quantize_of_between th, quantize_of_high_le th⟩,
    fun th v1 v2 => quantize_code_mono th, rfl, rfl, ?_, ?_, quantize_of_high_le _ le_rfl⟩
  · exact quantize_of_between _ le_rfl (by norm_num [defaultThresholds])
  · exact quantize_of_between _ (by norm_num [defaultThresholds]) (by norm_num [defaultThresholds])

/-! ### Refusals of the edge detector (40_level_quantizer.md R114, 41_edge_detector.md R121, R126) -/

/-- A reserved level code is refused before the channel is looked at (R114, R225). -/
theorem execSample_reserved {lvl : BitVec 2} (h : levelOfCode lvl = none) (c : Channel) (t : Time) (s : State) :
    execSample c lvl t s = .next (raiseError .badLevel (encode (.sample c lvl t)) s) := by
  rw [execSample, h]

/-- A level's own code reaches the detector with that level (R110, R121). -/
theorem execSample_code (c : Channel) (l : Level) (t : Time) (s : State) :
    execSample c l.code t s = sampleLevel c l t (encode (.sample c l.code t)) s := by
  rw [execSample, levelOfCode_code]

theorem sampleLevel_of_finished {c : Channel} {s : State} (h : (s.chan c).state = .closed ∨ (s.chan c).state = .failed)
    (l : Level) (t : Time) (w : Word) : sampleLevel c l t w s = .next (raiseError .chNotOpen w s) := by
  rcases h with h | h <;> rw [sampleLevel, h]

theorem execClose_of_finished {c : Channel} {s : State}
    (h : (s.chan c).state = .closed ∨ (s.chan c).state = .failed) :
    execClose c s = .next (raiseError .chNotOpen (encode (.close c)) s) := by
  rcases h with h | h <;> rw [execClose, h]

theorem execClose_of_empty {c : Channel} {s : State} (h : (s.chan c).state = .empty) :
    execClose c s = .next (channelFail c .emptyChannel (encode (.close c)) s) := by
  rw [execClose, h]

/-- Settles O19: the level code first, then the channel's state. -/
theorem edgeDetectorRefusals : Obligations.EdgeDetectorRefusals :=
  ⟨fun s c t => execSample_reserved (levelOfCode_eq_none.2 rfl) c t s,
    fun s c l t h => (execSample_code c l t s).trans (sampleLevel_of_finished h l t _),
    fun _ _ h => execClose_of_finished h,
    fun _ _ h => execClose_of_empty h⟩

end Sys2Proof.Machine

/-! The edge detector, command by command: what an accepted SAMPLE or CLOSE does to the channel's record, and how a
channel fails (41_edge_detector.md sections 2 and 3). -/

namespace Sys2Proof.Machine

/-! ### What SAMPLE does to the record (41_edge_detector.md R121 to R125) -/

theorem exec_sample_of_empty {s : State} {c : Channel} (hst : (s.chan c).state = .empty)
    (hfit : (s.chan c).count.toNat < s.edgeDepth.toNat) (e : Edge) :
    exec (.sample c e.level.code e.time) s = .next (s.setChan c (((s.chan c).push e).note e true)) := by
  obtain ⟨s', hs'⟩ := sampleFirst_goes_on hfit e.time e.level
  obtain ⟨-, rfl⟩ := sampleFirst_next hs'
  refine (execSample_code c e.level e.time s).trans ?_
  rwa [sampleLevel, hst]

theorem exec_sample_of_open {s : State} {c : Channel} (hst : (s.chan c).state = .open_) (l : Level) (t : Time) :
    exec (.sample c l.code t) s = sampleOpen c l t (encode (.sample c l.code t)) s := by
  refine (execSample_code c l t s).trans ?_
  rw [sampleLevel, hst]

theorem exec_sample_same_level {s : State} {c : Channel} {e : Edge} (hst : (s.chan c).state = .open_)
    (htime : (s.chan c).lastTime.toNat < e.time.toNat) (hlevel : e.level = (s.chan c).lastLevel) :
    exec (.sample c e.level.code e.time) s = .next (s.setChan c ((s.chan c).note e false)) := by
  rw [exec_sample_of_open hst, sampleOpen, if_neg (not_le.2 htime), if_pos hlevel, noteSample_eq_setChan]

theorem exec_sample_new_level {s : State} {c : Channel} (hst : (s.chan c).state = .open_) {t : Time} {l : Level}
    (htime : (s.chan c).lastTime.toNat < t.toNat) (hlevel : l ≠ (s.chan c).lastLevel) :
    exec (.sample c l.code t) s = sampleTransition c l t (encode (.sample c l.code t)) s := by
  rw [exec_sample_of_open hst, sampleOpen, if_neg (not_le.2 htime), if_neg hlevel]

theorem exec_sample_transition {s : State} {c : Channel} {e : Edge} (hst : (s.chan c).state = .open_)
    (htime : (s.chan c).lastTime.toNat < e.time.toNat) (hlevel : e.level ≠ (s.chan c).lastLevel)
    (hfit : (s.chan c).count.toNat + transitionNeed (s.chan c) ≤ s.edgeDepth.toNat) :
    exec (.sample c e.level.code e.time) s =
      .next (s.setChan c (((s.chan c).pushLast.push e).note e true)) := by
  rw [exec_sample_new_level hst htime hlevel]
  obtain ⟨s', hs'⟩ := sampleTransition_goes_on c e.level e.time (encode (.sample c e.level.code e.time)) s
  rw [hs']
  obtain ⟨hover, -⟩ | ⟨-, s1, s2, hlast, happ, rfl⟩ := sampleTransition_eq_next.1 hs'
  · exact absurd hfit (not_le.2 hover)
  · rw [(sampleTransition_fits hlast happ).2.2]

theorem exec_sample_outOfOrder {s : State} {c : Channel} (hst : (s.chan c).state = .open_) (l : Level) {t : Time}
    (htime : t.toNat ≤ (s.chan c).lastTime.toNat) :
    exec (.sample c l.code t) s = .next (channelFail c .outOfOrder (encode (.sample c l.code t)) s) := by
  rw [exec_sample_of_open hst, sampleOpen, if_pos htime]

theorem exec_sample_overflow {s : State} {c : Channel} (hst : (s.chan c).state = .open_) {t : Time} {l : Level}
    (htime : (s.chan c).lastTime.toNat < t.toNat) (hlevel : l ≠ (s.chan c).lastLevel)
    (hover : s.edgeDepth.toNat < (s.chan c).count.toNat + transitionNeed (s.chan c)) :
    exec (.sample c l.code t) s = .next (channelFail c .edgeOverflow (encode (.sample c l.code t)) s) := by
  rw [exec_sample_new_level hst htime hlevel, sampleTransition, if_pos hover]

/-! ### What CLOSE does to the record (41_edge_detector.md R126) -/

theorem exec_close_of_open {s : State} {c : Channel} (hst : (s.chan c).state = .open_) :
    exec (.close c) s = closeOpen c (encode (.close c)) s := by
  change execClose c s = _
  rw [execClose, hst]

theorem exec_close_finishes {s : State} {c : Channel} (hst : (s.chan c).state = .open_)
    (hroom : (s.chan c).prevRec = false → (s.chan c).count.toNat < s.edgeDepth.toNat) :
    exec (.close c) s =
      .next (s.setChan c { (s.chan c).pushLast with prevRec := true, state := .closed }) := by
  obtain ⟨s1, hlast⟩ := recordLast_goes_on hroom
  obtain ⟨-, rfl⟩ := recordLast_eq_setChan hlast
  rw [exec_close_of_open hst, closeOpen_eq_next]
  refine .inr ⟨fun hover => ?_, _, hlast, by rw [setChan_chan_self, setChan_setChan]⟩
  exact absurd (hroom hover.1) (not_lt.2 (Nat.le_of_lt_succ hover.2))

theorem exec_close_overflow {s : State} {c : Channel} (hst : (s.chan c).state = .open_)
    (hrec : (s.chan c).prevRec = false) (hover : s.edgeDepth.toNat < (s.chan c).count.toNat + 1) :
    exec (.close c) s = .next (channelFail c .edgeOverflow (encode (.close c)) s) := by
  rw [exec_close_of_open hst, closeOpen, if_pos ⟨hrec, hover⟩]

/-! ### One command at a time -/

theorem cellsRead_push (r : Chan) (e : Edge) (k : Nat) :
    cellsRead (r.push e).edges k = if k = r.count.toNat then some e else cellsRead r.edges k :=
  cellsRead_cellsWrite r.edges r.count.toNat k e

theorem pushLast_of_recorded {r : Chan} (h : r.prevRec = true) : r.pushLast = r := if_pos h

theorem pushLast_of_unrecorded {r : Chan} (h : r.prevRec = false) : r.pushLast = r.push ⟨r.lastTime, r.lastLevel⟩ :=
  if_neg (by simp [h])

/-- Settles O13. -/
theorem firstSampleIsRecorded : Obligations.FirstSampleIsRecorded := by
  intro s c l t hst hcount hdepth
  have hzero : (s.chan c).count.toNat = 0 := by rw [hcount, BitVec.toNat_zero]
  refine ⟨((s.chan c).push ⟨t, l⟩).edges, ?_, ?_, fun k hk => ?_⟩
  · rw [exec_sample_of_empty hst (by omega) ⟨t, l⟩]
    simp [Chan.push, Chan.note, hcount]
  · rw [cellsRead_push, if_pos hzero.symm]
  · rw [cellsRead_push, if_neg (hzero ▸ hk)]

/-- Settles O14. -/
theorem sameLevelSampleIsNotRecorded : Obligations.SameLevelSampleIsNotRecorded :=
  fun _ _ l t hst htime hlevel => exec_sample_same_level (e := ⟨t, l⟩) hst htime hlevel

/-- Settles O16. -/
theorem outOfOrderSampleFailsTheChannel : Obligations.OutOfOrderSampleFailsTheChannel :=
  fun s c l _ hst htime => ⟨_, exec_sample_outOfOrder hst l htime, rfl, channelFail_chan_self c _ _ s⟩

/-- Settles O17. -/
theorem overflowFailsTheChannel : Obligations.OverflowFailsTheChannel :=
  ⟨fun s c _ _ hst htime hlevel hover =>
      ⟨_, exec_sample_overflow hst htime hlevel hover, rfl, channelFail_chan_self c _ _ s⟩,
    fun s c hst hrec hover => ⟨_, exec_close_overflow hst hrec hover, rfl, channelFail_chan_self c _ _ s⟩⟩

/-- Settles O15: the record is the one before with its last sample recorded and the new sample pushed. -/
theorem transitionSampleIsRecorded : Obligations.TransitionSampleIsRecorded := by
  intro s c l t hst htime hlevel hfit
  have hexec := exec_sample_transition (e := ⟨t, l⟩) hst htime hlevel hfit
  refine ⟨((s.chan c).pushLast.push ⟨t, l⟩).edges, hexec.trans ?_, fun hrec => ?_, fun hrec => ?_⟩
  · cases hrec : (s.chan c).prevRec with
    | true => simp [pushLast_of_recorded hrec, Chan.push, Chan.note]
    | false => simp [pushLast_of_unrecorded hrec, Chan.push, Chan.note, BitVec.add_assoc]
  · rw [pushLast_of_recorded hrec]
    exact ⟨by rw [cellsRead_push, if_pos rfl], fun k hk => by rw [cellsRead_push, if_neg hk]⟩
  · rw [hrec, if_neg Bool.false_ne_true] at hfit
    have hcount := count_push (r := s.chan c) (depth := s.edgeDepth) (by omega)
      ⟨(s.chan c).lastTime, (s.chan c).lastLevel⟩
    rw [pushLast_of_unrecorded hrec]
    simp only [cellsRead_push, hcount]
    exact ⟨by simp, by simp, fun k hk hk1 => by rw [if_neg hk1, if_neg hk]⟩

/-- Settles O18. -/
theorem closeFinishesTheEdgeList : Obligations.CloseFinishesTheEdgeList := by
  intro s c hst
  refine ⟨fun hrec => ?_, fun hrec hfit => ⟨((s.chan c).push ⟨(s.chan c).lastTime, (s.chan c).lastLevel⟩).edges,
    ?_, ?_, fun k hk => ?_⟩⟩
  · rw [exec_close_finishes hst (by simp [hrec]), pushLast_of_recorded hrec, ← hrec]
  · rw [exec_close_finishes hst fun _ => hfit, pushLast_of_unrecorded hrec]
    rfl
  · rw [cellsRead_push, if_pos rfl]
  · rw [cellsRead_push, if_neg hk]

end Sys2Proof.Machine

/-! The closed form of an edge list: the runs of the samples, what the closed form keeps of them, and what the machine
records of a whole run of samples (41_edge_detector.md section 4). -/

namespace Sys2Proof.Machine

/-! ### The maximal runs (41_edge_detector.md R127) -/

theorem runsOf_cons_exists (x : Edge) (l : List Edge) : ∃ run rest, runsOf (x :: l) = (x :: run) :: rest := by
  rw [runsOf]
  split
  · split
    · exact ⟨_, _, rfl⟩
    · exact ⟨_, _, rfl⟩
  · exact ⟨_, _, rfl⟩

theorem runsOf_cons_of_eq {x y : Edge} {l run : List Edge} {rest : List (List Edge)} (h : x.level = y.level)
    (hruns : runsOf (y :: l) = (y :: run) :: rest) : runsOf (x :: y :: l) = (x :: y :: run) :: rest := by
  rw [runsOf, hruns]
  exact if_pos h

theorem runsOf_cons_of_ne {x y : Edge} (h : x.level ≠ y.level) (l : List Edge) :
    runsOf (x :: y :: l) = [x] :: runsOf (y :: l) := by
  obtain ⟨run, rest, hruns⟩ := runsOf_cons_exists y l
  rw [runsOf, hruns]
  exact if_neg h

/-- The runs are the samples cut into nonempty pieces. -/
theorem runsOf_flatten_and_ne_nil (l : List Edge) : (runsOf l).flatten = l ∧ ∀ run ∈ runsOf l, run ≠ [] := by
  induction l with
  | nil => simp [runsOf]
  | cons x l ih =>
    cases l with
    | nil => simp [runsOf]
    | cons y l =>
      obtain ⟨run, rest, hruns⟩ := runsOf_cons_exists y l
      obtain ⟨hflat, hne⟩ := ih
      by_cases h : x.level = y.level
      · rw [hruns] at hflat hne
        rw [runsOf_cons_of_eq h hruns]
        exact ⟨by simpa using hflat, by simpa using hne⟩
      · rw [runsOf_cons_of_ne h]
        exact ⟨by simpa using hflat, by simpa using hne⟩

/-! ### The closed form, entry by entry -/

@[simp] theorem edgeListOf_nil : edgeListOf [] = [] := rfl

@[simp] theorem edgeListOf_singleton (x : Edge) : edgeListOf [x] = [x] := rfl

/-- The middle one of three consecutive samples of one level leaves no trace. -/
theorem edgeListOf_skip {x y z : Edge} (hxy : x.level = y.level) (hyz : y.level = z.level) (l : List Edge) :
    edgeListOf (x :: y :: z :: l) = edgeListOf (x :: z :: l) := by
  obtain ⟨run, rest, hruns⟩ := runsOf_cons_exists z l
  rw [edgeListOf, edgeListOf, runsOf_cons_of_eq hxy (runsOf_cons_of_eq hyz hruns),
    runsOf_cons_of_eq (hxy.trans hyz) hruns]
  simp [runEnds]

theorem edgeListOf_cons_of_ne {x y : Edge} (h : x.level ≠ y.level) (l : List Edge) :
    edgeListOf (x :: y :: l) = x :: edgeListOf (y :: l) := by
  rw [edgeListOf, runsOf_cons_of_ne h]
  rfl

@[simp] theorem edgeListOf_pair (x y : Edge) : edgeListOf [x, y] = [x, y] := by
  by_cases h : x.level = y.level
  · rw [edgeListOf, runsOf_cons_of_eq h rfl]
    rfl
  · rw [edgeListOf_cons_of_ne h, edgeListOf_singleton]

/-- A sample that does not start three of one level is an entry. -/
theorem edgeListOf_keep {x y z : Edge} (h : ¬ (x.level = y.level ∧ y.level = z.level)) (l : List Edge) :
    edgeListOf (x :: y :: z :: l) = x :: edgeListOf (y :: z :: l) := by
  by_cases hxy : x.level = y.level
  · have hyz : y.level ≠ z.level := fun hyz => h ⟨hxy, hyz⟩
    rw [edgeListOf, runsOf_cons_of_eq hxy (runsOf_cons_of_ne hyz l), edgeListOf_cons_of_ne hyz]
    rfl
  · exact edgeListOf_cons_of_ne hxy _

/-- A sample before two others is an entry, or the one after it is the middle of three of one level. -/
theorem edgeListOf_cons_cons (x y : Edge) (l : List Edge) :
    edgeListOf (x :: y :: l) = x :: edgeListOf (y :: l) ∨
      x.level = y.level ∧ edgeListOf (x :: y :: l) = edgeListOf (x :: l) := by
  cases l with
  | nil => exact .inl (by simp)
  | cons z l =>
    by_cases h : x.level = y.level ∧ y.level = z.level
    · exact .inr ⟨h.1, edgeListOf_skip h.1 h.2 l⟩
    · exact .inl (edgeListOf_keep h l)

theorem noThreeEqual_tail {x : Edge} {l : List Edge} (h : noThreeEqual (x :: l)) : noThreeEqual l :=
  fun k => h (k + 1)

/-- Where no three consecutive samples share a level, all are entries. -/
theorem edgeListOf_of_noThreeEqual {l : List Edge} (h : noThreeEqual l) : edgeListOf l = l := by
  induction l with
  | nil => rfl
  | cons x l ih =>
    match l with
    | [] => rfl
    | [y] => exact edgeListOf_pair x y
    | y :: z :: l => rw [edgeListOf_keep (h 0 x y z rfl rfl rfl), ih (noThreeEqual_tail h)]

/-! ### How many entries (41_edge_detector.md R128) -/

/-- A run gives one or two entries, and no more than it has samples. -/
theorem length_runEnds_bounds {run : List Edge} (h : run ≠ []) :
    1 ≤ (runEnds run).length ∧ (runEnds run).length ≤ 2 ∧ (runEnds run).length ≤ run.length := by
  match run with
  | [x] => simp [runEnds]
  | x :: y :: rest => simp [runEnds]

theorem length_runEnds_of_two_le {run : List Edge} (h : 2 ≤ run.length) : (runEnds run).length = 2 := by
  match run with
  | _ :: _ :: _ => rfl

/-- The entries of nonempty runs, summed up. -/
theorem length_flatMap_runEnds_bounds {runs : List (List Edge)} (h : ∀ run ∈ runs, run ≠ []) :
    runs.length ≤ (runs.flatMap runEnds).length ∧ (runs.flatMap runEnds).length ≤ 2 * runs.length ∧
      (runs.flatMap runEnds).length ≤ runs.flatten.length := by
  induction runs with
  | nil => simp
  | cons run runs ih =>
    obtain ⟨hrun, hruns⟩ := List.forall_mem_cons.1 h
    have hends := length_runEnds_bounds hrun
    have hrest := ih hruns
    simp only [List.flatMap_cons, List.flatten_cons, List.length_append, List.length_cons]
    omega

theorem length_edgeListOf_bounds (samples : List Edge) :
    (runsOf samples).length ≤ (edgeListOf samples).length ∧
      (edgeListOf samples).length ≤ 2 * (runsOf samples).length ∧ (edgeListOf samples).length ≤ samples.length := by
  obtain ⟨hflat, hne⟩ := runsOf_flatten_and_ne_nil samples
  have hbounds := length_flatMap_runEnds_bounds hne
  rwa [hflat] at hbounds

/-- Of samples in one run, the first and the last are the entries. -/
theorem edgeListOf_of_one_run {samples : List Edge} (h : (runsOf samples).length = 1) :
    edgeListOf samples = runEnds samples := by
  obtain ⟨run, hrun⟩ := List.length_eq_one_iff.1 h
  have hflat := (runsOf_flatten_and_ne_nil samples).1
  rw [hrun, List.flatten_singleton] at hflat
  rw [edgeListOf, hrun, List.flatMap_singleton, hflat]

theorem length_edgeListOf_pos (x : Edge) (l : List Edge) : 1 ≤ (edgeListOf (x :: l)).length := by
  obtain ⟨run, rest, hruns⟩ := runsOf_cons_exists x l
  have hbounds := (length_edgeListOf_bounds (x :: l)).1
  rw [hruns, List.length_cons] at hbounds
  omega

/-! ### The machine records the closed form (41_edge_detector.md R127) -/

/-- The last sample, where it is not an entry yet. -/
def Chan.unrecorded (r : Chan) : List Edge := if r.prevRec then [] else [⟨r.lastTime, r.lastLevel⟩]

theorem unrecorded_of_recorded {r : Chan} (h : r.prevRec = true) : r.unrecorded = [] := if_pos h

theorem unrecorded_of_unrecorded {r : Chan} (h : r.prevRec = false) : r.unrecorded = [⟨r.lastTime, r.lastLevel⟩] :=
  if_neg (by simp [h])

theorem transitionNeed_eq (r : Chan) : transitionNeed r = r.unrecorded.length + 1 := by
  cases h : r.prevRec <;> simp [transitionNeed, Chan.unrecorded, h]

theorem entries_pushLast {depth : CsrWord} {r : Chan} (h : EntriesInv depth r) :
    entries r.pushLast = entries r ++ r.unrecorded := by
  cases hrec : r.prevRec with
  | true => rw [pushLast_of_recorded hrec, unrecorded_of_recorded hrec, List.append_nil]
  | false => rw [pushLast_of_unrecorded hrec, unrecorded_of_unrecorded hrec, entries_push h]

theorem entries_note (r : Chan) (e : Edge) (recorded : Bool) : entries (r.note e recorded) = entries r := rfl

/-- A sample of the last sample's level takes its place: the entry of the run, then what is not recorded yet. -/
theorem edgeListOf_unrecorded_same {r : Chan} {x y : Edge} (hx : x.level = r.lastLevel) (hy : y.level = r.lastLevel)
    (l : List Edge) : edgeListOf (x :: r.unrecorded ++ y :: l) = edgeListOf (x :: y :: l) := by
  cases hrec : r.prevRec with
  | true => rw [unrecorded_of_recorded hrec]; rfl
  | false => rw [unrecorded_of_unrecorded hrec]; exact edgeListOf_skip hx hy.symm l

/-- A sample of another level makes the last sample an entry and opens a run. -/
theorem edgeListOf_unrecorded_ne {r : Chan} {x y : Edge} (hx : x.level = r.lastLevel) (hy : y.level ≠ r.lastLevel)
    (l : List Edge) : edgeListOf (x :: r.unrecorded ++ y :: l) = x :: r.unrecorded ++ edgeListOf (y :: l) := by
  cases hrec : r.prevRec with
  | true =>
    rw [unrecorded_of_recorded hrec]
    exact edgeListOf_cons_of_ne (hx.trans_ne hy.symm) l
  | false =>
    rw [unrecorded_of_unrecorded hrec]
    calc edgeListOf (x :: ⟨r.lastTime, r.lastLevel⟩ :: y :: l)
        = x :: edgeListOf (⟨r.lastTime, r.lastLevel⟩ :: y :: l) := edgeListOf_keep (fun h => hy h.2.symm) l
      _ = x :: ⟨r.lastTime, r.lastLevel⟩ :: edgeListOf (y :: l) := by rw [edgeListOf_cons_of_ne hy.symm]

/-- At CLOSE the unrecorded last sample becomes an entry. -/
theorem edgeListOf_unrecorded_nil (r : Chan) (x : Edge) :
    edgeListOf (x :: r.unrecorded) = x :: r.unrecorded := by
  cases hrec : r.prevRec with
  | true => rw [unrecorded_of_recorded hrec, edgeListOf_singleton]
  | false => rw [unrecorded_of_unrecorded hrec, edgeListOf_pair]

/-- What a finished run of samples leaves: the channel alone is set, to a good CLOSED record with the given entries. -/
def LeavesEntries (c : Channel) (s : State) (res : Result) (es : List Edge) : Prop :=
  ∃ r, res = .next (s.setChan c r) ∧ r.state = .closed ∧ ChanInv s.edgeDepth.toNat r ∧ entries r = es

theorem execAll_sampleAndClose_cons {s : State} {c : Channel} {e : Edge} {q : Chan}
    (h : exec (.sample c e.level.code e.time) s = .next (s.setChan c q)) (l : List Edge) :
    execAll (sampleAndClose c (e :: l)) s = execAll (sampleAndClose c l) (s.setChan c q) := by
  change andThen (exec (.sample c e.level.code e.time) s) _ = _
  rw [h]
  rfl

/-- A sample that sets the record, and then what the rest leaves. -/
theorem LeavesEntries.cons {s : State} {c : Channel} {e : Edge} {q : Chan} {l es : List Edge}
    (h : exec (.sample c e.level.code e.time) s = .next (s.setChan c q))
    (hrest : LeavesEntries c (s.setChan c q) (execAll (sampleAndClose c l) (s.setChan c q)) es) :
    LeavesEntries c s (execAll (sampleAndClose c (e :: l)) s) es := by
  obtain ⟨r, hexec, hst, hinv, hentries⟩ := hrest
  rw [setChan_setChan] at hexec
  rw [setChan_edgeDepth] at hinv
  exact ⟨r, (execAll_sampleAndClose_cons h l).trans hexec, hst, hinv, hentries⟩

/-- CLOSE of a good OPEN channel leaves its entries with its last sample recorded. -/
theorem LeavesEntries.close {s : State} {c : Channel} (hst : (s.chan c).state = .open_)
    (hinv : ChanInv s.edgeDepth.toNat (s.chan c))
    (hfit : (entries (s.chan c) ++ (s.chan c).unrecorded).length ≤ s.edgeDepth.toNat) :
    LeavesEntries c s (execAll (sampleAndClose c []) s) (entries (s.chan c) ++ (s.chan c).unrecorded) := by
  have hentries := (chanInv_iff.1 hinv).1
  have hroom : (s.chan c).prevRec = false → (s.chan c).count.toNat < s.edgeDepth.toNat := by
    intro hrec
    rw [List.length_append, hentries.length_entries, unrecorded_of_unrecorded hrec] at hfit
    exact hfit
  refine ⟨{ (s.chan c).pushLast with prevRec := true, state := .closed }, ?_, rfl,
    (ChanStep.closes (c := c) hst hroom).keeps_inv hinv, entries_pushLast hentries⟩
  change andThen (exec (.close c) s) _ = _
  rw [exec_close_finishes hst hroom]
  rfl

/-- A good OPEN channel with later samples to come, whose finished EdgeList is to be `final`: the entries before the last
one, then the closed form of the last entry, the unrecorded last sample and the samples to come. -/
structure OpenRun (depth : CsrWord) (r : Chan) (l final : List Edge) : Prop where
  state : r.state = .open_
  inv : ChanInv depth.toNat r
  rise : timesRise (⟨r.lastTime, r.lastLevel⟩ :: l)
  final_eq : ∃ es x, entries r = es ++ [x] ∧ x.level = r.lastLevel ∧
    final = es ++ edgeListOf (x :: r.unrecorded ++ l)

section
variable {depth : CsrWord} {r : Chan} {y : Edge} {l final : List Edge}

theorem OpenRun.entriesInv (h : OpenRun depth r l final) : EntriesInv depth r := (chanInv_iff.1 h.inv).1

theorem OpenRun.openAgrees (h : OpenRun depth r l final) : openAgrees r := (chanInv_iff.1 h.inv).2.2.1 h.state

theorem OpenRun.later (h : OpenRun depth r (y :: l) final) : r.lastTime.toNat < y.time.toNat :=
  List.rel_of_pairwise_cons h.rise List.mem_cons_self

theorem OpenRun.final_of_nil (h : OpenRun depth r [] final) : final = entries r ++ r.unrecorded := by
  obtain ⟨es, x, hentries, -, rfl⟩ := h.final_eq
  rw [List.append_nil, edgeListOf_unrecorded_nil, hentries, List.append_assoc, List.singleton_append]

/-- A sample of another level: what it records stands in the finished list, so a list that fits has room for it. -/
theorem OpenRun.final_of_ne (h : OpenRun depth r (y :: l) final) (hlevel : y.level ≠ r.lastLevel) :
    final = entries r ++ r.unrecorded ++ edgeListOf (y :: l) := by
  obtain ⟨es, x, hentries, hx, rfl⟩ := h.final_eq
  rw [edgeListOf_unrecorded_ne hx hlevel, hentries]
  simp

theorem OpenRun.room_of_ne (h : OpenRun depth r (y :: l) final) (hlevel : y.level ≠ r.lastLevel)
    (hfit : final.length ≤ depth.toNat) : r.count.toNat + transitionNeed r ≤ depth.toNat := by
  have hpos := length_edgeListOf_pos y l
  rw [h.final_of_ne hlevel, List.length_append, List.length_append, h.entriesInv.length_entries] at hfit
  rw [transitionNeed_eq]
  omega

/-- The first sample opens the run of all the samples. -/
theorem OpenRun.first (c : Channel) (hinv : ChanInv depth.toNat r) (hst : r.state = .empty) (hedges : entries r = [])
    (hfit : r.count.toNat < depth.toNat) (hrise : timesRise (y :: l)) :
    OpenRun depth ((r.push y).note y true) l (edgeListOf (y :: l)) where
  state := rfl
  inv := (ChanStep.first (c := c) hst hfit).keeps_inv hinv
  rise := hrise
  final_eq := by
    refine ⟨[], y, ?_, rfl, rfl⟩
    rw [entries_note, entries_push (chanInv_iff.1 hinv).1, hedges]

theorem OpenRun.note (c : Channel) (h : OpenRun depth r (y :: l) final) (hlevel : y.level = r.lastLevel) :
    OpenRun depth (r.note y false) l final where
  state := rfl
  inv := (ChanStep.sameLevel (c := c) h.state h.later hlevel).keeps_inv h.inv
  rise := (List.pairwise_cons.1 h.rise).2
  final_eq := by
    obtain ⟨es, x, hentries, hx, rfl⟩ := h.final_eq
    exact ⟨es, x, hentries, hx.trans hlevel.symm, by rw [edgeListOf_unrecorded_same hx hlevel]; rfl⟩

theorem OpenRun.transition (c : Channel) (h : OpenRun depth r (y :: l) final) (hlevel : y.level ≠ r.lastLevel)
    (hfit : final.length ≤ depth.toNat) : OpenRun depth ((r.pushLast.push y).note y true) l final := by
  have hneed := h.room_of_ne hlevel hfit
  have hroom : r.prevRec = false → r.count.toNat < depth.toNat := fun _ => by
    rw [transitionNeed_eq] at hneed
    omega
  have hfits : r.pushLast.count.toNat < depth.toNat := by
    have hcount := count_pushLast hroom
    omega
  refine ⟨rfl, (ChanStep.transition (c := c) h.state h.later hlevel hroom hfits).keeps_inv h.inv,
    (List.pairwise_cons.1 h.rise).2, entries r ++ r.unrecorded, y, ?_, rfl, h.final_of_ne hlevel⟩
  rw [entries_note, entries_push (h.entriesInv.pushLast h.openAgrees hroom).1, entries_pushLast h.entriesInv]

end

/-- The machine carries a run to its end: each sample takes it one sample on, CLOSE finishes it. -/
theorem OpenRun.leavesEntries {c : Channel} {l final : List Edge} {s : State} (h : OpenRun s.edgeDepth (s.chan c) l final)
    (hfit : final.length ≤ s.edgeDepth.toNat) :
    LeavesEntries c s (execAll (sampleAndClose c l) s) final := by
  induction l generalizing s with
  | nil =>
    rw [h.final_of_nil] at hfit ⊢
    exact .close h.state h.inv hfit
  | cons y l ih =>
    by_cases hlevel : y.level = (s.chan c).lastLevel
    · refine .cons (exec_sample_same_level h.state h.later hlevel) (ih ?_ (by rwa [setChan_edgeDepth]))
      rw [setChan_edgeDepth, setChan_chan_self]
      exact h.note c hlevel
    · have hneed := h.room_of_ne hlevel hfit
      refine .cons (exec_sample_transition h.state h.later hlevel hneed) (ih ?_ (by rwa [setChan_edgeDepth]))
      rw [setChan_edgeDepth, setChan_chan_self]
      exact h.transition c hlevel hfit

/-- Samples pushed on a fresh channel and closed leave their closed form. -/
theorem execAll_sampleAndClose_of_fresh {s : State} {c : Channel} {samples : List Edge}
    (hst : (s.chan c).state = .empty) (hcount : (s.chan c).count = 0#32) (hedges : (s.chan c).edges = [])
    (hne : samples ≠ []) (hrise : timesRise samples) (hfit : (edgeListOf samples).length ≤ s.edgeDepth.toNat) :
    LeavesEntries c s (execAll (sampleAndClose c samples) s) (edgeListOf samples) := by
  obtain ⟨y, l, rfl⟩ := List.exists_cons_of_ne_nil hne
  have hinv : ChanInv s.edgeDepth.toNat (s.chan c) := chanInv_of_empty hst hcount hedges
  have hroom : (s.chan c).count.toNat < s.edgeDepth.toNat := by
    rw [hcount, BitVec.toNat_zero]
    exact lt_of_lt_of_le (length_edgeListOf_pos y l) hfit
  refine .cons (exec_sample_of_empty hst hroom y) (OpenRun.leavesEntries ?_ (by rwa [setChan_edgeDepth]))
  rw [setChan_edgeDepth, setChan_chan_self]
  exact .first c hinv hst (by rw [entries, hedges, List.map_nil]) hroom hrise

/-- Settles O20: the record that the run leaves is good, so its edge memory lists its entries in order. -/
theorem edgeListIsItsClosedForm : Obligations.EdgeListIsItsClosedForm := by
  intro s c samples hst hcount hedges hne hrise hfit
  obtain ⟨r, hexec, hclosed, hinv, hentries⟩ := execAll_sampleAndClose_of_fresh hst hcount hedges hne hrise hfit
  have hgood := (chanInv_iff.1 hinv).1
  exact ⟨r, hexec, hclosed, hentries, by rw [← hentries, hgood.length_entries], hgood.keys⟩

/-- Settles O21: the entries are those of the runs, one or two of each. -/
theorem edgeListCounts : Obligations.EdgeListCounts := by
  intro s s' c samples hst hcount hedges hne hrise hfit hrun
  obtain ⟨r, hexec, -, -, hlen, -⟩ := edgeListIsItsClosedForm s c samples hst hcount hedges hne hrise hfit
  obtain rfl := Host.Outcome.next.inj (hexec.symm.trans hrun)
  obtain ⟨hlow, htwo, hall⟩ := length_edgeListOf_bounds samples
  simp only [setChan_chan_self, hlen]
  obtain ⟨y, l, rfl⟩ := List.exists_cons_of_ne_nil hne
  have hpos := length_edgeListOf_pos y l
  refine ⟨hlow, le_min htwo hall, fun hone hn => ?_, fun hone hn => ?_, ?_⟩
  · omega
  · rw [edgeListOf_of_one_run hone]
    exact length_runEnds_of_two_le hn
  · omega

/-- Settles O22: the entries of a good channel have no three equal levels in a row, so each of them is an entry again
(R129, R131). -/
theorem edgeDetectionIsIdempotent : Obligations.EdgeDetectionIsIdempotent := by
  intro s c r depth hclosed hgood hst hcount hedges hfit
  obtain ⟨-, hkeys, hrise, hnoThree, -, -, hpos⟩ := hgood
  have hsame := edgeListOf_of_noThreeEqual hnoThree
  have hne : entries r ≠ [] := by
    have hlen := congrArg List.length hkeys
    rw [List.length_map, List.length_range] at hlen
    have := hpos hclosed
    rw [entries, Ne, List.map_eq_nil_iff, ← List.length_eq_zero_iff]
    omega
  have hleaves := execAll_sampleAndClose_of_fresh hst hcount hedges hne hrise (by rwa [hsame])
  rw [hsame] at hleaves
  obtain ⟨q, hexec, hq, -, hentries⟩ := hleaves
  exact ⟨q, hexec, hq, hentries⟩

/-! ### The lookup gives the samples back (41_edge_detector.md R130) -/

/-- The lookup over a list finds its last element that satisfies the test. -/
theorem rightmostLevel_eq_filter (entry : Nat → Edge) (p : Edge → Bool) (l : List Edge)
    (h : ∀ k e, l[k]? = some e → entry k = e) :
    rightmostLevel entry p l.length = (((l.filter p).getLast?).map Edge.level).getD .high := by
  induction l using List.reverseRecOn with
  | nil => rfl
  | append_singleton l e ih =>
    have hlast : entry l.length = e := h _ _ (by simp)
    have hinit := ih fun k x hk => h k x (by
      rw [List.getElem?_append_left (List.getElem?_eq_some_iff.1 hk).1, hk])
    rw [List.length_append, List.length_singleton, rightmostLevel_succ, hlast, hinit, List.filter_append]
    by_cases hp : p e = true <;> simp [hp]

theorem edgeAt_of_read {s : State} {c : Channel} {k : Nat} {e : Edge} (h : cellsRead (s.chan c).edges k = some e) :
    edgeAt s c k = e := by
  rw [edgeAt, h]

/-- The lookup on a channel whose edge memory lists exactly the entries below count. -/
theorem levelAt_eq {s : State} {c : Channel}
    (hkeys : (s.chan c).edges.map Prod.fst = List.range (s.chan c).count.toNat) (t : Time) :
    levelAt s c t = (levelOfSamples (entries (s.chan c)) t).getD .high := by
  have hlen : (s.chan c).count.toNat = (entries (s.chan c)).length := by
    simpa [entries] using (congrArg List.length hkeys).symm
  rw [levelAt, hlen, levelOfSamples]
  refine rightmostLevel_eq_filter _ _ _ fun k e hk => ?_
  exact edgeAt_of_read ((cellsRead_of_range _ _ k hkeys).trans hk)

theorem levelOfSamples_cons (x : Edge) (l : List Edge) (t : Time) :
    levelOfSamples (x :: l) t =
      (levelOfSamples l t).or (if x.time.toNat ≤ t.toNat then some x.level else none) := by
  by_cases hx : x.time.toNat ≤ t.toNat
  · cases hl : (l.filter fun e => decide (e.time.toNat ≤ t.toNat)).getLast? <;>
      simp [levelOfSamples, hx, hl, List.getLast?_cons]
  · simp [levelOfSamples, hx]

/-- A sample after an earlier one of its level does not change what the two say. -/
theorem levelOfSamples_skip {x y : Edge} (hlevel : x.level = y.level) (htime : x.time.toNat < y.time.toNat)
    (l : List Edge) (t : Time) : levelOfSamples (x :: y :: l) t = levelOfSamples (x :: l) t := by
  simp only [levelOfSamples_cons, Option.or_assoc]
  congr 1
  by_cases hy : y.time.toNat ≤ t.toNat
  · simp [hy, (htime.trans_le hy).le, hlevel]
  · simp [hy]

/-- The closed form says of every time what the samples say. -/
theorem levelOfSamples_edgeListOf {samples : List Edge} (hrise : timesRise samples) (t : Time) :
    levelOfSamples (edgeListOf samples) t = levelOfSamples samples t := by
  match samples with
  | [] => rfl
  | x :: l =>
    induction l generalizing x with
    | nil => rfl
    | cons y l ih =>
      obtain ⟨hx, hyl⟩ := List.pairwise_cons.1 hrise
      obtain ⟨hxy, hxl⟩ := List.forall_mem_cons.1 hx
      obtain hkeep | ⟨hlevel, hskip⟩ := edgeListOf_cons_cons x y l
      · rw [hkeep, levelOfSamples_cons, ih y hyl, ← levelOfSamples_cons]
      · rw [hskip, levelOfSamples_skip hlevel hxy]
        exact ih x (List.pairwise_cons.2 ⟨hxl, (List.pairwise_cons.1 hyl).2⟩)

/-- From the first sample on, there is a sample at or before the time. -/
theorem levelOfSamples_isSome {samples : List Edge} {t : Time}
    (h : ∃ e, samples.head? = some e ∧ e.time.toNat ≤ t.toNat) : (levelOfSamples samples t).isSome = true := by
  obtain ⟨e, hhead, htime⟩ := h
  obtain ⟨l, rfl⟩ := List.head?_eq_some_iff.1 hhead
  rw [levelOfSamples_cons, if_pos htime, Option.isSome_or]
  simp

/-- Settles O23: the lookup reads the finished EdgeList, which says of every time what the samples say. -/
theorem edgeListReconstructsTheWaveform : Obligations.EdgeListReconstructsTheWaveform := by
  intro s s' c samples t hst hcount hedges hrise hfit hhead hrun
  have hne : samples ≠ [] := by
    rintro rfl
    obtain ⟨e, hnone, -⟩ := hhead
    cases hnone
  obtain ⟨r, hexec, -, hentries, -, hkeys⟩ := edgeListIsItsClosedForm s c samples hst hcount hedges hne hrise hfit
  obtain rfl := Host.Outcome.next.inj (hexec.symm.trans hrun)
  rw [levelAt_eq (by rwa [setChan_chan_self]), setChan_chan_self, hentries, levelOfSamples_edgeListOf hrise]
  obtain ⟨lv, hlv⟩ := Option.isSome_iff_exists.1 (levelOfSamples_isSome hhead)
  rw [hlv, Option.getD_some]

end Sys2Proof.Machine

/-! The level sampler's lookups, and the refusals of QUERY, EDGE_RD and DECODE. -/

namespace Sys2Proof.Machine

/-! ### The lookups (42_level_sampler.md R140, R141) -/

theorem levelAtHalf_of_all_later {s : State} {c : Channel} {u : Nat}
    (hlater : ∀ k, k < (s.chan c).count.toNat → u < 2 * (edgeAt s c k).time.toNat) : levelAtHalf s c u = .high :=
  rightmostLevel_none _ _ _ fun k hk => decide_eq_false (hlater k hk).not_ge

theorem levelAtHalf_of_rightmost {s : State} {c : Channel} {u k : Nat} (hk : k < (s.chan c).count.toNat)
    (hat : 2 * (edgeAt s c k).time.toNat ≤ u)
    (hlater : ∀ j, k < j → j < (s.chan c).count.toNat → u < 2 * (edgeAt s c j).time.toNat) :
    levelAtHalf s c u = (edgeAt s c k).level :=
  rightmostLevel_some _ _ _ _ hk (decide_eq_true hat) fun j hkj hj => decide_eq_false (hlater j hkj hj).not_ge

/-- A tick is two half-ticks: the two lookups test every entry alike (R141). -/
theorem levelAt_eq_levelAtHalf (s : State) (c : Channel) (t : Time) :
    levelAt s c t = levelAtHalf s c (2 * t.toNat) := by
  simp only [levelAt, levelAtHalf, Nat.mul_le_mul_left_iff Nat.two_pos]

theorem levelAt_of_all_later {s : State} {c : Channel} {t : Time}
    (hlater : ∀ k, k < (s.chan c).count.toNat → t.toNat < (edgeAt s c k).time.toNat) : levelAt s c t = .high := by
  rw [levelAt_eq_levelAtHalf]
  exact levelAtHalf_of_all_later fun k hk => Nat.mul_lt_mul_of_pos_left (hlater k hk) Nat.two_pos

theorem levelAt_of_rightmost {s : State} {c : Channel} {t : Time} {k : Nat} (hk : k < (s.chan c).count.toNat)
    (hat : (edgeAt s c k).time.toNat ≤ t.toNat)
    (hlater : ∀ j, k < j → j < (s.chan c).count.toNat → t.toNat < (edgeAt s c j).time.toNat) :
    levelAt s c t = (edgeAt s c k).level := by
  rw [levelAt_eq_levelAtHalf]
  exact levelAtHalf_of_rightmost hk (Nat.mul_le_mul_left 2 hat) fun j hkj hj =>
    Nat.mul_lt_mul_of_pos_left (hlater j hkj hj) Nat.two_pos

/-- Settles O24. -/
theorem levelAtReadsTheRightmostEntry : Obligations.LevelAtReadsTheRightmostEntry :=
  fun _ _ _ => ⟨levelAt_of_all_later, fun _ => levelAt_of_rightmost⟩

/-- Settles O25. -/
theorem levelAtHalfReadsHalfTicks : Obligations.LevelAtHalfReadsHalfTicks :=
  fun s c => ⟨fun _ => levelAtHalf_of_all_later, fun _ _ => levelAtHalf_of_rightmost, levelAt_eq_levelAtHalf s c⟩

/-! ### Rising times (42_level_sampler.md R146) -/

section
variable {s : State} {c : Channel} {t : Time}
  (hrise : ∀ j k, j < k → k < (s.chan c).count.toNat → (edgeAt s c j).time.toNat < (edgeAt s c k).time.toNat)
include hrise

/-- Where times rise, a time before one entry is before every entry from there on. -/
theorem lt_time_of_lt_earlier {j k : Nat} (ht : t.toNat < (edgeAt s c j).time.toNat) (hjk : j ≤ k)
    (hk : k < (s.chan c).count.toNat) : t.toNat < (edgeAt s c k).time.toNat := by
  obtain rfl | hlt := hjk.eq_or_lt
  · exact ht
  · exact ht.trans (hrise j k hlt hk)

/-- From an entry's time up to the next entry's, the lookup answers that entry's level. -/
theorem levelAt_of_between {k : Nat} (hk : k < (s.chan c).count.toNat) (hat : (edgeAt s c k).time.toNat ≤ t.toNat)
    (hnext : k + 1 < (s.chan c).count.toNat → t.toNat < (edgeAt s c (k + 1)).time.toNat) :
    levelAt s c t = (edgeAt s c k).level :=
  levelAt_of_rightmost hk hat fun _ hkj hj => lt_time_of_lt_earlier hrise (hnext (Nat.lt_of_le_of_lt hkj hj)) hkj hj

theorem levelAt_of_lt_first (ht : t.toNat < (edgeAt s c 0).time.toNat) : levelAt s c t = .high :=
  levelAt_of_all_later fun k hk => lt_time_of_lt_earlier hrise ht (Nat.zero_le k) hk

end

/-- Settles O26: an entry's own time, and every time down to the previous entry's, lies between two neighbours. -/
theorem samplerRoundTrip : Obligations.SamplerRoundTrip := by
  intro s c hrise
  refine ⟨fun k hk => ?_, fun k ε t hpos hk hε hgap ht => ?_, fun ε t _ hε _ ht => ?_⟩
  · exact levelAt_of_between hrise hk le_rfl (hrise k (k + 1) k.lt_succ_self)
  · obtain ⟨k, rfl⟩ := Nat.exists_eq_add_of_le' hpos
    rw [Nat.add_sub_cancel] at hgap ⊢
    exact levelAt_of_between hrise (by omega) (by omega) fun _ => by omega
  · exact levelAt_of_lt_first hrise (by omega)

/-! ### Refusals (42_level_sampler.md R144, R145, 43_serial_decoder.md R165, 60_exceptions.md R225) -/

theorem execQuery_of_not_closed {s : State} {c : Channel} (h : (s.chan c).state ≠ .closed) (t : Time) :
    execQuery c t s = .next (raiseError .notReady (encode (.query c t)) s) := by
  rw [execQuery, if_pos h]

theorem execEdgeRd_of_not_closed {s : State} {c : Channel} (h : (s.chan c).state ≠ .closed) (k : BitVec 32) :
    execEdgeRd c k s = .next (raiseError .notReady (encode (.edgeRd c k)) s) := by
  rw [execEdgeRd, if_pos h]

theorem execEdgeRd_of_count_le {s : State} {c : Channel} {k : BitVec 32} (h : (s.chan c).state = .closed)
    (hk : (s.chan c).count.toNat ≤ k.toNat) :
    execEdgeRd c k s = .next (raiseError .indexRange (encode (.edgeRd c k)) s) := by
  rw [execEdgeRd, if_neg (not_not.2 h), if_pos hk]

theorem execDecode_of_not_closed {s : State} (h : s.ch0.state ≠ .closed ∨ s.ch1.state ≠ .closed) :
    execDecode s = .next (raiseError .notReady (encode .decode) s) := by
  rw [execDecode, if_pos h]

theorem execDecode_of_bitTicks_zero {s : State} (h0 : s.ch0.state = .closed) (h1 : s.ch1.state = .closed)
    (hbt : s.bitTicks = 0#32) : execDecode s = .next (raiseError .notConfigured (encode .decode) s) := by
  rw [execDecode, if_neg (not_or.2 ⟨not_not.2 h0, not_not.2 h1⟩), if_pos hbt]

/-- Settles O29: the channels' states first, then the index or the bit period. -/
theorem samplerAndDecoderRefusals : Obligations.SamplerAndDecoderRefusals :=
  ⟨fun _ _ t h => execQuery_of_not_closed h t,
    fun _ _ k h => execEdgeRd_of_not_closed h k,
    fun _ _ _ => execEdgeRd_of_count_le,
    fun _ => execDecode_of_not_closed,
    fun _ => execDecode_of_bitTicks_zero⟩

end Sys2Proof.Machine

/-! The serial decoder as a whole: the bits of a decoded value, the spacing and the number of the decoded bytes, and
that a DECODE depends on the edge lists and the configuration alone (43_serial_decoder.md R161, R165, R169 to R171). -/

namespace Sys2Proof.Machine

/-! ### The value of a decoded byte (43_serial_decoder.md R161) -/

/-- The first `n` data bits of a value: each where its own instant reads High, and none from `n` up. -/
theorem decodeValue_getLsbD (s : State) (cfg : DecodeCfg) (start : Time) {n : Nat} (hn : n ≤ 8) (i : Nat) :
    (decodeValue s cfg start n).getLsbD i =
      (decide (i < n) && decide (levelAtHalf s .a (sampleInstant cfg start i) = .high)) := by
  induction n with
  | zero => simp [decodeValue]
  | succ n ih =>
    have hnew : (1#8 <<< n).getLsbD i = decide (n = i) := by
      rw [← BitVec.twoPow_eq, BitVec.getLsbD_twoPow, decide_eq_true (p := n < 8) (by omega), Bool.true_and]
    have hlt : decide (i < n + 1) = (decide (i < n) || decide (n = i)) := by
      rw [← Bool.decide_or, decide_eq_decide]
      omega
    have hold := ih (by omega)
    rw [decodeValue, hlt]
    by_cases hi : n = i
    · subst hi
      split <;> simp_all
    · split <;> simp [hold, hnew, hi]

/-- Settles O31: the bits of the loop's value, read at FRAMING's DATA_BITS. -/
theorem decodedValueBits : Obligations.DecodedValueBits :=
  fun s start i hdb => decodeValue_getLsbD s (decodeCfg s) start hdb i

/-! ### DECODE is the batch walk (43_serial_decoder.md R165) -/

/-- Settles O32: no byte out changes the edge lists, so the walk is the pure walk with its bytes put out. -/
theorem decodeRefinesTheBatchDecoder : Obligations.DecodeRefinesTheBatchDecoder :=
  fun _ => execDecode_eq_byteOutAll

/-! ### Where the decoded bytes start, and how many they are (43_serial_decoder.md R169, R170) -/

/-- `b` starts at or after the scan cursor that `a` leaves (R163). -/
def startsAfter (cfg : DecodeCfg) (a b : DecodedByte) : Prop := cursorAfter cfg a ≤ b.start.toNat

/-- The first byte that the pure walk takes starts at or after the cursor (R159). -/
theorem cursor_le_start_of_head? {s : State} {cfg : DecodeCfg} {n k cursor : Nat} :
    ∀ d ∈ (decodedFrom s cfg n k cursor).head?, cursor ≤ d.start.toNat := by
  induction n generalizing k with
  | zero => simp [decodedFrom]
  | succ n ih =>
    by_cases htaken : startEdge s k = true ∧ cursor ≤ (edgeAt s .a k).time.toNat
    · obtain ⟨hstart, hcursor⟩ := htaken
      rw [decodedFrom_of_taken hstart hcursor]
      rintro d ⟨⟩
      exact hcursor
    · rw [decodedFrom_of_not_taken htaken]
      exact ih

/-- Each byte of the pure walk starts at or after the cursor of the one before it (R169). -/
theorem decodedFrom_isChain (s : State) (cfg : DecodeCfg) (n k cursor : Nat) :
    (decodedFrom s cfg n k cursor).IsChain (startsAfter cfg) := by
  induction n generalizing k cursor with
  | zero => exact .nil
  | succ n ih =>
    by_cases htaken : startEdge s k = true ∧ cursor ≤ (edgeAt s .a k).time.toNat
    · obtain ⟨hstart, hcursor⟩ := htaken
      rw [decodedFrom_of_taken hstart hcursor]
      exact List.isChain_cons.2 ⟨cursor_le_start_of_head?, ih _ _⟩
    · rw [decodedFrom_of_not_taken htaken]
      exact ih _ _

/-- A character takes its start bit and at least one data bit (R163, 10_state.md R33). -/
theorem two_bits_le_cursorAfter {s : State} (hframing : framingLegal s.framing = true) (d : DecodedByte) :
    d.start.toNat + 2 * s.bitTicks.toNat ≤ cursorAfter (decodeCfg s) d := by
  have hdb : 1 ≤ (decodeCfg s).db := ((framingLegal_eq_true _).1 hframing).1
  have hbits : 2 ≤ 1 + (decodeCfg s).db + stopBits (decodeCfg s) d.dir := by omega
  exact Nat.add_le_add_left (Nat.mul_le_mul_right _ hbits) _

/-- No entry right after a start edge is one: a start edge leaves the level off High, and the next needs it High
(R158). -/
theorem not_startEdge_succ {s : State} {k : Nat} (h : startEdge s k = true) : ¬ startEdge s (k + 1) = true := by
  rw [startEdge_eq_true] at h ⊢
  exact fun hnext => h.2 hnext.1

/-- Of any two entries in a row at most one starts a byte (R170). -/
theorem two_mul_length_decodedFrom_le (s : State) (cfg : DecodeCfg) (n k cursor : Nat) :
    2 * (decodedFrom s cfg n k cursor).length ≤ n + 1 := by
  induction n using Nat.twoStepInduction generalizing k cursor with
  | zero => simp [decodedFrom]
  | one =>
    rw [decodedFrom]
    split <;> simp [decodedFrom]
  | more n ih ihsucc =>
    by_cases htaken : startEdge s k = true ∧ cursor ≤ (edgeAt s .a k).time.toNat
    · obtain ⟨hstart, hcursor⟩ := htaken
      rw [decodedFrom_of_taken hstart hcursor, decodedFrom_of_not_taken fun h => not_startEdge_succ hstart h.1,
        List.length_cons]
      have hrest := ih (k + 1 + 1) (cursorAfter cfg (decodeChar s cfg (edgeAt s .a k).time))
      omega
    · rw [decodedFrom_of_not_taken htaken]
      exact (ihsucc (k + 1) cursor).trans (Nat.le_succ _)

/-- Settles O34: the chain of the cursors, a character's least length, and the count of start edges. -/
theorem decodedBytesAreSpacedAndBounded : Obligations.DecodedBytesAreSpacedAndBounded := by
  intro s hbt hframing
  refine ⟨fun k a b ha hb => ?_, ?_⟩
  · obtain ⟨-, rfl⟩ := List.getElem?_eq_some_iff.1 ha
    obtain ⟨hk, rfl⟩ := List.getElem?_eq_some_iff.1 hb
    have hcursor : cursorAfter (decodeCfg s) (decodedBytes s)[k] ≤ (decodedBytes s)[k + 1].start.toNat :=
      (decodedFrom_isChain s (decodeCfg s) _ 1 0).getElem k hk
    have hbits := two_bits_le_cursorAfter hframing (decodedBytes s)[k]
    have hticks : s.bitTicks.toNat ≠ 0 := fun h => hbt (BitVec.eq_of_toNat_eq h)
    exact ⟨hcursor, by omega, by omega⟩
  · have hlen : 2 * (decodedBytes s).length ≤ s.ch0.count.toNat - 1 + 1 :=
      two_mul_length_decodedFrom_le s (decodeCfg s) _ 1 0
    omega

/-! ### The decoded bytes depend on the edge lists and the configuration (43_serial_decoder.md R171) -/

theorem SameEdgeLists.decodedFrom {s u : State} (h : SameEdgeLists s u) (cfg : DecodeCfg) (n k cursor : Nat) :
    decodedFrom u cfg n k cursor = decodedFrom s cfg n k cursor := by
  induction n generalizing k cursor with
  | zero => rfl
  | succ n ih => simp only [Machine.decodedFrom, h.edgeAt, h.decodeChar, ih]

theorem SameEdgeLists.decodedBytes {s u : State} (h : SameEdgeLists s u) (hbt : u.bitTicks = s.bitTicks)
    (hframing : u.framing = s.framing) : decodedBytes u = decodedBytes s := by
  have hcfg : decodeCfg u = decodeCfg s := by rw [decodeCfg, decodeCfg, hbt, hframing]
  have hch0 : u.ch0 = s.ch0 := h.chan .a
  rw [Machine.decodedBytes, Machine.decodedBytes, hcfg, hch0, h.decodedFrom]

/-! ### Two runs of the assembler over the same bytes (43_serial_decoder.md R171) -/

/-- The two assembler records agree in every field that a later byte can read in their state (44_frame_assembler.md R182
to R190): the others, and the payload positions at or above `fCount`, are free to differ. -/
structure SameFrame (a b : Asm) : Prop where
  state : b.state = a.state
  havePrev : b.havePrev = a.havePrev
  prev : a.havePrev = true → b.prevTime = a.prevTime ∧ b.prevDir = a.prevDir
  marker : a.state ≠ .idle → b.fMarker = a.fMarker ∧ b.fType = a.fType ∧ b.fStart = a.fStart
  payload : a.state = .data ∨ a.state = .sum ∨ a.state = .end_ →
    b.fLen = a.fLen ∧ b.fCount = a.fCount ∧ ∀ p < a.fCount.toNat, cellsRead b.fData p = cellsRead a.fData p
  complete : a.state = .sum ∨ a.state = .end_ → a.fCount = a.fLen
  sum : a.state = .end_ → b.fSum = a.fSum

/-- In Idle with no byte seen, as an assembler clear leaves it, nothing else is read (44_frame_assembler.md R192). -/
theorem sameFrame_of_clear {a b : Asm} (ha : a.state = .idle) (hb : b.state = .idle) (hprev : a.havePrev = false)
    (hprev' : b.havePrev = false) : SameFrame a b := by
  constructor <;> simp [ha, hb, hprev, hprev']

/-- In Idle the frame fields are not read. -/
theorem SameFrame.idle {a b : Asm} (h : SameFrame a b) :
    SameFrame { a with state := .idle } { b with state := .idle } :=
  { h with state := rfl, marker := by simp, payload := by simp, complete := by simp, sum := by simp }

/-- The two runs agree in the configuration, the counters and what the assembler can still read, and have appended the
same events to `o` and `p`. -/
structure SameRun (o p : List Word) (s u : State) : Prop where
  ctrl : u.ctrl = s.ctrl
  bitTicks : u.bitTicks = s.bitTicks
  framing : u.framing = s.framing
  endMarker : u.endMarker = s.endMarker
  markers : u.markers = s.markers
  freeCount : u.freeCount = s.freeCount
  bytesDecoded : u.bytesDecoded = s.bytesDecoded
  ambigCount : u.ambigCount = s.ambigCount
  bit0Count : u.bit0Count = s.bit0Count
  bytesScanned : u.bytesScanned = s.bytesScanned
  framesFound : u.framesFound = s.framesFound
  framesDropped : u.framesDropped = s.framesDropped
  resyncDiscards : u.resyncDiscards = s.resyncDiscards
  asm : SameFrame s.asm u.asm
  events : ∃ ev, s.out = o ++ ev ∧ u.out = p ++ ev

section
variable {o p : List Word} {s u s' u' : State}

/-- Both runs emit the same events more. -/
theorem SameRun.events_append (h : SameRun o p s u) (ws : List Word) :
    ∃ ev, s.out ++ ws = o ++ ev ∧ u.out ++ ws = p ++ ev := by
  obtain ⟨ev, hs, hu⟩ := h.events
  exact ⟨ev ++ ws, by rw [hs, List.append_assoc], by rw [hu, List.append_assoc]⟩

/-- A byte counted and announced (43_serial_decoder.md R166). -/
theorem SameRun.byteEmit_byteCount (h : SameRun o p s u) (d : DecodedByte) :
    SameRun o p (byteEmit d (byteCount d s)) (byteEmit d (byteCount d u)) := by
  rw [byteEmit_eq, byteEmit_eq, byteCount_eq, byteCount_eq]
  simp only [h.ctrl, h.bytesDecoded, h.ambigCount, h.bit0Count]
  exact { h with
    ctrl := rfl, bytesDecoded := rfl, ambigCount := rfl, bit0Count := rfl, events := h.events_append _ }

theorem SameRun.resyncNeeded (h : SameRun o p s u) (t : Time) (dir : Direction) :
    resyncNeeded t dir u = resyncNeeded t dir s := by
  have htol : resyncTolerance u = resyncTolerance s := by rw [resyncTolerance, resyncTolerance, h.framing, h.bitTicks]
  rw [Machine.resyncNeeded, Machine.resyncNeeded, h.asm.havePrev, htol]
  cases hprev : s.asm.havePrev with
  | false => rfl
  | true =>
    obtain ⟨htime, hdir⟩ := h.asm.prev hprev
    rw [htime, hdir]

/-- The resync of both runs (44_frame_assembler.md R182). -/
theorem SameRun.resync (h : SameRun o p s u) (t : Time) (dir : Direction) :
    SameRun o p (resync t dir s) (resync t dir u) := by
  rw [resync_eq, resync_eq]
  simp only [h.resyncNeeded, h.asm.state, h.resyncDiscards]
  have hframe : SameFrame
      { s.asm with state := if Machine.resyncNeeded t dir s = true then .idle else s.asm.state }
      { u.asm with state := if Machine.resyncNeeded t dir s = true then .idle else s.asm.state } := by
    split
    · exact h.asm.idle
    · exact { h.asm with state := rfl }
  exact { h with resyncDiscards := rfl, asm := { hframe with havePrev := rfl, prev := fun _ => ⟨rfl, rfl⟩ } }

/-- Idle: the marker table decides (44_frame_assembler.md R184). -/
theorem SameRun.asmIdle (h : SameRun o p s u) (v : Byte) (idx : BitVec 32) :
    SameRun o p (asmIdle v idx s) (asmIdle v idx u) := by
  have hlookup : lookupMarker u v = lookupMarker s v := by rw [lookupMarker, lookupMarker, h.markers]
  rw [Machine.asmIdle, Machine.asmIdle, hlookup]
  cases lookupMarker s v with
  | none => exact h
  | some ty =>
    exact { h with asm := { h.asm with
      state := rfl, marker := fun _ => ⟨rfl, rfl, rfl⟩, payload := by simp, complete := by simp, sum := by simp } }

/-- Len: an empty payload agrees (44_frame_assembler.md R185). -/
theorem SameRun.asmLen (h : SameRun o p s u) (hst : s.asm.state = .len) (v : Byte) :
    SameRun o p (asmLen v s) (asmLen v u) :=
  { h with asm := { h.asm with
    state := rfl
    marker := fun _ => h.asm.marker (by simp [hst])
    payload := fun _ => ⟨rfl, rfl, fun _ hp => absurd hp (Nat.not_lt_zero _)⟩
    complete := by
      by_cases hv : v = 0#8 <;> simp [Machine.asmLen, hv]
    sum := by
      by_cases hv : v = 0#8 <;> simp [Machine.asmLen, hv] } }

/-- Data: both runs store the byte at the same position (44_frame_assembler.md R186). -/
theorem SameRun.asmData (h : SameRun o p s u) (hst : s.asm.state = .data) {v : Byte}
    (hs : asmData v s = .next s') (hu : asmData v u = .next u') : SameRun o p s' u' := by
  obtain ⟨s1, hwrite, ⟨⟩⟩ := andThen_eq_next.1 hs
  obtain ⟨u1, hwrite', ⟨⟩⟩ := andThen_eq_next.1 hu
  obtain ⟨hroom, rfl⟩ := payloadWrite_eq_next.1 hwrite
  obtain ⟨-, rfl⟩ := payloadWrite_eq_next.1 hwrite'
  obtain ⟨hlen, hcount, hread⟩ := h.asm.payload (.inl hst)
  have hsucc : (s.asm.fCount + 1#8).toNat = s.asm.fCount.toNat + 1 := by
    rw [Config.maxPayload] at hroom
    bv_omega
  have hpayload (q : Nat) (hq : q < (s.asm.fCount + 1#8).toNat) :
      cellsRead (cellsWrite u.asm.fData s.asm.fCount.toNat v) q =
        cellsRead (cellsWrite s.asm.fData s.asm.fCount.toNat v) q := by
    rw [cellsRead_cellsWrite, cellsRead_cellsWrite]
    split
    · rfl
    · exact hread q (by omega)
  simp only [asmDataCount, hlen, hcount, h.asm.state]
  exact { h with asm := { h.asm with
    state := rfl
    marker := fun _ => h.asm.marker (by simp [hst])
    payload := fun _ => ⟨rfl, rfl, hpayload⟩
    complete := by
      by_cases hlast : s.asm.fCount + 1#8 = s.asm.fLen <;> simp [hlast, hst]
    sum := by
      by_cases hlast : s.asm.fCount + 1#8 = s.asm.fLen <;> simp [hlast, hst] } }

/-- Sum: the frame is received but for its terminator (44_frame_assembler.md R188). -/
theorem SameRun.asmSum (h : SameRun o p s u) (hst : s.asm.state = .sum) (v : Byte) :
    SameRun o p (asmSum v s) (asmSum v u) :=
  { h with asm := { h.asm with
    state := rfl
    marker := fun _ => h.asm.marker (by simp [hst])
    payload := fun _ => h.asm.payload (.inr (.inl hst))
    complete := fun _ => h.asm.complete (.inl hst)
    sum := fun _ => rfl } }

/-- In End every payload byte of the frame has been received, and the two runs received the same. -/
theorem SameRun.payloadAt (h : SameRun o p s u) (hst : s.asm.state = .end_) {q : Nat} (hq : q < s.asm.fLen.toNat) :
    payloadAt u q = payloadAt s q := by
  obtain ⟨-, -, hread⟩ := h.asm.payload (.inr (.inr hst))
  have hcount := h.asm.complete (.inr hst)
  rw [Machine.payloadAt, Machine.payloadAt, hread q (by rwa [hcount]), h.freeCount]

theorem SameRun.map_payloadAt (h : SameRun o p s u) (hst : s.asm.state = .end_) {α : Type} (f : Nat → Byte → α) :
    (List.range s.asm.fLen.toNat).map (fun q => f q (Machine.payloadAt u q)) =
      (List.range s.asm.fLen.toNat).map fun q => f q (Machine.payloadAt s q) :=
  List.map_congr_left fun q hq => by rw [h.payloadAt hst (List.mem_range.1 hq)]

/-- The validation and the events of the frame built (44_frame_assembler.md R187, R190). -/
theorem SameRun.checksumOK (h : SameRun o p s u) (hst : s.asm.state = .end_) : checksumOK u = checksumOK s := by
  obtain ⟨hlen, -, -⟩ := h.asm.payload (.inr (.inr hst))
  have hsum : payloadSum u s.asm.fLen.toNat = payloadSum s s.asm.fLen.toNat :=
    congrArg List.sum (h.map_payloadAt hst fun _ b => b.toNat)
  rw [Machine.checksumOK, Machine.checksumOK, hlen, hsum, h.asm.sum hst]

theorem SameRun.frameEvents (h : SameRun o p s u) (hst : s.asm.state = .end_) (v : Byte) (idx : BitVec 32) :
    frameEvents u v idx = frameEvents s v idx := by
  obtain ⟨hlen, -, -⟩ := h.asm.payload (.inr (.inr hst))
  obtain ⟨hmarker, htype, hstart⟩ := h.asm.marker (by simp [hst])
  simp only [Machine.frameEvents, hlen, hmarker, htype, hstart, h.asm.sum hst,
    h.map_payloadAt hst fun q b => Event.frameData (BitVec.ofNat 8 q) b]

/-- End: both runs validate the frame, or both drop it (44_frame_assembler.md R189). -/
theorem SameRun.asmEnd (h : SameRun o p s u) (hst : s.asm.state = .end_) (v : Byte) (idx : BitVec 32) :
    SameRun o p (asmEnd v idx s) (asmEnd v idx u) := by
  have hend : endMarkerByte u = endMarkerByte s := by rw [endMarkerByte, endMarkerByte, h.endMarker]
  rw [asmEnd_eq, asmEnd_eq]
  simp only [hend, h.checksumOK hst, h.frameEvents hst, h.ctrl, h.framesFound, h.framesDropped]
  split
  · exact { h with
      ctrl := rfl, framesFound := rfl, framesDropped := rfl, asm := h.asm.idle, events := h.events_append _ }
  · exact { h with ctrl := rfl, framesFound := rfl, framesDropped := rfl, asm := h.asm.idle }

/-- The transition of both runs, state by state (44_frame_assembler.md R193). -/
theorem SameRun.asmTransition (h : SameRun o p s u) {v : Byte} {idx idx' : BitVec 32} (hidx : idx' = idx)
    (hs : asmTransition v idx s = .next s') (hu : asmTransition v idx' u = .next u') : SameRun o p s' u' := by
  subst hidx
  unfold Machine.asmTransition at hs hu
  rw [h.asm.state] at hu
  cases hst : s.asm.state <;> simp only [hst] at hs hu
  case idle =>
    cases hs
    cases hu
    exact h.asmIdle v idx'
  case len =>
    cases hs
    cases hu
    exact h.asmLen hst v
  case data => exact h.asmData hst hs hu
  case sum =>
    cases hs
    cases hu
    exact h.asmSum hst v
  case end_ =>
    cases hs
    cases hu
    exact h.asmEnd hst v idx'

/-- The byte takes the same index in both runs (44_frame_assembler.md R183). -/
theorem SameRun.scanned (h : SameRun o p s u) :
    SameRun o p { s with bytesScanned := countUp s.bytesScanned } { u with bytesScanned := countUp u.bytesScanned } :=
  { h with bytesScanned := congrArg countUp h.bytesScanned }

/-- One byte out in both runs: counted, announced, and through the assembler (43_serial_decoder.md R166). -/
theorem SameRun.byteOut (h : SameRun o p s u) {d : DecodedByte} (hs : byteOut d s = .next s')
    (hu : byteOut d u = .next u') : SameRun o p s' u' := by
  have hresync := (h.byteEmit_byteCount d).resync d.start d.dir
  exact hresync.scanned.asmTransition hresync.bytesScanned hs hu

theorem SameRun.byteOutAll (h : SameRun o p s u) {ds : List DecodedByte} (hs : byteOutAll ds s = .next s')
    (hu : byteOutAll ds u = .next u') : SameRun o p s' u' := by
  induction ds generalizing s u with
  | nil =>
    cases hs
    cases hu
    exact h
  | cons d rest ih =>
    obtain ⟨s1, hbyte, hrest⟩ := andThen_eq_next.1 hs
    obtain ⟨u1, hbyte', hrest'⟩ := andThen_eq_next.1 hu
    exact ih (h.byteOut hbyte hbyte') hrest hrest'

/-- The completion of both runs (43_serial_decoder.md R167). -/
theorem SameRun.decodeDone (h : SameRun o p s u) : SameRun o p (decodeDone s) (decodeDone u) := by
  have hdone : (Machine.decodeDone u).out = u.out ++ [eventWord (.done s.bytesDecoded)] := by
    rw [← h.bytesDecoded]
    rfl
  exact { h with events := by rw [hdone]; exact h.events_append _ }

end

/-- Settles O35: the two runs put the same bytes out from cleared assemblers and counters, and complete. -/
theorem decodeIsRepeatable : Obligations.DecodeIsRepeatable := by
  intro s u t v hch0 hch1 hfree hctrl hbt hframing hend hmarkers h0 h1 hticks hs hu
  have hedges : SameEdgeLists s u := ⟨fun c => by cases c; exacts [hch0.symm, hch1.symm], hfree.symm⟩
  have hbytes : decodedBytes u = decodedBytes s := hedges.decodedBytes hbt.symm hframing.symm
  have hclear : SameRun s.out u.out (decoderCountersClear (asmClear s)) (decoderCountersClear (asmClear u)) :=
    ⟨hctrl.symm, hbt.symm, hframing.symm, hend.symm, hmarkers.symm, hfree.symm, rfl, rfl, rfl, rfl, rfl, rfl, rfl,
      sameFrame_of_clear rfl rfl rfl rfl, [], (List.append_nil _).symm, (List.append_nil _).symm⟩
  obtain ⟨s1, hout, ⟨⟩⟩ := andThen_eq_next.1 ((execDecode_eq_byteOutAll h0 h1 hticks).symm.trans hs)
  obtain ⟨u1, hout', ⟨⟩⟩ := andThen_eq_next.1
    ((execDecode_eq_byteOutAll (hch0 ▸ h0) (hch1 ▸ h1) (hbt ▸ hticks)).symm.trans hu)
  rw [hbytes] at hout'
  have hrun := (hclear.byteOutAll hout hout').decodeDone
  exact ⟨hrun.events, hrun.bytesDecoded.symm, hrun.ambigCount.symm, hrun.bit0Count.symm, hrun.bytesScanned.symm,
    hrun.framesFound.symm, hrun.framesDropped.symm, hrun.resyncDiscards.symm⟩

end Sys2Proof.Machine

/-! The assembler's step, state by state, and the refusals of ASM_BYTE and CSR_WR (44_frame_assembler.md,
45_control.md). -/

namespace Sys2Proof.Machine

/-! ### The marker table (44_frame_assembler.md R181) -/

/-- An entry is found where it matches and no entry of a smaller index does. -/
theorem find?_markers_eq_some (s : State) (v : Byte) (m : CsrWord) :
    s.markers.toList.find? (markerMatches · v) = some m ↔
      ∃ n : Fin 8, markerMatches s.markers[n] v = true ∧ s.markers[n] = m ∧
        ∀ k : Fin 8, k < n → ¬ markerMatches s.markers[k] v = true := by
  simp only [List.find?_eq_some_iff_getElem, Vector.length_toList, Vector.getElem_toList, Bool.not_eq_true']
  constructor
  · rintro ⟨hm, i, hi, rfl, hfirst⟩
    exact ⟨⟨i, hi⟩, hm, rfl, fun k hk => by simpa using hfirst k.val hk⟩
  · rintro ⟨n, hm, rfl, hfirst⟩
    exact ⟨hm, n.val, n.isLt, rfl, fun j hj => by simpa using hfirst ⟨j, hj.trans n.isLt⟩ hj⟩

/-- Settles O36: the first match of a search in index order is the one of the smallest index. -/
theorem markerLookupTakesTheSmallestIndex : Obligations.MarkerLookupTakesTheSmallestIndex := by
  intro s v
  simp only [← markerMatches_eq_true]
  refine ⟨fun ty => ?_, ?_⟩
  · rw [lookupMarker, Option.map_eq_some_iff]
    constructor
    · rintro ⟨m, hfind, rfl⟩
      obtain ⟨n, hm, rfl, hfirst⟩ := (find?_markers_eq_some s v m).1 hfind
      exact ⟨n, ((markerMatches_eq_true _ v).1 hm).1, ((markerMatches_eq_true _ v).1 hm).2, rfl, hfirst⟩
    · rintro ⟨n, hvalid, hbyte, rfl, hfirst⟩
      exact ⟨s.markers[n], (find?_markers_eq_some s v _).2
        ⟨n, (markerMatches_eq_true _ v).2 ⟨hvalid, hbyte⟩, rfl, hfirst⟩, rfl⟩
  · rw [lookupMarker, Option.map_eq_none_iff, List.find?_eq_none]
    constructor
    · exact fun hnone n => hnone s.markers[n] (by simp)
    · intro hnone m hm
      obtain ⟨i, hi, rfl⟩ := List.getElem_of_mem hm
      exact hnone ⟨i, by simpa using hi⟩

/-! ### The resync (44_frame_assembler.md R182) -/

/-- The assembler's record with a byte noted as the previous one. -/
def Asm.seen (a : Asm) (dir : Direction) (t : Time) : Asm := { a with havePrev := true, prevTime := t, prevDir := dir }

/-- Where no frame is discarded, the byte is noted as the previous one and nothing else changes. -/
theorem resync_of_no_discard {t : Time} {dir : Direction} {s : State}
    (h : ¬ (resyncNeeded t dir s = true ∧ s.asm.state ≠ .idle)) :
    resync t dir s = { s with asm := s.asm.seen dir t } := by
  have hstate : (if resyncNeeded t dir s = true then .idle else s.asm.state) = s.asm.state := by
    split
    next hneeded => exact (not_not.1 fun hne => h ⟨hneeded, hne⟩).symm
    next => rfl
  rw [resync_eq, hstate, if_neg h, if_neg h, BitVec.add_zero]
  rfl

theorem resync_of_discard {t : Time} {dir : Direction} {s : State} (hneeded : resyncNeeded t dir s = true)
    (hst : s.asm.state ≠ .idle) :
    resync t dir s = { s with
      resyncDiscards := countUp s.resyncDiscards
      isr := isrWith s.isr .resyncDiscard
      asm := { s.asm.seen dir t with state := .idle } } := by
  have hdiscard : resyncNeeded t dir s = true ∧ s.asm.state ≠ .idle := ⟨hneeded, hst⟩
  rw [resync_eq, if_pos hdiscard, if_pos hdiscard, if_pos hneeded]
  rfl

/-- Settles O37: only a resync outside Idle discards a frame. -/
theorem resyncPrecedesTheTransition : Obligations.ResyncPrecedesTheTransition := by
  intro s t dir
  simp only [← resyncNeeded_eq_true]
  exact ⟨resync_of_discard, fun _ hidle => resync_of_no_discard fun h => h.2 hidle,
    fun hneeded => resync_of_no_discard fun h => hneeded h.1⟩

@[simp] theorem resync_bytesScanned (t : Time) (dir : Direction) (s : State) :
    (resync t dir s).bytesScanned = s.bytesScanned := by rw [resync_eq]

@[simp] theorem resync_framesFound (t : Time) (dir : Direction) (s : State) :
    (resync t dir s).framesFound = s.framesFound := by rw [resync_eq]

@[simp] theorem resync_framesDropped (t : Time) (dir : Direction) (s : State) :
    (resync t dir s).framesDropped = s.framesDropped := by rw [resync_eq]

@[simp] theorem resync_out (t : Time) (dir : Direction) (s : State) : (resync t dir s).out = s.out := by rw [resync_eq]

/-! ### The transition, state by state (44_frame_assembler.md R183 to R188) -/

/-- The state in which a byte's transition runs: after the resync, with the byte counted (R183). -/
def byteStart (dir : Direction) (t : Time) (s : State) : State :=
  { resync t dir s with bytesScanned := s.bytesScanned + 1#32 }

/-- An accepted ASM_BYTE is the transition of the byte, at the count of the bytes before it (R183, R191). -/
theorem exec_asmByte_accepted {s : State} {t : Time} (hbt : s.bitTicks ≠ 0#32)
    (htime : ¬ (s.asm.havePrev = true ∧ t.toNat < s.asm.prevTime.toNat)) (dir : Direction) (v : Byte) :
    exec (.asmByte dir v t) s = asmTransition v s.bytesScanned (byteStart dir t s) := by
  have hstep : exec (.asmByte dir v t) s = asmStep t v dir s := execAsmByte_accepted hbt htime dir v
  rw [hstep, asmStep, resync_bytesScanned]
  rfl

section
variable {s : State} (v : Byte) (idx : BitVec 32)

theorem asmTransition_of_idle_none (hst : s.asm.state = .idle) {v : Byte} (hlookup : lookupMarker s v = none) :
    asmTransition v idx s = .next s := by
  simp only [asmTransition, hst, asmIdle, hlookup]

theorem asmTransition_of_idle_some (hst : s.asm.state = .idle) {v : Byte} {ty : BitVec 4}
    (hlookup : lookupMarker s v = some ty) :
    asmTransition v idx s =
      .next { s with asm := { s.asm with state := .len, fMarker := v, fType := ty, fStart := idx } } := by
  simp only [asmTransition, hst, asmIdle, hlookup]

theorem asmTransition_of_len (hst : s.asm.state = .len) :
    asmTransition v idx s =
      .next { s with asm := { s.asm with state := if v = 0#8 then .sum else .data, fLen := v, fCount := 0#8 } } := by
  simp only [asmTransition, hst, asmLen]

theorem asmTransition_of_data (hst : s.asm.state = .data) (hroom : s.asm.fCount.toNat < 255) :
    asmTransition v idx s =
      .next { s with asm := { s.asm with
        state := if s.asm.fCount + 1#8 = s.asm.fLen then .sum else .data
        fCount := s.asm.fCount + 1#8
        fData := cellsWrite s.asm.fData s.asm.fCount.toNat v } } := by
  simp only [asmTransition, hst, asmData, payloadWrite_eq_next.2 ⟨hroom, rfl⟩, andThen_next, asmDataCount]

theorem asmTransition_of_sum (hst : s.asm.state = .sum) :
    asmTransition v idx s = .next { s with asm := { s.asm with state := .end_, fSum := v } } := by
  simp only [asmTransition, hst, asmSum]

theorem asmTransition_of_end (hst : s.asm.state = .end_) : asmTransition v idx s = .next (asmEnd v idx s) := by
  simp only [asmTransition, hst]

end

theorem lookupMarker_congr {s u : State} (h : u.markers = s.markers) (v : Byte) :
    lookupMarker u v = lookupMarker s v := by
  rw [lookupMarker, lookupMarker, h]

/-- Settles O38: the resync leaves the marker table alone, and each state's transition is its own lemma. -/
theorem asmByteBuildsTheFrame : Obligations.AsmByteBuildsTheFrame := by
  intro s dir v t hbt htime r
  have hlookup : lookupMarker (byteStart dir t s) v = lookupMarker s v :=
    lookupMarker_congr (resync_frame t dir s).markers v
  rw [exec_asmByte_accepted hbt htime]
  refine ⟨fun hst hnone => asmTransition_of_idle_none (s := byteStart dir t s) _ hst (hlookup.trans hnone),
    fun ty hst hsome => asmTransition_of_idle_some (s := byteStart dir t s) _ hst (hlookup.trans hsome),
    fun hst => asmTransition_of_len v _ hst, fun hst hroom => ?_, fun hst => asmTransition_of_sum v _ hst⟩
  exact ⟨_, asmTransition_of_data v _ hst hroom, cellsRead_cellsWrite_self _ _ v,
    fun p hp => cellsRead_cellsWrite_of_ne _ v hp⟩

/-! ### The end of a frame (44_frame_assembler.md R187, R189, R190) -/

/-- The payload of the frame being built, in position order. -/
def payloadBytes (s : State) : List Byte := (List.range s.asm.fLen.toNat).map (payloadAt s)

theorem payloadSum_eq (s : State) : payloadSum s s.asm.fLen.toNat = ((payloadBytes s).map BitVec.toNat).sum := by
  rw [payloadBytes, List.map_map]
  rfl

/-- The words of a frame's events (R190). -/
theorem map_eventWord_frameEvents (s : State) (v : Byte) (idx : BitVec 32) :
    (frameEvents s v idx).map eventWord =
      [eventWord (.frameHdr s.asm.fType s.asm.fMarker s.asm.fLen s.asm.fSum s.asm.fStart)]
        ++ (payloadBytes s).mapIdx (fun p d => eventWord (.frameData (BitVec.ofNat 8 p) d))
        ++ [eventWord (.frameEnd v idx)] := by
  have hdata : (payloadBytes s).mapIdx (fun p d => eventWord (.frameData (BitVec.ofNat 8 p) d)) =
      (List.range s.asm.fLen.toNat).map fun p => eventWord (.frameData (BitVec.ofNat 8 p) (payloadAt s p)) :=
    List.ext_getElem (by simp [payloadBytes]) fun p _ _ => by simp [payloadBytes]
  rw [hdata, frameEvents, List.map_append, List.map_append, List.map_map]
  rfl

/-- The End byte validates the frame that has been built (R189). -/
def validEnd (s : State) (v : Byte) : Prop :=
  v = s.endMarker.extractLsb' 0 8 ∧
    (s.asm.fLen.toNat + ((payloadBytes s).map BitVec.toNat).sum + s.asm.fSum.toNat) % 256 = 0

theorem validEnd_iff (s : State) (v : Byte) : validEnd s v ↔ v = endMarkerByte s ∧ checksumOK s = true := by
  rw [checksumOK_eq_true, payloadSum_eq]
  rfl

theorem asmEnd_of_valid {s : State} {v : Byte} (h : validEnd s v) (idx : BitVec 32) :
    asmEnd v idx s = { s with
      framesFound := s.framesFound + 1#32
      isr := s.isr ||| 0x00000020#32
      out := s.out ++ if s.ctrl.getLsbD 1 then
          [eventWord (.frameHdr s.asm.fType s.asm.fMarker s.asm.fLen s.asm.fSum s.asm.fStart)]
            ++ (payloadBytes s).mapIdx (fun p d => eventWord (.frameData (BitVec.ofNat 8 p) d))
            ++ [eventWord (.frameEnd v idx)]
        else []
      asm := { s.asm with state := .idle } } := by
  rw [asmEnd_eq, if_pos ((validEnd_iff s v).1 h), map_eventWord_frameEvents]
  rfl

theorem asmEnd_of_not_valid {s : State} {v : Byte} (h : ¬ validEnd s v) (idx : BitVec 32) :
    asmEnd v idx s = { s with
      framesDropped := s.framesDropped + 1#32
      isr := s.isr ||| 0x00000040#32
      asm := { s.asm with state := .idle } } := by
  rw [asmEnd_eq, if_neg (mt (validEnd_iff s v).2 h)]
  rfl

/-- Settles O39: the End byte meets the frame as the resync leaves it. -/
theorem asmByteEndsTheFrame : Obligations.AsmByteEndsTheFrame := by
  intro s dir v t hbt htime r hst payload valid
  have hframe := resync_frame t dir s
  have hvalid : validEnd (byteStart dir t s) v ↔ valid := by
    have hend : (byteStart dir t s).endMarker = s.endMarker := hframe.endMarker
    rw [validEnd, hend]
    rfl
  rw [exec_asmByte_accepted hbt htime, asmTransition_of_end (s := byteStart dir t s) v _ hst, ← hvalid]
  refine ⟨fun h => ?_, fun h => ?_⟩
  · have hevents : (byteStart dir t s).ctrl.getLsbD 1 = s.ctrl.getLsbD 1 := congrArg (·.getLsbD 1) hframe.ctrl
    have hout : (byteStart dir t s).out = s.out := resync_out t dir s
    have hfound : (byteStart dir t s).framesFound = s.framesFound := resync_framesFound t dir s
    rw [asmEnd_of_valid h, hevents, hout, hfound]
    by_cases henabled : s.ctrl.getLsbD 1 = true
    · rw [if_pos henabled, if_pos henabled, ← List.append_assoc, ← List.append_assoc]
      rfl
    · rw [if_neg henabled, if_neg henabled, List.append_nil]
      rfl
  · have hdropped : (byteStart dir t s).framesDropped = s.framesDropped := resync_framesDropped t dir s
    rw [asmEnd_of_not_valid h, hdropped]
    rfl

/-- Settles O40: the sum without the checksum leaves one residue for the checksum to complete. -/
theorem checksumOfASender : Obligations.ChecksumOfASender := by
  intro s cs sum
  have hok : checksumOK { s with asm := { s.asm with fSum := cs } } = true ↔
      (s.asm.fLen.toNat + sum + cs.toNat) % 256 = 0 := checksumOK_eq_true _
  refine ⟨checksumOK_eq_true s, hok.trans ?_⟩
  have hcs : cs.toNat < 256 := cs.isLt
  omega

/-- Settles O41: ASM_CLEAR is the assembler's clear. -/
theorem asmClearEffect : Obligations.AsmClearEffect := fun _ => rfl

/-! ### Refusals (44_frame_assembler.md R191, 45_control.md R207, R208, 60_exceptions.md R225) -/

theorem execAsmByte_of_bitTicks_zero {s : State} (h : s.bitTicks = 0#32) (dir : Direction) (v : Byte) (t : Time) :
    execAsmByte dir v t s = .next (raiseError .notConfigured (encode (.asmByte dir v t)) s) := by
  rw [execAsmByte, if_pos h]

theorem execAsmByte_of_early {s : State} {t : Time} (hbt : s.bitTicks ≠ 0#32) (hprev : s.asm.havePrev = true)
    (ht : t.toNat < s.asm.prevTime.toNat) (dir : Direction) (v : Byte) :
    execAsmByte dir v t s = .next (raiseError .asmTimeOrder (encode (.asmByte dir v t)) s) := by
  rw [execAsmByte, if_neg hbt, if_pos ⟨hprev, ht⟩]

theorem execCsrWr_unmapped {i : BitVec 8} (h : csrOfIndex i = none) (d : CsrWord) (s : State) :
    execCsrWr i d s = .next (raiseError .badCsr (encode (.csrWr i d)) s) := by
  simp only [execCsrWr, h]

theorem execCsrWr_readOnly {r : Csr} (h : csrAccess r = .ro) (d : CsrWord) (s : State) :
    execCsrWr (csrIndex r) d s = .next (raiseError .csrReadOnly (encode (.csrWr (csrIndex r) d)) s) := by
  simp only [execCsrWr, csrOfIndex_csrIndex, if_pos h]

theorem execCsrWr_illegal {r : Csr} {d : CsrWord} (hrw : csrAccess r ≠ .ro) (hillegal : csrLegal r d = false)
    (s : State) :
    execCsrWr (csrIndex r) d s = .next (raiseError .badCsrValue (encode (.csrWr (csrIndex r) d)) s) := by
  simp only [execCsrWr, csrOfIndex_csrIndex, if_neg hrw, if_pos hillegal]

/-- The registers that stand at the read-only indices (10_state.md R29, R51). -/
theorem exists_readOnly_of_index {i : BitVec 8}
    (h : i = 0x00#8 ∨ i = 0x10#8 ∨ (0x13 ≤ i.toNat ∧ i.toNat ≤ 0x1D)) :
    ∃ r, csrIndex r = i ∧ csrAccess r = .ro := by
  have hindices : (allCsrs.filter (csrAccess · = .ro)).map csrIndex =
      [0x00#8, 0x10#8, 0x13#8, 0x14#8, 0x15#8, 0x16#8, 0x17#8, 0x18#8, 0x19#8, 0x1A#8, 0x1B#8, 0x1C#8, 0x1D#8] := by
    decide
  have hmem : i ∈ (allCsrs.filter (csrAccess · = .ro)).map csrIndex := by
    simp only [hindices, List.mem_cons, List.not_mem_nil, or_false]
    bv_omega
  obtain ⟨r, hr, hri⟩ := List.mem_map.1 hmem
  exact ⟨r, hri, of_decide_eq_true (List.mem_filter.1 hr).2⟩

theorem framingLegal_eq_false {d : CsrWord} (h : d.extractLsb' 0 4 = 0#4 ∨ 8 < (d.extractLsb' 0 4).toNat) :
    framingLegal d = false := by
  rw [← Bool.not_eq_true, framingLegal_eq_true]
  rintro ⟨hlow, hhigh⟩
  rcases h with h | h
  · simp [h] at hlow
  · omega

/-- Settles O48: the configuration before the time, and the index before the access before the value. -/
theorem assemblerAndRegisterRefusals : Obligations.AssemblerAndRegisterRefusals := by
  refine ⟨fun s dir v t h => execAsmByte_of_bitTicks_zero h dir v t,
    fun s dir v t hbt hprev ht => execAsmByte_of_early hbt hprev ht dir v,
    fun s i d h => execCsrWr_unmapped (csrOfIndex_of_unmapped h) d s, fun s i d h => ?_,
    fun s => execCsrWr_illegal (r := .bitTicks) (d := 0#32) (by decide) rfl s,
    fun s d h => execCsrWr_illegal (r := .framing) (by decide) (framingLegal_eq_false h) s⟩
  obtain ⟨r, rfl, hro⟩ := exists_readOnly_of_index h
  exact execCsrWr_readOnly hro d s

end Sys2Proof.Machine

/-! A whole frame through ASM_BYTE, byte by byte: what has been received of it up to its terminator, and the two ways it
can end (44_frame_assembler.md R193 to R195). -/

namespace Sys2Proof.Machine

/-! ### Commands executed in two parts (20_memory.md R72) -/

theorem execAll_cons_of_next {i : Instr} {s t : State} (h : exec i s = .next t) (l : List Instr) :
    execAll (i :: l) s = execAll l t := by
  rw [execAll, h, andThen_next]

theorem execAll_singleton (i : Instr) (s : State) : execAll [i] s = exec i s := by
  rw [execAll]
  cases exec i s <;> rfl

theorem execAll_append_of_next {l : List Instr} {s t : State} (h : execAll l s = .next t) (m : List Instr) :
    execAll (l ++ m) s = execAll m t := by
  induction l generalizing s with
  | nil =>
    cases h
    rfl
  | cons i l ih =>
    obtain ⟨u, hi, hl⟩ := andThen_eq_next.1 h
    rw [List.cons_append, execAll_cons_of_next hi, ih hl]

theorem feed_cons (dir : Direction) (v : Byte) (t : Time) (l : List (Byte × Time)) :
    feed dir ((v, t) :: l) = .asmByte dir v t :: feed dir l := rfl

theorem feed_append (dir : Direction) (l m : List (Byte × Time)) : feed dir (l ++ m) = feed dir l ++ feed dir m :=
  List.map_append

/-! ### Bytes on time (44_frame_assembler.md R182, R191) -/

/-- The bytes follow the assembler's previous byte in its direction, each within the tolerance of the one before it, so
that none of them is refused and none resyncs. -/
structure OnTime (s : State) (dir : Direction) (bytes : List (Byte × Time)) (a : Asm) : Prop where
  havePrev : a.havePrev = true
  prevDir : a.prevDir = dir
  gaps : gapsWithin (resyncTolerance s) ((0#8, a.prevTime) :: bytes)

/-- Only the times matter, not the first byte's value. -/
theorem gapsWithin_cons_congr {tol : Nat} {v w : Byte} {t : Time} {l : List (Byte × Time)}
    (h : gapsWithin tol ((v, t) :: l)) : gapsWithin tol ((w, t) :: l) := by
  cases l with
  | nil => trivial
  | cons _ _ => exact h

/-- Once a byte has been noted, the bytes after it are on time. -/
theorem onTime_seen {s : State} {dir : Direction} {v : Byte} {t : Time} {rest : List (Byte × Time)} (a : Asm)
    (h : gapsWithin (resyncTolerance s) ((v, t) :: rest)) : OnTime s dir rest (a.seen dir t) :=
  ⟨rfl, rfl, gapsWithin_cons_congr h⟩

/-- The block while a frame that began in `s` is received: `n` bytes have been scanned, and the assembler's record is
`a`. -/
def State.receiving (s : State) (n : Nat) (a : Asm) : State :=
  { s with bytesScanned := s.bytesScanned + BitVec.ofNat 32 n, asm := a }

theorem byteStart_of_no_discard {t : Time} {dir : Direction} {s : State}
    (h : ¬ (resyncNeeded t dir s = true ∧ s.asm.state ≠ .idle)) :
    byteStart dir t s = s.receiving 1 (s.asm.seen dir t) := by
  rw [byteStart, resync_of_no_discard h]
  rfl

theorem receiving_receiving (s : State) (n m : Nat) (a b : Asm) :
    (s.receiving n a).receiving m b = s.receiving (n + m) b := by
  simp only [State.receiving, BitVec.ofNat_add, BitVec.add_assoc]

section
variable {s : State} {dir : Direction} {v : Byte} {t : Time} {rest : List (Byte × Time)} {a : Asm}

/-- A byte on time: it is accepted, no resync fires, and its transition runs. -/
theorem exec_receiving (hbt : s.bitTicks ≠ 0#32) (h : OnTime s dir ((v, t) :: rest) a) (n : Nat) :
    exec (.asmByte dir v t) (s.receiving n a) =
      asmTransition v (s.bytesScanned + BitVec.ofNat 32 n) (s.receiving (n + 1) (a.seen dir t)) := by
  obtain ⟨hnotBefore, hnear, -⟩ := h.gaps
  have htime : ¬ ((s.receiving n a).asm.havePrev = true ∧ t.toNat < (s.receiving n a).asm.prevTime.toNat) :=
    fun hearly => absurd hnotBefore (Nat.not_le_of_lt hearly.2)
  have hresync : ¬ resyncNeeded t dir (s.receiving n a) = true := by
    rw [resyncNeeded_eq_true]
    rintro ⟨-, hfar | hdir⟩
    · exact absurd hnear (Nat.not_le_of_lt hfar)
    · exact hdir h.prevDir.symm
  rw [exec_asmByte_accepted (s := s.receiving n a) hbt htime,
    byteStart_of_no_discard fun hdiscard => hresync hdiscard.1, receiving_receiving]
  rfl

theorem OnTime.seen (h : OnTime s dir ((v, t) :: rest) a) : OnTime s dir rest (a.seen dir t) :=
  onTime_seen a h.gaps.2.2

end

/-! ### What has been received of a frame (44_frame_assembler.md R180, R184 to R186) -/

/-- The record holds a frame's header and the payload bytes received so far, each at its position. -/
structure FrameSoFar (start : BitVec 32) (marker : Byte) (ty : BitVec 4) (len : Nat) (got : List Byte) (a : Asm) :
    Prop where
  marker : a.fMarker = marker
  type : a.fType = ty
  start : a.fStart = start
  len : a.fLen = BitVec.ofNat 8 len
  count : a.fCount = BitVec.ofNat 8 got.length
  stored : ∀ p < got.length, cellsRead a.fData p = got[p]?

/-- The state in which the byte after the received payload bytes is processed: Sum once all have come (R185, R186). -/
def payloadState (len got : Nat) : AsmState := if got = len then .sum else .data

section
variable {s : State} {dir : Direction} {start : BitVec 32} {marker v : Byte} {ty : BitVec 4} {len : Nat} {t : Time}
  {got : List Byte} {rest : List (Byte × Time)} {a : Asm}

/-- A payload byte is stored at the next position (R186). -/
theorem FrameSoFar.push (h : FrameSoFar start marker ty len got a) (hgot : got.length < 256) (v : Byte)
    (st : AsmState) :
    FrameSoFar start marker ty len (got ++ [v])
      { a with
        state := st
        fCount := a.fCount + 1#8
        fData := cellsWrite a.fData a.fCount.toNat v } := by
  have hcount : a.fCount.toNat = got.length := by rw [h.count, BitVec.toNat_ofNat, Nat.mod_eq_of_lt hgot]
  refine { h with count := ?_, stored := fun p hp => ?_ }
  · show a.fCount + 1#8 = BitVec.ofNat 8 (got ++ [v]).length
    rw [h.count, List.length_append, List.length_singleton, BitVec.ofNat_add]
  · show cellsRead (cellsWrite a.fData a.fCount.toNat v) p = (got ++ [v])[p]?
    rw [cellsRead_cellsWrite, hcount]
    rw [List.length_append, List.length_singleton] at hp
    split
    next hlast => rw [hlast, List.getElem?_concat_length]
    next hearlier =>
      have hlt : p < got.length := by omega
      rw [h.stored p hlt, List.getElem?_append_left hlt]

/-- With the whole payload received, the buffer reads as the payload. -/
theorem FrameSoFar.payloadBytes (h : FrameSoFar start marker ty got.length got a) (hlen : got.length ≤ 255)
    (n : Nat) :
    payloadBytes (s.receiving n a) = got := by
  have hlength : (s.receiving n a).asm.fLen.toNat = got.length := by
    show a.fLen.toNat = got.length
    rw [h.len, BitVec.toNat_ofNat, Nat.mod_eq_of_lt (by omega)]
  rw [Machine.payloadBytes, hlength]
  refine List.ext_getElem (by simp) fun p _ hp => ?_
  have hread : cellsRead (s.receiving n a).asm.fData p = some got[p] := by
    rw [← List.getElem?_eq_getElem hp]
    exact h.stored p hp
  simp [payloadAt, hread]

/-! ### A frame's bytes, one at a time (44_frame_assembler.md R184 to R188) -/

/-- The marker opens the frame, whatever came before it: a resync in Idle discards nothing (R182, R184). -/
theorem exec_markerByte (hbt : s.bitTicks ≠ 0#32) (hidle : s.asm.state = .idle)
    (hbefore : s.asm.havePrev = true → s.asm.prevTime.toNat ≤ t.toNat) (hlookup : lookupMarker s v = some ty)
    (hgaps : gapsWithin (resyncTolerance s) ((v, t) :: rest)) :
    ∃ a, exec (.asmByte dir v t) s = .next (s.receiving 1 a) ∧
      (a.fMarker = v ∧ a.fType = ty ∧ a.fStart = s.bytesScanned) ∧ a.state = .len ∧ OnTime s dir rest a := by
  rw [exec_asmByte_accepted hbt fun hearly => absurd (hbefore hearly.1) (Nat.not_le_of_lt hearly.2),
    byteStart_of_no_discard fun hdiscard => hdiscard.2 hidle,
    asmTransition_of_idle_some (s := s.receiving 1 (s.asm.seen dir t)) _ hidle hlookup]
  exact ⟨_, rfl, ⟨rfl, rfl, rfl⟩, rfl, { onTime_seen s.asm hgaps with }⟩

section
variable (hbt : s.bitTicks ≠ 0#32)
include hbt

/-- The length opens the payload, empty so far (R185). -/
theorem exec_lengthByte (hlen : len ≤ 255) (hopened : a.fMarker = marker ∧ a.fType = ty ∧ a.fStart = start)
    (hst : a.state = .len) (htime : OnTime s dir ((BitVec.ofNat 8 len, t) :: rest) a) (n : Nat) :
    ∃ b, exec (.asmByte dir (BitVec.ofNat 8 len) t) (s.receiving n a) = .next (s.receiving (n + 1) b) ∧
      FrameSoFar start marker ty len [] b ∧ b.state = payloadState len 0 ∧ OnTime s dir rest b := by
  obtain ⟨hmarker, htype, hstart⟩ := hopened
  have hzero : BitVec.ofNat 8 len = 0#8 ↔ 0 = len := by bv_omega
  rw [exec_receiving hbt htime, asmTransition_of_len (s := s.receiving (n + 1) (a.seen dir t)) _ _ hst]
  exact ⟨_, rfl, ⟨hmarker, htype, hstart, rfl, rfl, fun _ hp => absurd hp (Nat.not_lt_zero _)⟩,
    if_congr hzero rfl rfl, { htime.seen with }⟩

/-- One payload byte (R186). -/
theorem exec_payloadByte (hlen : len ≤ 255) (hframe : FrameSoFar start marker ty len got a) (hst : a.state = .data)
    (hroom : got.length < len) (htime : OnTime s dir ((v, t) :: rest) a) (n : Nat) :
    ∃ b, exec (.asmByte dir v t) (s.receiving n a) = .next (s.receiving (n + 1) b) ∧
      FrameSoFar start marker ty len (got ++ [v]) b ∧ b.state = payloadState len (got ++ [v]).length ∧
      OnTime s dir rest b := by
  have hcount : a.fCount.toNat = got.length := by
    rw [hframe.count, BitVec.toNat_ofNat, Nat.mod_eq_of_lt (by omega)]
  have hlast : a.fCount + 1#8 = a.fLen ↔ (got ++ [v]).length = len := by
    rw [hframe.len, List.length_append, List.length_singleton]
    bv_omega
  have hseen : FrameSoFar start marker ty len got (a.seen dir t) := { hframe with }
  rw [exec_receiving hbt htime, asmTransition_of_data (s := s.receiving (n + 1) (a.seen dir t)) v _ hst
    (show a.fCount.toNat < 255 by omega)]
  exact ⟨_, rfl, hseen.push (by omega) v _, if_congr hlast rfl rfl, { htime.seen with }⟩

/-- The rest of a payload: the assembler then waits for the checksum (R186). -/
theorem execAll_feed_payload (hlen : len ≤ 255) {data : List (Byte × Time)}
    (hframe : FrameSoFar start marker ty len got a) (hst : a.state = payloadState len got.length)
    (hdata : got.length + data.length = len) (htime : OnTime s dir (data ++ rest) a) (n : Nat) :
    ∃ b, execAll (feed dir data) (s.receiving n a) = .next (s.receiving (n + data.length) b) ∧
      FrameSoFar start marker ty len (got ++ data.map Prod.fst) b ∧ b.state = .sum ∧ OnTime s dir rest b := by
  induction data generalizing got a n with
  | nil =>
    rw [List.map_nil, List.append_nil]
    exact ⟨a, rfl, hframe, hst.trans (if_pos hdata), htime⟩
  | cons d data ih =>
    rw [List.length_cons] at hdata
    obtain ⟨a1, hexec, hframe1, hst1, htime1⟩ :=
      exec_payloadByte hbt hlen hframe (hst.trans (if_neg (by omega))) (by omega) htime n
    have hdata1 : (got ++ [d.1]).length + data.length = len := by
      rw [List.length_append, List.length_singleton]
      omega
    rw [List.map_cons, List.append_cons, List.length_cons, Nat.add_comm data.length, ← Nat.add_assoc, feed_cons,
      execAll_cons_of_next hexec]
    exact ih hframe1 hst1 hdata1 htime1 (n + 1)

/-- The checksum is kept for the End byte (R188). -/
theorem exec_checksumByte (hframe : FrameSoFar start marker ty len got a) (hst : a.state = .sum)
    (htime : OnTime s dir ((v, t) :: rest) a) (n : Nat) :
    ∃ b, exec (.asmByte dir v t) (s.receiving n a) = .next (s.receiving (n + 1) b) ∧
      FrameSoFar start marker ty len got b ∧ b.fSum = v ∧ b.state = .end_ ∧ OnTime s dir rest b := by
  rw [exec_receiving hbt htime, asmTransition_of_sum (s := s.receiving (n + 1) (a.seen dir t)) v _ hst]
  exact ⟨_, rfl, { hframe with }, rfl, rfl, { htime.seen with }⟩

end

end

/-! ### A whole frame (44_frame_assembler.md R193) -/

/-- The bytes of a frame with their times. -/
theorem exists_times_of_frameBytes {bytes : List (Byte × Time)} {marker sum terminator : Byte} {payload : List Byte}
    (h : bytes.map Prod.fst = frameBytes marker payload sum terminator) :
    ∃ t0 t1 data t2 t3, bytes =
        (marker, t0) :: (BitVec.ofNat 8 payload.length, t1) :: (data ++ [(sum, t2), (terminator, t3)]) ∧
      data.map Prod.fst = payload := by
  simp only [frameBytes, List.cons_append, List.map_eq_cons_iff, List.map_eq_append_iff, List.map_eq_nil_iff] at h
  obtain ⟨⟨_, t0⟩, _, rfl, rfl, ⟨_, t1⟩, _, rfl, rfl, data, _, rfl, rfl, ⟨_, t2⟩, _, rfl, rfl, ⟨_, t3⟩, _, rfl, rfl,
    rfl⟩ := h
  exact ⟨t0, t1, data, t2, t3, rfl, rfl⟩

/-- A whole frame fed to an Idle assembler: the End transition decides over the frame that has been received. -/
theorem execAll_feed_frame {s : State} {dir : Direction} {marker sum terminator : Byte} {ty : BitVec 4}
    {payload : List Byte} {bytes : List (Byte × Time)} (hbt : s.bitTicks ≠ 0#32) (hidle : s.asm.state = .idle)
    (hbefore : notBefore s bytes) (hlen : payload.length ≤ 255) (hlookup : lookupMarker s marker = some ty)
    (hbytes : bytes.map Prod.fst = frameBytes marker payload sum terminator)
    (hgaps : gapsWithin (resyncTolerance s) bytes) :
    ∃ a, execAll (feed dir bytes) s =
        .next (asmEnd terminator (s.bytesScanned + BitVec.ofNat 32 (payload.length + 3))
          (s.receiving bytes.length a)) ∧
      FrameSoFar s.bytesScanned marker ty payload.length payload a ∧ a.fSum = sum := by
  obtain ⟨t0, t1, data, t2, t3, rfl, rfl⟩ := exists_times_of_frameBytes hbytes
  rw [List.length_map] at hlen hgaps ⊢
  obtain ⟨a, hexec, hopened, hst, htime⟩ :=
    exec_markerByte (dir := dir) hbt hidle (fun hprev => hbefore hprev _ rfl) hlookup hgaps
  obtain ⟨b, hexec1, hframe, hst, htime⟩ := exec_lengthByte hbt hlen hopened hst htime 1
  obtain ⟨c, hexecAll, hframe, hst, htime⟩ := execAll_feed_payload hbt hlen hframe hst (Nat.zero_add _) htime 2
  obtain ⟨d, hexec2, hframe, hsum, hst, htime⟩ := exec_checksumByte hbt hframe hst htime (2 + data.length)
  have hcount : 2 + data.length + 1 = data.length + 3 := by omega
  rw [hcount] at hexec2
  refine ⟨d.seen dir t3, ?_, { hframe with }, hsum⟩
  rw [feed_cons, feed_cons, feed_append, execAll_cons_of_next hexec, execAll_cons_of_next hexec1,
    execAll_append_of_next hexecAll, feed_cons, feed_cons, execAll_cons_of_next hexec2]
  have hlength : ((marker, t0) :: (BitVec.ofNat 8 data.length, t1) ::
      (data ++ [(sum, t2), (terminator, t3)])).length = data.length + 3 + 1 := by simp
  rw [hlength, ← asmTransition_of_end (s := s.receiving _ (d.seen dir t3)) _ _ hst, ← exec_receiving hbt htime]
  exact execAll_singleton _ _

/-- The End byte's validation of a frame received whole, on the wire's own terms (R187, R189). -/
theorem validEnd_receiving_iff {s : State} {start : BitVec 32} {marker : Byte} {ty : BitVec 4} {payload : List Byte}
    {sum : Byte} {a : Asm} (hframe : FrameSoFar start marker ty payload.length payload a) (hsum : a.fSum = sum)
    (hlen : payload.length ≤ 255) (n : Nat) (v : Byte) :
    validEnd (s.receiving n a) v ↔ v = s.endMarker.extractLsb' 0 8 ∧ frameSum payload sum % 256 = 0 := by
  have hlength : a.fLen.toNat = payload.length := by
    rw [hframe.len, BitVec.toNat_ofNat, Nat.mod_eq_of_lt (by omega)]
  rw [validEnd, hframe.payloadBytes hlen, frameSum, ← hlength, ← hsum]
  rfl

/-- Settles O42: the frame has been received whole, and the End byte finds it valid. -/
theorem validFrameIsEmitted : Obligations.ValidFrameIsEmitted := by
  intro s dir marker sum payload ty bytes hbt hidle hbefore hlen hlookup hvalid hbytes hgaps
  obtain ⟨a, hexec, hframe, hsum⟩ := execAll_feed_frame hbt (dir := dir) hidle hbefore hlen hlookup hbytes hgaps
  have hend := (validEnd_receiving_iff (s := s) hframe hsum hlen bytes.length _).2 ⟨rfl, hvalid⟩
  refine ⟨_, hexec, ?_⟩
  rw [asmEnd_of_valid hend, hframe.payloadBytes hlen]
  refine ⟨rfl, rfl, rfl, rfl, rfl, ?_⟩
  rw [← hframe.type, ← hframe.marker, ← hframe.len, ← hframe.start, ← hsum]
  rfl

/-- Settles O43: the frame has been received whole, and the End byte finds it wrong. -/
theorem invalidFrameIsDropped : Obligations.InvalidFrameIsDropped := by
  intro s dir marker sum terminator payload ty bytes hbt hidle hbefore hlen hlookup hinvalid hbytes hgaps
  obtain ⟨a, hexec, hframe, hsum⟩ := execAll_feed_frame hbt (dir := dir) hidle hbefore hlen hlookup hbytes hgaps
  have hend : ¬ validEnd (s.receiving bytes.length a) terminator := by
    rw [validEnd_receiving_iff hframe hsum hlen]
    rintro ⟨hterminator, hchecksum⟩
    exact hinvalid.elim (· hchecksum) (· hterminator)
  refine ⟨_, hexec, ?_⟩
  rw [asmEnd_of_not_valid hend]
  exact ⟨rfl, rfl, rfl, rfl, rfl, rfl⟩

end Sys2Proof.Machine

/-! What CSR_WR stores, register by register, and the effects of NOP and CLEAR (45_control.md). -/

namespace Sys2Proof.Machine

/-! ### Reads after a write (45_control.md R206, R207) -/

/-- The bits that a CSR_WR of a register can set (R207); none where the register only reads. -/
def writeMask : Csr → CsrWord
  | .ctrl => ctrlMask
  | .bitTicks => BitVec.allOnes 32
  | .framing => framingMask
  | .endMarker => endMarkerMask
  | .marker _ => markerMask
  | .ier => isrMask
  | .id | .status | .isr | .lastErr | .edgeCount _ | .bytesScanned | .framesFound | .framesDropped
  | .resyncDiscards | .bytesDecoded | .ambigCount | .bit0Count | .edgeDepth => 0#32

/-- The spec's table of writes is each register of access RW with its write mask. -/
theorem csrWriteTable_eq :
    csrWriteTable = (allCsrs.filter (csrAccess · = .rw)).map fun r => (r, writeMask r) := by decide

/-- The legal values: only BIT_TICKS and FRAMING restrict them (R208). -/
theorem csrLegal_of {r : Csr} {d : CsrWord} (hticks : r = .bitTicks → d ≠ 0#32)
    (hframing : r = .framing → 1 ≤ (d.extractLsb' 0 4).toNat ∧ (d.extractLsb' 0 4).toNat ≤ 8) :
    csrLegal r d = true := by
  cases r with
  | bitTicks => exact decide_eq_true (hticks rfl)
  | framing => exact (framingLegal_eq_true d).2 (hframing rfl)
  | _ => rfl

/-- A second use of a mask changes nothing: a stored value is read as it was stored. -/
theorem and_mask_and_mask (d m : CsrWord) : d &&& m &&& m = d &&& m := by
  rw [BitVec.and_assoc, BitVec.and_self]

/-- A register of access RW reads as the value written, under its mask. -/
theorem csrValue_csrStore_self {r : Csr} (hrw : csrAccess r = .rw) (s : State) (d : CsrWord) :
    csrValue (csrStore s r d) r = d &&& writeMask r := by
  cases r with
  | bitTicks => exact BitVec.and_allOnes.symm
  | marker n =>
    have hread : (s.markers.set n (d &&& markerMask))[n] = d &&& markerMask := Vector.getElem_set_self _
    exact (congrArg (· &&& markerMask) hread).trans (and_mask_and_mask d markerMask)
  | ctrl | framing | endMarker | ier => exact and_mask_and_mask d _
  | isr | id | status | lastErr | edgeCount | bytesScanned | framesFound | framesDropped | resyncDiscards
  | bytesDecoded | ambigCount | bit0Count | edgeDepth => cases hrw

/-- Every other register reads as before the write. -/
theorem csrValue_csrStore_of_ne {r q : Csr} (h : q ≠ r) (s : State) (d : CsrWord) :
    csrValue (csrStore s r d) q = csrValue s q := by
  cases r with
  | marker n =>
    cases q with
    | marker m =>
      have hne : n.val ≠ m.val := fun hnm => h (congrArg Csr.marker (Fin.ext hnm.symm))
      exact congrArg (· &&& markerMask) (Vector.getElem_set_ne n.isLt m.isLt hne)
    | _ => rfl
  | ctrl => cases q with | ctrl => exact absurd rfl h | _ => rfl
  | bitTicks => cases q with | bitTicks => exact absurd rfl h | _ => rfl
  | framing => cases q with | framing => exact absurd rfl h | _ => rfl
  | endMarker => cases q with | endMarker => exact absurd rfl h | _ => rfl
  | isr => cases q with | isr => exact absurd rfl h | _ => rfl
  | ier => cases q with | ier => exact absurd rfl h | _ => rfl
  | id | status | lastErr | edgeCount | bytesScanned | framesFound | framesDropped | resyncDiscards | bytesDecoded
  | ambigCount | bit0Count | edgeDepth => rfl

/-! ### What a write leaves alone (45_control.md R207) -/

theorem csrStore_isr_of_rw {r : Csr} (hrw : csrAccess r = .rw) (s : State) (d : CsrWord) :
    (csrStore s r d).isr = s.isr := by
  cases r with
  | isr => cases hrw
  | _ => rfl

theorem csrStore_lastErr (s : State) (r : Csr) (d : CsrWord) : (csrStore s r d).lastErr = s.lastErr := by
  cases r <;> rfl

theorem csrStore_inputs (s : State) (r : Csr) (d : CsrWord) : (csrStore s r d).inputs = s.inputs := by
  cases r <;> rfl

/-- Settles O46: a row of the table is a register of access RW, the write is accepted, and it is the store. -/
theorem csrWriteStoresTheMaskedValue : Obligations.CsrWriteStoresTheMaskedValue := by
  intro s d p hp hticks hframing
  rw [csrWriteTable_eq, List.mem_map] at hp
  obtain ⟨r, hr, rfl⟩ := hp
  have hrw : csrAccess r = .rw := of_decide_eq_true (List.mem_filter.1 hr).2
  have hwritable : csrAccess r ≠ .ro := by simp [hrw]
  exact ⟨csrStore s r d, execCsrWr_csrIndex s hwritable (csrLegal_of hticks hframing),
    csrValue_csrStore_self hrw s d, fun _ hq => csrValue_csrStore_of_ne hq s d,
    csrStore_chan s r d .a, csrStore_chan s r d .b, csrStore_asm s r d, csrStore_isr_of_rw hrw s d,
    csrStore_lastErr s r d, csrStore_out s r d, csrStore_evtTaken s r d, csrStore_inputs s r d,
    csrStore_freeCount s r d⟩

/-! ### NOP and CLEAR (45_control.md R205, R209) -/

/-- Settles O44: NOP answers the state it was given. -/
theorem nopChangesNothing : Obligations.NopChangesNothing := fun _ => rfl

/-- Nothing pending leaves irq at 0 (60_exceptions.md R229). -/
theorem irq_of_isr_zero {s : State} (h : s.isr = 0#32) : irq s = false := by
  simp [irq, h]

/-- Settles O49: what CLEAR names is at its reset value, and its frame keeps the configuration, IER and the ports. -/
theorem clearEffect : Obligations.ClearEffect := by
  intro s
  have hframe := execClear_frame (s := s) rfl
  refine ⟨_, rfl, fun c => ?_, rfl, rfl, rfl, rfl, rfl, rfl, rfl, rfl, rfl, rfl, rfl, irq_of_isr_zero rfl,
    hframe.ctrl, hframe.bitTicks, hframe.framing, hframe.endMarker, hframe.markers, hframe.ier, hframe.edgeDepth,
    rfl, hframe.evtTaken, hframe.inputs⟩
  cases c <;> exact ⟨rfl, rfl⟩

end Sys2Proof.Machine

/-! Errors and the interrupt: what the error procedure writes, that ISR's bits are sticky, and the irq line
(60_exceptions.md). -/

namespace Sys2Proof.Machine

/-! ### The error procedure (60_exceptions.md R221, R223, R224) -/

/-- The spec's table gives each error the code that the machine reports (R221). -/
theorem errCode_of_mem_errorCodeTable : ∀ p ∈ errorCodeTable, errCode p.1 = p.2 := by decide

/-- Settles O11: `raiseError_eq`, with the code of the table and the events of either value of CTRL.ERR_EV_EN. -/
theorem errorProcedure : Obligations.ErrorProcedure := by
  intro p hp w s
  have hen : s.ctrl.getLsbD 2 = ctrlErrEvEn s.ctrl := rfl
  rw [raiseError_eq, errCode_of_mem_errorCodeTable p hp, hen]
  cases ctrlErrEvEn s.ctrl with
  | false =>
    simp only [Bool.false_eq_true, if_false, List.append_nil]
    rfl
  | true => rfl

/-- Settles O12: `channelFail_eq`, at each channel's own record and bit. -/
theorem channelFailure : Obligations.ChannelFailure :=
  ⟨channelFail_eq .a, channelFail_eq .b⟩

/-! ### Sticky bits (60_exceptions.md R231) -/

/-- Every ISR bit pending before is still pending. -/
def IsrKept (s t : State) : Prop := ∀ b, s.isr.getLsbD b = true → t.isr.getLsbD b = true

theorem IsrKept.of_eq {s t : State} (h : t.isr = s.isr) : IsrKept s t := fun _ hb => h ▸ hb

theorem IsrKept.trans {s t u : State} (h : IsrKept s t) (g : IsrKept t u) : IsrKept s u :=
  fun b hb => g b (h b hb)

/-- Setting a sticky bit clears none. -/
theorem IsrKept.of_isrWith {s t : State} {b : IsrBit} (h : t.isr = isrWith s.isr b) : IsrKept s t := by
  intro k hk
  rw [h, isrWith_getLsbD, hk, Bool.true_or]

theorem raiseError_isrKept (code : ErrCode) (w : Word) (s : State) : IsrKept s (raiseError code w s) :=
  .of_isrWith (raiseError_isr code w s)

theorem ChanEffect.isrKept {c : Channel} {i : Instr} {s t : State} (h : ChanEffect c i s t) : IsrKept s t := by
  cases h with
  | refused code w => exact raiseError_isrKept code w s
  | fails code w =>
    rw [channelFail_eq]
    exact .trans (.of_isrWith rfl) (raiseError_isrKept code w _)
  | sets => exact .of_eq (setChan_isr s c _)

theorem ReadEffect.isrKept {s t : State} (h : ReadEffect s t) : IsrKept s t := by
  obtain ⟨code, w, rfl⟩ | ⟨e, rfl⟩ := h
  · exact raiseError_isrKept code w s
  · exact .of_eq (emit_isr e s)

/-- DECODE clears no bit: neither its start, nor a byte out, nor the completion does. -/
theorem execDecode_isrKept {s t : State} (h : execDecode s = .next t) : IsrKept s t := by
  obtain ⟨code, rfl⟩ | ⟨u, hwalk, rfl⟩ := execDecode_next h
  · exact raiseError_isrKept code _ s
  · have hu : IsrKept s u :=
      decodeWalk_keeps (P := IsrKept s) (fun _ _ _ hbyte hs => hs.trans (bytesOut_singleton hbyte).isrKept) hwalk
        (.of_eq rfl)
    exact hu.trans (.of_isrWith (b := .decodeDone) rfl)

/-- A register's index is the one that finds it (10_state.md R29). -/
theorem csrIndex_of_csrOfIndex {i : BitVec 8} {r : Csr} (h : csrOfIndex i = some r) : csrIndex r = i := by
  unfold csrOfIndex at h
  split at h <;> cases h
  all_goals
    rename_i hi
    exact BitVec.eq_of_toNat_eq hi.symm

/-- A store clears a bit of ISR only as the register ISR, where the bit is written as 1 (R37, R207). -/
theorem csrStore_isr_lost {s : State} {r : Csr} {d : CsrWord} {b : Nat} (hs : s.isr.getLsbD b = true)
    (ht : (csrStore s r d).isr.getLsbD b = false) : r = .isr ∧ d.getLsbD b = true := by
  cases r with
  | isr =>
    have hbit : (s.isr &&& ~~~(d &&& isrMask)).getLsbD b = false := ht
    rw [BitVec.getLsbD_and, hs, Bool.true_and, BitVec.getLsbD_not, decide_eq_true (BitVec.lt_of_getLsbD hs),
      Bool.true_and, Bool.not_eq_false', BitVec.getLsbD_and, Bool.and_eq_true] at hbit
    exact ⟨rfl, hbit.1⟩
  | _ => exact absurd (hs.symm.trans ht) (by decide)

/-- A command that clears a bit of ISR is CLEAR, or a CSR_WR of ISR that writes 1 to it. -/
theorem exec_isr_lost {i : Instr} {s t : State} {b : Nat} (h : exec i s = .next t) (hs : s.isr.getLsbD b = true)
    (ht : t.isr.getLsbD b = false) :
    i = .clear ∨ ∃ d : CsrWord, d.getLsbD b = true ∧ i = .csrWr (csrIndex .isr) d := by
  have hnot (hkept : IsrKept s t) : i = .clear ∨ ∃ d : CsrWord, d.getLsbD b = true ∧ i = .csrWr (csrIndex .isr) d :=
    absurd ((hkept b hs).symm.trans ht) (by decide)
  cases i with
  | nop =>
    cases h
    exact hnot (.of_eq rfl)
  | sample c l time => exact hnot (execSample_effect h).isrKept
  | close c => exact hnot (execClose_effect h).isrKept
  | query c time => exact hnot (execQuery_effect h).isrKept
  | decode => exact hnot (execDecode_isrKept h)
  | asmByte dir v time =>
    obtain ⟨code, w, rfl⟩ | hstep := execAsmByte_next h
    · exact hnot (raiseError_isrKept code w s)
    · exact hnot (asmStep_next hstep).1.isrKept
  | asmClear =>
    cases h
    exact hnot (.of_eq rfl)
  | edgeRd c k => exact hnot (execEdgeRd_effect h).isrKept
  | csrRd k => exact hnot (execCsrRd_effect h).isrKept
  | csrWr k d =>
    obtain ⟨code, w, rfl⟩ | ⟨r, hr, -, -, rfl⟩ := execCsrWr_next h
    · exact hnot (raiseError_isrKept code w s)
    · obtain ⟨rfl, hd⟩ := csrStore_isr_lost hs ht
      exact .inr ⟨d, hd, by rw [csrIndex_of_csrOfIndex hr]⟩
  | clear => exact .inl rfl

theorem takeEvent_isr (s : State) : (takeEvent s).isr = s.isr := by
  rw [takeEvent_eq]

/-- Settles O51: of a step's cases only reset and a command that decodes can clear a bit, and `exec_isr_lost` names the
commands. -/
theorem isrBitsAreSticky : Obligations.IsrBitsAreSticky := by
  intro s t b h hs ht
  have hnot (hkept : IsrKept s t) : False := absurd ((hkept b hs).symm.trans ht) (by decide)
  cases step_cases h with
  | idle => exact (hnot (.of_eq rfl)).elim
  | takeEvent => exact (hnot (.of_eq (takeEvent_isr _))).elim
  | @reset rest hin => exact ⟨rest, .inl hin⟩
  | @refused w rest r => exact (hnot (raiseError_isrKept (errOfReject r) w { s with inputs := rest })).elim
  | @command i rest _ hin hexec =>
    refine ⟨rest, .inr ?_⟩
    obtain rfl | ⟨d, hd, rfl⟩ := exec_isr_lost (s := { s with inputs := rest }) hexec hs ht
    · exact .inl hin
    · exact .inr ⟨d, hd, hin⟩

/-! ### The irq line (60_exceptions.md R229) -/

/-- irq is 1 exactly where one of the nine sources is pending and enabled. -/
theorem irq_eq_true_iff (s : State) :
    irq s = true ↔ ∃ b, b < 9 ∧ s.isr.getLsbD b = true ∧ s.ier.getLsbD b = true := by
  simp only [irq, List.any_eq_true, List.mem_range, Bool.and_eq_true]

/-- A word is not 0 exactly where some bit of it is 1. -/
theorem ne_zero_iff_exists_getLsbD {n : Nat} (x : BitVec n) : x ≠ 0#n ↔ ∃ b, x.getLsbD b = true := by
  refine ⟨fun hx => ⟨_, BitVec.getLsbD_true_ctz_of_ne_zero hx⟩, ?_⟩
  rintro ⟨b, hb⟩ rfl
  rw [BitVec.getLsbD_zero] at hb
  cases hb

/-- The pending and enabled sources, as one word. -/
theorem enabledPending_ne_zero_iff (s : State) :
    s.isr &&& s.ier &&& isrMask ≠ 0#32 ↔ ∃ b, b < 9 ∧ s.isr.getLsbD b = true ∧ s.ier.getLsbD b = true := by
  simp only [ne_zero_iff_exists_getLsbD, BitVec.getLsbD_and, isrMask_getLsbD, Bool.and_eq_true, decide_eq_true_eq,
    and_comm]

theorem irq_congr {s t : State} (hisr : s.isr = t.isr) (hier : s.ier = t.ier) : irq s = irq t := by
  rw [irq, irq, hisr, hier]

/-- Settles O50: both readings of the OR are its nine bits; at reset nothing is pending. -/
theorem irqIsTheOrOfEnabledSources : Obligations.IrqIsTheOrOfEnabledSources :=
  ⟨fun s => ⟨irq_eq_true_iff s, (irq_eq_true_iff s).trans (enabledPending_ne_zero_iff s).symm⟩,
    fun _ _ => irq_congr, irq_of_isr_zero rfl⟩

end Sys2Proof.Machine

/-! Asserting rst: the step, the state it leaves, and what the read-only registers and irq read in it
(70_reset_and_hazards.md). -/

namespace Sys2Proof.Machine

/-! ### The step (70_reset_and_hazards.md R250) -/

/-- An assertion of rst is taken and resets the block. -/
theorem step_of_reset {s : State} {rest : List PortInput} (hin : s.inputs = .reset :: rest) :
    step s = .next (hostReset { s with inputs := rest }) :=
  step_of_inputs_cons hin

/-! ### The reset state (70_reset_and_hazards.md R251) -/

theorem hostReset_chan_state (s : State) (c : Channel) : ((hostReset s).chan c).state = .empty := by
  rw [hostReset_chan, Chan.reset]

theorem hostReset_chan_count (s : State) (c : Channel) : ((hostReset s).chan c).count = 0#32 := by
  rw [hostReset_chan, Chan.reset]

/-- The marker registers after the first two are 0 right after reset (R53). -/
theorem reset_markers_of_two_le : ∀ n : Fin 8, 2 ≤ n.val → State.reset.markers[n] = 0#32 := by decide

theorem hostReset_markers_of_two_le (s : State) (n : Fin 8) (hn : 2 ≤ n.val) :
    (hostReset s).markers[n] = 0#32 :=
  reset_markers_of_two_le n hn

/-! ### The registers that are functions of the state (10_state.md R36, R40) -/

/-- STATUS reads 0 where both channels are EMPTY and the assembler is Idle with no byte before (R36). -/
theorem statusValue_of_empty_of_idle {s : State} (hchan : ∀ c, (s.chan c).state = .empty)
    (hasm : s.asm.state = .idle) (hprev : s.asm.havePrev = false) : statusValue s = 0#32 := by
  have ha : s.ch0.state = .empty := hchan .a
  have hb : s.ch1.state = .empty := hchan .b
  rw [statusValue, ha, hb, hasm, hprev]
  rfl

theorem csrValue_status_hostReset (s : State) : csrValue (hostReset s) .status = 0#32 :=
  statusValue_of_empty_of_idle (hostReset_chan_state s) rfl rfl

theorem csrValue_edgeCount_hostReset (s : State) (c : Channel) :
    csrValue (hostReset s) (.edgeCount c) = 0#32 :=
  hostReset_chan_count s c

/-- EDGE_DEPTH is constant, over reset too (R50). -/
theorem csrValue_edgeDepth_hostReset (s : State) :
    csrValue (hostReset s) .edgeDepth = csrValue s .edgeDepth := rfl

theorem irq_hostReset (s : State) : irq (hostReset s) = false :=
  irq_of_isr_zero rfl

/-- Settles O9: the step is `hostReset`, whose stored fields are the constants of `State.reset`; STATUS, EDGE_COUNTc and
irq are computed from them, and EDGE_DEPTH and the rest of the inputs are kept. -/
theorem assertingReset : Obligations.AssertingReset := by
  intro s rest hin
  exact ⟨_, step_of_reset hin, fun c => ⟨hostReset_chan_state _ c, hostReset_chan_count _ c⟩,
    rfl, rfl, rfl, rfl, rfl, rfl, rfl, rfl, hostReset_markers_of_two_le _,
    rfl, rfl, rfl, rfl, rfl, rfl, rfl, rfl, rfl, rfl, rfl,
    csrValue_status_hostReset _, csrValue_edgeCount_hostReset _ .a, csrValue_edgeCount_hostReset _ .b,
    irq_hostReset _, rfl, csrValue_edgeDepth_hostReset _, rfl⟩

end Sys2Proof.Machine
